-- ==== Sys2Proof/Word.lean ====
section
/-! DEFINITION. The words of the machine: bytes, 32-bit longwords, register numbers (R6, R8, R11, R20). -/

namespace Sys2Proof

/-- A byte of memory or of the instruction stream (R6, R8). -/
abbrev Byte := BitVec 8

/-- A longword: the width of a general register and of an address (R6, R20). -/
abbrev Word := BitVec 32

/-- The number of a general register, `r0` to `r15` (R20). -/
abbrev Reg := Fin 16

/-- The number of a general register other than the program counter, `r0` to `r14`: what modes 8 to F name when
they are not the program-counter modes (R66). -/
abbrev Gpr := Fin 15

/-- A register other than the program counter, as a register number. -/
def Gpr.reg (n : Gpr) : Reg := n.castSucc

/-- The size of the 32-bit address space (R11, R30). -/
def addressCount : Nat := 4294967296

end Sys2Proof
end

