-- ==== Sys2Proof/Syntax.lean ====
section
/-! DEFINITION. The whole syntax: data types, accesses, operand specifiers (the 21 specifier modes of R66 and R67),
opcodes (R75) and instructions, one constructor of `Instr` for each row of the opcode table. -/

namespace Sys2Proof

/-- The data type an opcode gives to an operand (R8, R9; the letters of R10 and `o` for octaword). -/
inductive DType where
  | b | w | l | q | o | f | d | g | h
deriving DecidableEq, Repr

/-- The size of a data type in bytes, the "d" of the addressing-mode table (R8, R9, R101). -/
abbrev DType.size : DType → Nat
  | .b => 1 | .w => 2 | .l => 4 | .q => 8 | .o => 16 | .f => 4 | .d => 8 | .g => 8 | .h => 16

/-- The width of a data type in bits (R8, R9). -/
abbrev DType.bits (t : DType) : Nat := 8 * t.size

/-- The floating-point data types (R9). -/
def DType.isFloat : DType → Bool
  | .f | .d | .g | .h => true
  | .b | .w | .l | .q | .o => false

/-- What an instruction does with an operand: read, write, modify, or take its address (R16). A branch displacement
(access `b` of R16) is no operand specifier and stands in the instruction itself. -/
inductive Access where
  | r | w | m | a
deriving DecidableEq, Repr

/-- The modes 6 to F: the operand specifiers that designate memory, and that may be the base of an index (R66, R67).
A mode whose specifier byte has register 15 is the program-counter mode beside it (R67); register deferred and
autodecrement keep register 15, which R130 gives a meaning of its own. Displacements are held as they stand in the
instruction stream. -/
inductive MemSpec where
  /-- Mode 6, `(Rn)` (R109). -/
  | registerDeferred (n : Reg)
  /-- Mode 7, `-(Rn)` (R110). -/
  | autodecrement (n : Reg)
  /-- Mode 8, `(Rn)+` (R111). -/
  | autoincrement (n : Gpr)
  /-- Mode 9, `@(Rn)+` (R112). -/
  | autoincrementDeferred (n : Gpr)
  /-- Specifier byte 9F, `@#address` (R122). -/
  | absolute (addr : Word)
  /-- Mode A, `B^dis(Rn)` (R113). -/
  | byteDisplacement (n : Gpr) (disp : Byte)
  /-- Specifier byte AF, `B^address` (R123). -/
  | byteRelative (disp : Byte)
  /-- Mode B, `@B^dis(Rn)` (R114). -/
  | byteDisplacementDeferred (n : Gpr) (disp : Byte)
  /-- Specifier byte BF, `@B^address` (R124). -/
  | byteRelativeDeferred (disp : Byte)
  /-- Mode C, `W^dis(Rn)` (R115). -/
  | wordDisplacement (n : Gpr) (disp : BitVec 16)
  /-- Specifier byte CF, `W^address` (R125). -/
  | wordRelative (disp : BitVec 16)
  /-- Mode D, `@W^dis(Rn)` (R116). -/
  | wordDisplacementDeferred (n : Gpr) (disp : BitVec 16)
  /-- Specifier byte DF, `@W^address` (R126). -/
  | wordRelativeDeferred (disp : BitVec 16)
  /-- Mode E, `L^dis(Rn)` (R117). -/
  | longwordDisplacement (n : Gpr) (disp : Word)
  /-- Specifier byte EF, `L^address` (R127). -/
  | longwordRelative (disp : Word)
  /-- Mode F, `@L^dis(Rn)` (R118). -/
  | longwordDisplacementDeferred (n : Gpr) (disp : Word)
  /-- Specifier byte FF, `@L^address` (R128). -/
  | longwordRelativeDeferred (disp : Word)
deriving DecidableEq, Repr

/-- What follows an index byte: a base specifier that designates memory, or the first byte of a specifier that may
not be a base (modes 0 to 5 and the immediate byte 8F), of which nothing more is read (R105). -/
inductive IndexBase where
  | mem (m : MemSpec)
  | forbidden (b : Byte)
deriving DecidableEq, Repr

/-- An operand specifier (R64 to R69). -/
inductive Spec where
  /-- Modes 0 to 3, `S^#literal` (R104). -/
  | literal (lit : BitVec 6)
  /-- Mode 4, `base-mode[Rx]` (R105). -/
  | index (rx : Reg) (base : IndexBase)
  /-- Mode 5, `Rn` (R108). -/
  | register (n : Reg)
  /-- Specifier byte 8F, `I^#literal` (R121): a constant of the operand's size, zero above it. -/
  | immediate (v : BitVec 128)
  /-- Modes 6 to F (R109 to R118, R122 to R128). -/
  | mem (m : MemSpec)
deriving DecidableEq, Repr

/-- The mnemonics of R75, the admitted ones and the named ones. -/
inductive Opcode where
  | movb | movw | movl | movq | movzbw | movzbl | movab | movaw | moval | movaq | pushl | addb2 | addb3
  | addw2 | addw3 | addl2 | addl3 | subb2 | subb3 | subw2 | subw3 | subl2 | subl3 | cmpb | cmpw | cmpl | tstb
  | tstw | tstl | ashl | ashq | clrb | clrw | clrl | clrq | cvtbw | cvtbl | beql | bneq | bleq | bgeq | brb
  | brw | jmp | aobleq | jsb | caseb | casew | casel | calls | callg | ret | addf2 | addf3 | addd2 | addd3
  | subd2 | subd3 | mulf2 | mulf3 | polyf | crc | insque
deriving DecidableEq, Repr

/-- An instruction with its operands in instruction-stream order (R60, R75), one constructor for each row of the opcode
table. The admitted instructions carry their operand specifiers and branch displacement; the named ones (R74) carry
nothing, since nothing after their opcode is read. The rows of the table that are operand specifiers are the last
21 constructors: one specifier by itself, with the access and data type an opcode would give it (R102). -/
inductive Instr where
  /-- `movb src.rb, dst.wb`, opcode 90 (R151). -/
  | movb (src dst : Spec)
  /-- `movw src.rw, dst.ww`, opcode B0 (R152). -/
  | movw (src dst : Spec)
  /-- `movl src.rl, dst.wl`, opcode D0 (R153). -/
  | movl (src dst : Spec)
  /-- `movq src.rq, dst.wq`, opcode 7D (R154). -/
  | movq (src dst : Spec)
  /-- `movzbw src.rb, dst.ww`, opcode 9B (R156). -/
  | movzbw (src dst : Spec)
  /-- `movzbl src.rb, dst.wl`, opcode 9A (R157). -/
  | movzbl (src dst : Spec)
  /-- `movab src.ab, dst.wl`, opcode 9E (R160). -/
  | movab (src dst : Spec)
  /-- `movaw src.aw, dst.wl`, opcode 3E (R161). -/
  | movaw (src dst : Spec)
  /-- `moval src.al, dst.wl`, opcode DE (R162). -/
  | moval (src dst : Spec)
  /-- `movaq src.aq, dst.wl`, opcode 7E (R163). -/
  | movaq (src dst : Spec)
  /-- `pushl src.rl`, opcode DD (R164). -/
  | pushl (src : Spec)
  /-- `addb2 add.rb, sum.mb`, opcode 80 (R171). -/
  | addb2 (add sum : Spec)
  /-- `addb3 add1.rb, add2.rb, sum.wb`, opcode 81 (R172). -/
  | addb3 (add1 add2 sum : Spec)
  /-- `addw2 add.rw, sum.mw`, opcode A0 (R173). -/
  | addw2 (add sum : Spec)
  /-- `addw3 add1.rw, add2.rw, sum.ww`, opcode A1 (R174). -/
  | addw3 (add1 add2 sum : Spec)
  /-- `addl2 add.rl, sum.ml`, opcode C0 (R175). -/
  | addl2 (add sum : Spec)
  /-- `addl3 add1.rl, add2.rl, sum.wl`, opcode C1 (R176). -/
  | addl3 (add1 add2 sum : Spec)
  /-- `subb2 sub.rb, dif.mb`, opcode 82 (R178). -/
  | subb2 (sub dif : Spec)
  /-- `subb3 sub.rb, min.rb, dif.wb`, opcode 83 (R179). -/
  | subb3 (sub min dif : Spec)
  /-- `subw2 sub.rw, dif.mw`, opcode A2 (R180). -/
  | subw2 (sub dif : Spec)
  /-- `subw3 sub.rw, min.rw, dif.ww`, opcode A3 (R181). -/
  | subw3 (sub min dif : Spec)
  /-- `subl2 sub.rl, dif.ml`, opcode C2 (R182). -/
  | subl2 (sub dif : Spec)
  /-- `subl3 sub.rl, min.rl, dif.wl`, opcode C3 (R183). -/
  | subl3 (sub min dif : Spec)
  /-- `cmpb src1.rb, src2.rb`, opcode 91 (R185). -/
  | cmpb (src1 src2 : Spec)
  /-- `cmpw src1.rw, src2.rw`, opcode B1 (R186). -/
  | cmpw (src1 src2 : Spec)
  /-- `cmpl src1.rl, src2.rl`, opcode D1 (R187). -/
  | cmpl (src1 src2 : Spec)
  /-- `tstb src.rb`, opcode 95 (R189). -/
  | tstb (src : Spec)
  /-- `tstw src.rw`, opcode B5 (R190). -/
  | tstw (src : Spec)
  /-- `tstl src.rl`, opcode D5 (R191). -/
  | tstl (src : Spec)
  /-- `ashl cnt.rb, src.rl, dst.wl`, opcode 78 (R193). -/
  | ashl (cnt src dst : Spec)
  /-- `ashq cnt.rb, src.rq, dst.wq`, opcode 79 (R194). -/
  | ashq (cnt src dst : Spec)
  /-- `clrb dst.wb`, opcode 94 (R196). -/
  | clrb (dst : Spec)
  /-- `clrw dst.ww`, opcode B4 (R197). -/
  | clrw (dst : Spec)
  /-- `clrl dst.wl`, opcode D4 (R198). -/
  | clrl (dst : Spec)
  /-- `clrq dst.wq`, opcode 7C (R199). -/
  | clrq (dst : Spec)
  /-- `cvtbw src.rb, dst.ww`, opcode 99 (R201). -/
  | cvtbw (src dst : Spec)
  /-- `cvtbl src.rb, dst.wl`, opcode 98 (R202). -/
  | cvtbl (src dst : Spec)
  /-- `beql displ.bb`, opcode 13 (R211). -/
  | beql (displ : Byte)
  /-- `bneq displ.bb`, opcode 12 (R212). -/
  | bneq (displ : Byte)
  /-- `bleq displ.bb`, opcode 15 (R213). -/
  | bleq (displ : Byte)
  /-- `bgeq displ.bb`, opcode 18 (R214). -/
  | bgeq (displ : Byte)
  /-- `brb displ.bb`, opcode 11 (R215). -/
  | brb (displ : Byte)
  /-- `brw displ.bw`, opcode 31 (R216). -/
  | brw (displ : BitVec 16)
  /-- `jmp dst.ab`, opcode 17 (R217). -/
  | jmp (dst : Spec)
  /-- `aobleq limit.rl, index.ml, displ.bb`, opcode F3 (R218). -/
  | aobleq (limit index : Spec) (displ : Byte)
  /-- `jsb dst.ab`, opcode 16 (R230). -/
  | jsb (dst : Spec)
  /-- `caseb`, opcode 8F (R220). -/
  | caseb
  /-- `casew`, opcode AF (R221). -/
  | casew
  /-- `casel`, opcode CF (R222). -/
  | casel
  /-- `calls`, opcode FB (R231). -/
  | calls
  /-- `callg`, opcode FA (R232). -/
  | callg
  /-- `ret`, opcode 04 (R233). -/
  | ret
  /-- `addf2`, opcode 40 (R241). -/
  | addf2
  /-- `addf3`, opcode 41 (R242). -/
  | addf3
  /-- `addd2`, opcode 60 (R243). -/
  | addd2
  /-- `addd3`, opcode 61 (R244). -/
  | addd3
  /-- `subd2`, opcode 62 (R245). -/
  | subd2
  /-- `subd3`, opcode 63 (R246). -/
  | subd3
  /-- `mulf2`, opcode 44 (R247). -/
  | mulf2
  /-- `mulf3`, opcode 45 (R248). -/
  | mulf3
  /-- `polyf`, opcode 55 (R249). -/
  | polyf
  /-- `crc`, opcode 0B (R250). -/
  | crc
  /-- `insque`, opcode 0E (R251). -/
  | insque
  /-- The operand specifier of R104 by itself. -/
  | specLiteral (acc : Access) (dt : DType) (lit : BitVec 6)
  /-- The operand specifier of R105 by itself. -/
  | specIndex (acc : Access) (dt : DType) (rx : Reg) (base : IndexBase)
  /-- The operand specifier of R108 by itself. -/
  | specRegister (acc : Access) (dt : DType) (n : Reg)
  /-- The operand specifier of R109 by itself. -/
  | specRegisterDeferred (acc : Access) (dt : DType) (n : Reg)
  /-- The operand specifier of R110 by itself. -/
  | specAutodecrement (acc : Access) (dt : DType) (n : Reg)
  /-- The operand specifier of R111 by itself. -/
  | specAutoincrement (acc : Access) (dt : DType) (n : Gpr)
  /-- The operand specifier of R121 by itself. -/
  | specImmediate (acc : Access) (dt : DType) (v : BitVec 128)
  /-- The operand specifier of R112 by itself. -/
  | specAutoincrementDeferred (acc : Access) (dt : DType) (n : Gpr)
  /-- The operand specifier of R122 by itself. -/
  | specAbsolute (acc : Access) (dt : DType) (addr : Word)
  /-- The operand specifier of R113 by itself. -/
  | specByteDisplacement (acc : Access) (dt : DType) (n : Gpr) (disp : Byte)
  /-- The operand specifier of R123 by itself. -/
  | specByteRelative (acc : Access) (dt : DType) (disp : Byte)
  /-- The operand specifier of R114 by itself. -/
  | specByteDisplacementDeferred (acc : Access) (dt : DType) (n : Gpr) (disp : Byte)
  /-- The operand specifier of R124 by itself. -/
  | specByteRelativeDeferred (acc : Access) (dt : DType) (disp : Byte)
  /-- The operand specifier of R115 by itself. -/
  | specWordDisplacement (acc : Access) (dt : DType) (n : Gpr) (disp : BitVec 16)
  /-- The operand specifier of R125 by itself. -/
  | specWordRelative (acc : Access) (dt : DType) (disp : BitVec 16)
  /-- The operand specifier of R116 by itself. -/
  | specWordDisplacementDeferred (acc : Access) (dt : DType) (n : Gpr) (disp : BitVec 16)
  /-- The operand specifier of R126 by itself. -/
  | specWordRelativeDeferred (acc : Access) (dt : DType) (disp : BitVec 16)
  /-- The operand specifier of R117 by itself. -/
  | specLongwordDisplacement (acc : Access) (dt : DType) (n : Gpr) (disp : Word)
  /-- The operand specifier of R127 by itself. -/
  | specLongwordRelative (acc : Access) (dt : DType) (disp : Word)
  /-- The operand specifier of R118 by itself. -/
  | specLongwordDisplacementDeferred (acc : Access) (dt : DType) (n : Gpr) (disp : Word)
  /-- The operand specifier of R128 by itself. -/
  | specLongwordRelativeDeferred (acc : Access) (dt : DType) (disp : Word)
deriving DecidableEq, Repr

/-- The opcode of an instruction; an operand specifier by itself has none. -/
def Instr.opcode? : Instr → Option Opcode
  | .movb _ _ => some .movb
  | .movw _ _ => some .movw
  | .movl _ _ => some .movl
  | .movq _ _ => some .movq
  | .movzbw _ _ => some .movzbw
  | .movzbl _ _ => some .movzbl
  | .movab _ _ => some .movab
  | .movaw _ _ => some .movaw
  | .moval _ _ => some .moval
  | .movaq _ _ => some .movaq
  | .pushl _ => some .pushl
  | .addb2 _ _ => some .addb2
  | .addb3 _ _ _ => some .addb3
  | .addw2 _ _ => some .addw2
  | .addw3 _ _ _ => some .addw3
  | .addl2 _ _ => some .addl2
  | .addl3 _ _ _ => some .addl3
  | .subb2 _ _ => some .subb2
  | .subb3 _ _ _ => some .subb3
  | .subw2 _ _ => some .subw2
  | .subw3 _ _ _ => some .subw3
  | .subl2 _ _ => some .subl2
  | .subl3 _ _ _ => some .subl3
  | .cmpb _ _ => some .cmpb
  | .cmpw _ _ => some .cmpw
  | .cmpl _ _ => some .cmpl
  | .tstb _ => some .tstb
  | .tstw _ => some .tstw
  | .tstl _ => some .tstl
  | .ashl _ _ _ => some .ashl
  | .ashq _ _ _ => some .ashq
  | .clrb _ => some .clrb
  | .clrw _ => some .clrw
  | .clrl _ => some .clrl
  | .clrq _ => some .clrq
  | .cvtbw _ _ => some .cvtbw
  | .cvtbl _ _ => some .cvtbl
  | .beql _ => some .beql
  | .bneq _ => some .bneq
  | .bleq _ => some .bleq
  | .bgeq _ => some .bgeq
  | .brb _ => some .brb
  | .brw _ => some .brw
  | .jmp _ => some .jmp
  | .aobleq _ _ _ => some .aobleq
  | .jsb _ => some .jsb
  | .caseb => some .caseb
  | .casew => some .casew
  | .casel => some .casel
  | .calls => some .calls
  | .callg => some .callg
  | .ret => some .ret
  | .addf2 => some .addf2
  | .addf3 => some .addf3
  | .addd2 => some .addd2
  | .addd3 => some .addd3
  | .subd2 => some .subd2
  | .subd3 => some .subd3
  | .mulf2 => some .mulf2
  | .mulf3 => some .mulf3
  | .polyf => some .polyf
  | .crc => some .crc
  | .insque => some .insque
  | .specLiteral _ _ _ => none
  | .specIndex _ _ _ _ => none
  | .specRegister _ _ _ => none
  | .specRegisterDeferred _ _ _ => none
  | .specAutodecrement _ _ _ => none
  | .specAutoincrement _ _ _ => none
  | .specImmediate _ _ _ => none
  | .specAutoincrementDeferred _ _ _ => none
  | .specAbsolute _ _ _ => none
  | .specByteDisplacement _ _ _ _ => none
  | .specByteRelative _ _ _ => none
  | .specByteDisplacementDeferred _ _ _ _ => none
  | .specByteRelativeDeferred _ _ _ => none
  | .specWordDisplacement _ _ _ _ => none
  | .specWordRelative _ _ _ => none
  | .specWordDisplacementDeferred _ _ _ _ => none
  | .specWordRelativeDeferred _ _ _ => none
  | .specLongwordDisplacement _ _ _ _ => none
  | .specLongwordRelative _ _ _ => none
  | .specLongwordDisplacementDeferred _ _ _ _ => none
  | .specLongwordRelativeDeferred _ _ _ => none

/-- One operand of an instruction: how it is accessed, its data type, and its specifier. -/
structure Operand where
  acc : Access
  dt : DType
  spec : Spec
deriving DecidableEq, Repr

/-- The operand specifiers of an instruction in instruction-stream order, each with the access and data type of the
signature column of R75 (R16). -/
def Instr.operands : Instr → List Operand
  | .movb src dst => [⟨.r, .b, src⟩, ⟨.w, .b, dst⟩]
  | .movw src dst => [⟨.r, .w, src⟩, ⟨.w, .w, dst⟩]
  | .movl src dst => [⟨.r, .l, src⟩, ⟨.w, .l, dst⟩]
  | .movq src dst => [⟨.r, .q, src⟩, ⟨.w, .q, dst⟩]
  | .movzbw src dst => [⟨.r, .b, src⟩, ⟨.w, .w, dst⟩]
  | .movzbl src dst => [⟨.r, .b, src⟩, ⟨.w, .l, dst⟩]
  | .movab src dst => [⟨.a, .b, src⟩, ⟨.w, .l, dst⟩]
  | .movaw src dst => [⟨.a, .w, src⟩, ⟨.w, .l, dst⟩]
  | .moval src dst => [⟨.a, .l, src⟩, ⟨.w, .l, dst⟩]
  | .movaq src dst => [⟨.a, .q, src⟩, ⟨.w, .l, dst⟩]
  | .pushl src => [⟨.r, .l, src⟩]
  | .addb2 add sum => [⟨.r, .b, add⟩, ⟨.m, .b, sum⟩]
  | .addb3 add1 add2 sum => [⟨.r, .b, add1⟩, ⟨.r, .b, add2⟩, ⟨.w, .b, sum⟩]
  | .addw2 add sum => [⟨.r, .w, add⟩, ⟨.m, .w, sum⟩]
  | .addw3 add1 add2 sum => [⟨.r, .w, add1⟩, ⟨.r, .w, add2⟩, ⟨.w, .w, sum⟩]
  | .addl2 add sum => [⟨.r, .l, add⟩, ⟨.m, .l, sum⟩]
  | .addl3 add1 add2 sum => [⟨.r, .l, add1⟩, ⟨.r, .l, add2⟩, ⟨.w, .l, sum⟩]
  | .subb2 sub dif => [⟨.r, .b, sub⟩, ⟨.m, .b, dif⟩]
  | .subb3 sub min dif => [⟨.r, .b, sub⟩, ⟨.r, .b, min⟩, ⟨.w, .b, dif⟩]
  | .subw2 sub dif => [⟨.r, .w, sub⟩, ⟨.m, .w, dif⟩]
  | .subw3 sub min dif => [⟨.r, .w, sub⟩, ⟨.r, .w, min⟩, ⟨.w, .w, dif⟩]
  | .subl2 sub dif => [⟨.r, .l, sub⟩, ⟨.m, .l, dif⟩]
  | .subl3 sub min dif => [⟨.r, .l, sub⟩, ⟨.r, .l, min⟩, ⟨.w, .l, dif⟩]
  | .cmpb src1 src2 => [⟨.r, .b, src1⟩, ⟨.r, .b, src2⟩]
  | .cmpw src1 src2 => [⟨.r, .w, src1⟩, ⟨.r, .w, src2⟩]
  | .cmpl src1 src2 => [⟨.r, .l, src1⟩, ⟨.r, .l, src2⟩]
  | .tstb src => [⟨.r, .b, src⟩]
  | .tstw src => [⟨.r, .w, src⟩]
  | .tstl src => [⟨.r, .l, src⟩]
  | .ashl cnt src dst => [⟨.r, .b, cnt⟩, ⟨.r, .l, src⟩, ⟨.w, .l, dst⟩]
  | .ashq cnt src dst => [⟨.r, .b, cnt⟩, ⟨.r, .q, src⟩, ⟨.w, .q, dst⟩]
  | .clrb dst => [⟨.w, .b, dst⟩]
  | .clrw dst => [⟨.w, .w, dst⟩]
  | .clrl dst => [⟨.w, .l, dst⟩]
  | .clrq dst => [⟨.w, .q, dst⟩]
  | .cvtbw src dst => [⟨.r, .b, src⟩, ⟨.w, .w, dst⟩]
  | .cvtbl src dst => [⟨.r, .b, src⟩, ⟨.w, .l, dst⟩]
  | .beql _ => []
  | .bneq _ => []
  | .bleq _ => []
  | .bgeq _ => []
  | .brb _ => []
  | .brw _ => []
  | .jmp dst => [⟨.a, .b, dst⟩]
  | .aobleq limit index _ => [⟨.r, .l, limit⟩, ⟨.m, .l, index⟩]
  | .jsb dst => [⟨.a, .b, dst⟩]
  | .caseb => []
  | .casew => []
  | .casel => []
  | .calls => []
  | .callg => []
  | .ret => []
  | .addf2 => []
  | .addf3 => []
  | .addd2 => []
  | .addd3 => []
  | .subd2 => []
  | .subd3 => []
  | .mulf2 => []
  | .mulf3 => []
  | .polyf => []
  | .crc => []
  | .insque => []
  | .specLiteral acc dt lit => [⟨acc, dt, .literal lit⟩]
  | .specIndex acc dt rx base => [⟨acc, dt, .index rx base⟩]
  | .specRegister acc dt n => [⟨acc, dt, .register n⟩]
  | .specRegisterDeferred acc dt n => [⟨acc, dt, .mem (.registerDeferred n)⟩]
  | .specAutodecrement acc dt n => [⟨acc, dt, .mem (.autodecrement n)⟩]
  | .specAutoincrement acc dt n => [⟨acc, dt, .mem (.autoincrement n)⟩]
  | .specImmediate acc dt v => [⟨acc, dt, .immediate v⟩]
  | .specAutoincrementDeferred acc dt n => [⟨acc, dt, .mem (.autoincrementDeferred n)⟩]
  | .specAbsolute acc dt addr => [⟨acc, dt, .mem (.absolute addr)⟩]
  | .specByteDisplacement acc dt n disp => [⟨acc, dt, .mem (.byteDisplacement n disp)⟩]
  | .specByteRelative acc dt disp => [⟨acc, dt, .mem (.byteRelative disp)⟩]
  | .specByteDisplacementDeferred acc dt n disp => [⟨acc, dt, .mem (.byteDisplacementDeferred n disp)⟩]
  | .specByteRelativeDeferred acc dt disp => [⟨acc, dt, .mem (.byteRelativeDeferred disp)⟩]
  | .specWordDisplacement acc dt n disp => [⟨acc, dt, .mem (.wordDisplacement n disp)⟩]
  | .specWordRelative acc dt disp => [⟨acc, dt, .mem (.wordRelative disp)⟩]
  | .specWordDisplacementDeferred acc dt n disp => [⟨acc, dt, .mem (.wordDisplacementDeferred n disp)⟩]
  | .specWordRelativeDeferred acc dt disp => [⟨acc, dt, .mem (.wordRelativeDeferred disp)⟩]
  | .specLongwordDisplacement acc dt n disp => [⟨acc, dt, .mem (.longwordDisplacement n disp)⟩]
  | .specLongwordRelative acc dt disp => [⟨acc, dt, .mem (.longwordRelative disp)⟩]
  | .specLongwordDisplacementDeferred acc dt n disp => [⟨acc, dt, .mem (.longwordDisplacementDeferred n disp)⟩]
  | .specLongwordRelativeDeferred acc dt disp => [⟨acc, dt, .mem (.longwordRelativeDeferred disp)⟩]

/-- The number of branch-displacement bytes after the operand specifiers (R72: 1 for `.bb`, 2 for `.bw`). -/
def Instr.branchBytes : Instr → Nat
  | .movb _ _ => 0
  | .movw _ _ => 0
  | .movl _ _ => 0
  | .movq _ _ => 0
  | .movzbw _ _ => 0
  | .movzbl _ _ => 0
  | .movab _ _ => 0
  | .movaw _ _ => 0
  | .moval _ _ => 0
  | .movaq _ _ => 0
  | .pushl _ => 0
  | .addb2 _ _ => 0
  | .addb3 _ _ _ => 0
  | .addw2 _ _ => 0
  | .addw3 _ _ _ => 0
  | .addl2 _ _ => 0
  | .addl3 _ _ _ => 0
  | .subb2 _ _ => 0
  | .subb3 _ _ _ => 0
  | .subw2 _ _ => 0
  | .subw3 _ _ _ => 0
  | .subl2 _ _ => 0
  | .subl3 _ _ _ => 0
  | .cmpb _ _ => 0
  | .cmpw _ _ => 0
  | .cmpl _ _ => 0
  | .tstb _ => 0
  | .tstw _ => 0
  | .tstl _ => 0
  | .ashl _ _ _ => 0
  | .ashq _ _ _ => 0
  | .clrb _ => 0
  | .clrw _ => 0
  | .clrl _ => 0
  | .clrq _ => 0
  | .cvtbw _ _ => 0
  | .cvtbl _ _ => 0
  | .beql _ => 1
  | .bneq _ => 1
  | .bleq _ => 1
  | .bgeq _ => 1
  | .brb _ => 1
  | .brw _ => 2
  | .jmp _ => 0
  | .aobleq _ _ _ => 1
  | .jsb _ => 0
  | .caseb => 0
  | .casew => 0
  | .casel => 0
  | .calls => 0
  | .callg => 0
  | .ret => 0
  | .addf2 => 0
  | .addf3 => 0
  | .addd2 => 0
  | .addd3 => 0
  | .subd2 => 0
  | .subd3 => 0
  | .mulf2 => 0
  | .mulf3 => 0
  | .polyf => 0
  | .crc => 0
  | .insque => 0
  | .specLiteral _ _ _ => 0
  | .specIndex _ _ _ _ => 0
  | .specRegister _ _ _ => 0
  | .specRegisterDeferred _ _ _ => 0
  | .specAutodecrement _ _ _ => 0
  | .specAutoincrement _ _ _ => 0
  | .specImmediate _ _ _ => 0
  | .specAutoincrementDeferred _ _ _ => 0
  | .specAbsolute _ _ _ => 0
  | .specByteDisplacement _ _ _ _ => 0
  | .specByteRelative _ _ _ => 0
  | .specByteDisplacementDeferred _ _ _ _ => 0
  | .specByteRelativeDeferred _ _ _ => 0
  | .specWordDisplacement _ _ _ _ => 0
  | .specWordRelative _ _ _ => 0
  | .specWordDisplacementDeferred _ _ _ _ => 0
  | .specWordRelativeDeferred _ _ _ => 0
  | .specLongwordDisplacement _ _ _ _ => 0
  | .specLongwordRelative _ _ _ => 0
  | .specLongwordDisplacementDeferred _ _ _ _ => 0
  | .specLongwordRelativeDeferred _ _ _ => 0

/-- The mnemonic's assembler spelling (R63, R77: lower case; case is not significant). -/
def Opcode.mnemonic : Opcode → String
  | .movb => "movb"
  | .movw => "movw"
  | .movl => "movl"
  | .movq => "movq"
  | .movzbw => "movzbw"
  | .movzbl => "movzbl"
  | .movab => "movab"
  | .movaw => "movaw"
  | .moval => "moval"
  | .movaq => "movaq"
  | .pushl => "pushl"
  | .addb2 => "addb2"
  | .addb3 => "addb3"
  | .addw2 => "addw2"
  | .addw3 => "addw3"
  | .addl2 => "addl2"
  | .addl3 => "addl3"
  | .subb2 => "subb2"
  | .subb3 => "subb3"
  | .subw2 => "subw2"
  | .subw3 => "subw3"
  | .subl2 => "subl2"
  | .subl3 => "subl3"
  | .cmpb => "cmpb"
  | .cmpw => "cmpw"
  | .cmpl => "cmpl"
  | .tstb => "tstb"
  | .tstw => "tstw"
  | .tstl => "tstl"
  | .ashl => "ashl"
  | .ashq => "ashq"
  | .clrb => "clrb"
  | .clrw => "clrw"
  | .clrl => "clrl"
  | .clrq => "clrq"
  | .cvtbw => "cvtbw"
  | .cvtbl => "cvtbl"
  | .beql => "beql"
  | .bneq => "bneq"
  | .bleq => "bleq"
  | .bgeq => "bgeq"
  | .brb => "brb"
  | .brw => "brw"
  | .jmp => "jmp"
  | .aobleq => "aobleq"
  | .jsb => "jsb"
  | .caseb => "caseb"
  | .casew => "casew"
  | .casel => "casel"
  | .calls => "calls"
  | .callg => "callg"
  | .ret => "ret"
  | .addf2 => "addf2"
  | .addf3 => "addf3"
  | .addd2 => "addd2"
  | .addd3 => "addd3"
  | .subd2 => "subd2"
  | .subd3 => "subd3"
  | .mulf2 => "mulf2"
  | .mulf3 => "mulf3"
  | .polyf => "polyf"
  | .crc => "crc"
  | .insque => "insque"

/-- The opcodes R74 admits; the others are named, and refused. -/
def Opcode.isAdmitted : Opcode → Bool
  | .caseb | .casew | .casel | .calls | .callg | .ret | .addf2 | .addf3 | .addd2
  | .addd3 | .subd2 | .subd3 | .mulf2 | .mulf3 | .polyf | .crc | .insque => false
  | .movb | .movw | .movl | .movq | .movzbw | .movzbl | .movab | .movaw | .moval | .movaq
  | .pushl | .addb2 | .addb3 | .addw2 | .addw3 | .addl2 | .addl3 | .subb2 | .subb3 | .subw2
  | .subw3 | .subl2 | .subl3 | .cmpb | .cmpw | .cmpl | .tstb | .tstw | .tstl | .ashl
  | .ashq | .clrb | .clrw | .clrl | .clrq | .cvtbw | .cvtbl | .beql | .bneq | .bleq
  | .bgeq | .brb | .brw | .jmp | .aobleq | .jsb => true

end Sys2Proof
end

