-- ==== Sys2Proof/Config.lean ====
section
/-! DEFINITION. What a launch fixes and no step changes: the parameters of R7 and R32. The spec leaves each of them
open; nothing here is chosen (the values at reset are in `Machine/State.lean`). No item of this spec is an unstated
value (93_implementation_defined.md: "No item is treated as 'any value'"), so there is no opaque constant here. -/

namespace Sys2Proof

/-- How a short literal with its high bit set is extended (R7, R104; decision D7). -/
inductive ShortLiteralExt where
  | signed | unsigned | undecided
deriving DecidableEq, Repr

/-- The addresses from `lo` up to, and not including, `hi`. -/
structure AddrRange where
  lo : Nat
  hi : Nat
deriving DecidableEq, Repr

/-- A predicate on 32-bit addresses, as a list of ranges: the form in which `Readable`, `Writable` and `CodeRegion` of
R7 are plain data. Every predicate on the finite address space is such a list. -/
abbrev Region := List AddrRange

/-- Whether an address lies in a region. -/
def Region.contains (r : Region) (a : Word) : Bool :=
  r.any fun x => decide (x.lo ≤ a.toNat) && decide (a.toNat < x.hi)

/-- The opcode map (R74): an opcode byte's mnemonic, whose signature and status R75 fixes. A byte that is not listed is
`Unknown`; the first entry for a byte counts. -/
abbrev OpcodeMap := List (Byte × Opcode)

/-- The parameters of the step relation (R7, R32). -/
structure Params where
  /-- `SHORT_LITERAL_EXT` (D7). -/
  shortLiteralExt : ShortLiteralExt
  /-- `STRICT_REG_HAZARD` (D10). -/
  strictRegHazard : Bool
  /-- `Readable` (D5). -/
  readable : Region
  /-- `Writable` (D5). -/
  writable : Region
  /-- `CodeRegion` (D20). -/
  codeRegion : Region
  /-- `END_PC` (D19). -/
  endPC : Word
  /-- `OpcodeMap` (D24). -/
  opcodeMap : OpcodeMap
deriving DecidableEq, Repr

end Sys2Proof
end

