-- ==== Sys2Proof/WellFormed.lean ====
section
/-! DEFINITION. Which terms of the syntax are the reading of some bytes: an instruction is well formed when every operand
specifier is. Whether a specifier is legal for its access is no matter of form: the machine meets the illegal ones and
R132 says what it does. -/

namespace Sys2Proof

/-- What may not be an index base: the bytes of modes 0 to 5, and the immediate byte 8F (R105). -/
def IndexBase.wf : IndexBase → Bool
  | .mem _ => true
  | .forbidden b => decide (b.toNat < 0x60) || b == 0x8F#8

/-- An immediate fits the operand's data type, whose size it takes in the instruction stream (R68, R121). -/
def Spec.wf (t : DType) : Spec → Bool
  | .literal _ => true
  | .index _ base => base.wf
  | .register _ => true
  | .immediate v => decide (v.toNat < 2 ^ t.bits)
  | .mem _ => true

/-- Every operand specifier of the instruction is well formed for its data type. -/
def Instr.wf (i : Instr) : Bool :=
  i.operands.all fun o => o.spec.wf o.dt

end Sys2Proof
end

