-- ==== Sys2Proof/Decode.lean ====
section
/-! DEFINITION. From bytes to instructions and back (30_encoding.md). The decoder is total: an opcode byte that the map
does not list, and a two-byte opcode, are rejected by name (R62, R74). A byte past the end of the list it is given reads
as 0; whether a byte may be fetched at all is the machine's to check (R14). -/

namespace Sys2Proof

/-! ## Bytes and little-endian values (R45) -/

/-- The `n` bytes of a value, the least significant first. -/
def leBytes : Nat → Nat → List Byte
  | 0, _ => []
  | n + 1, v => BitVec.ofNat 8 v :: leBytes n (v / 256)

/-- The value of bytes whose first is the least significant. -/
def leNat : List Byte → Nat
  | [] => 0
  | b :: bs => b.toNat + 256 * leNat bs

/-- The next byte of the instruction stream, and what follows it. -/
def takeByte : List Byte → Byte × List Byte
  | [] => (0, [])
  | b :: bs => (b, bs)

/-- The next `n` bytes as one value, least significant byte first, and what follows them (R45, R68). -/
def takeLE : Nat → List Byte → Nat × List Byte
  | 0, bs => (0, bs)
  | n + 1, bs =>
    let (b, bs) := takeByte bs
    let (v, bs) := takeLE n bs
    (b.toNat + 256 * v, bs)

/-! ## Operand specifiers (R65 to R69) -/

/-- The mode field, bits 7:4 of a specifier byte (R65). -/
def modeField (s : Byte) : Nat := s.toNat / 16

/-- The register field, bits 3:0 of a specifier byte (R65). -/
def regField (s : Byte) : Reg := Fin.ofNat 16 s.toNat

/-- The register field when it is not 15. -/
def gprField (s : Byte) : Option Gpr :=
  if h : s.toNat % 16 < 15 then some ⟨s.toNat % 16, h⟩ else none

/-- The specifier byte of a mode and a register (R65). -/
def specByte (mode n : Nat) : Byte := BitVec.ofNat 8 (16 * mode + n)

/-- A displacement mode: register `n` of `r0` to `r14`, or the program-counter mode beside it (R66, R67), with a
displacement of `bytes` bytes. -/
def decodeDisp (w bytes : Nat) (s : Byte) (bs : List Byte) (disp : Gpr → BitVec w → MemSpec) (rel : BitVec w → MemSpec) :
    MemSpec × List Byte :=
  let (v, bs) := takeLE bytes bs
  match gprField s with
  | some n => (disp n (BitVec.ofNat w v), bs)
  | none => (rel (BitVec.ofNat w v), bs)

/-- A specifier of modes 6 to F with specifier byte `s`, and what follows it; `none` for a specifier byte of modes 0 to 5
and for the immediate byte 8F (R66, R67). -/
def decodeMem (s : Byte) (bs : List Byte) : Option (MemSpec × List Byte) :=
  match modeField s with
  | 6 => some (.registerDeferred (regField s), bs)
  | 7 => some (.autodecrement (regField s), bs)
  | 8 => (gprField s).map fun n => (.autoincrement n, bs)
  | 9 =>
    match gprField s with
    | some n => some (.autoincrementDeferred n, bs)
    | none =>
      let (v, bs) := takeLE 4 bs
      some (.absolute (BitVec.ofNat 32 v), bs)
  | 10 => some (decodeDisp 8 1 s bs .byteDisplacement .byteRelative)
  | 11 => some (decodeDisp 8 1 s bs .byteDisplacementDeferred .byteRelativeDeferred)
  | 12 => some (decodeDisp 16 2 s bs .wordDisplacement .wordRelative)
  | 13 => some (decodeDisp 16 2 s bs .wordDisplacementDeferred .wordRelativeDeferred)
  | 14 => some (decodeDisp 32 4 s bs .longwordDisplacement .longwordRelative)
  | 15 => some (decodeDisp 32 4 s bs .longwordDisplacementDeferred .longwordRelativeDeferred)
  | _ => none

/-- What follows an index byte (R69, R105). -/
def decodeIndexBase (bs : List Byte) : IndexBase × List Byte :=
  let (b, bs) := takeByte bs
  match decodeMem b bs with
  | some (m, bs) => (.mem m, bs)
  | none => (.forbidden b, bs)

/-- One operand specifier of a data type, and what follows it (R64 to R69). -/
def decodeSpec (t : DType) (bs : List Byte) : Spec × List Byte :=
  let (s, bs) := takeByte bs
  match decodeMem s bs with
  | some (m, bs) => (.mem m, bs)
  | none =>
    match modeField s with
    | 4 =>
      let (base, bs) := decodeIndexBase bs
      (.index (regField s) base, bs)
    | 5 => (.register (regField s), bs)
    | 8 =>
      let (v, bs) := takeLE t.size bs
      (.immediate (BitVec.ofNat 128 v), bs)
    | _ => (.literal (BitVec.ofNat 6 s.toNat), bs)

/-! ## The opcode map (R74, R75) -/

/-- The default opcode map, column 1 of R75. -/
def Opcode.byte : Opcode → Byte
  | .movb => 0x90#8
  | .movw => 0xB0#8
  | .movl => 0xD0#8
  | .movq => 0x7D#8
  | .movzbw => 0x9B#8
  | .movzbl => 0x9A#8
  | .movab => 0x9E#8
  | .movaw => 0x3E#8
  | .moval => 0xDE#8
  | .movaq => 0x7E#8
  | .pushl => 0xDD#8
  | .addb2 => 0x80#8
  | .addb3 => 0x81#8
  | .addw2 => 0xA0#8
  | .addw3 => 0xA1#8
  | .addl2 => 0xC0#8
  | .addl3 => 0xC1#8
  | .subb2 => 0x82#8
  | .subb3 => 0x83#8
  | .subw2 => 0xA2#8
  | .subw3 => 0xA3#8
  | .subl2 => 0xC2#8
  | .subl3 => 0xC3#8
  | .cmpb => 0x91#8
  | .cmpw => 0xB1#8
  | .cmpl => 0xD1#8
  | .tstb => 0x95#8
  | .tstw => 0xB5#8
  | .tstl => 0xD5#8
  | .ashl => 0x78#8
  | .ashq => 0x79#8
  | .clrb => 0x94#8
  | .clrw => 0xB4#8
  | .clrl => 0xD4#8
  | .clrq => 0x7C#8
  | .cvtbw => 0x99#8
  | .cvtbl => 0x98#8
  | .beql => 0x13#8
  | .bneq => 0x12#8
  | .bleq => 0x15#8
  | .bgeq => 0x18#8
  | .brb => 0x11#8
  | .brw => 0x31#8
  | .jmp => 0x17#8
  | .aobleq => 0xF3#8
  | .jsb => 0x16#8
  | .caseb => 0x8F#8
  | .casew => 0xAF#8
  | .casel => 0xCF#8
  | .calls => 0xFB#8
  | .callg => 0xFA#8
  | .ret => 0x04#8
  | .addf2 => 0x40#8
  | .addf3 => 0x41#8
  | .addd2 => 0x60#8
  | .addd3 => 0x61#8
  | .subd2 => 0x62#8
  | .subd3 => 0x63#8
  | .mulf2 => 0x44#8
  | .mulf3 => 0x45#8
  | .polyf => 0x55#8
  | .crc => 0x0B#8
  | .insque => 0x0E#8

/-- Every opcode of R75. -/
def allOpcodes : List Opcode := [
  .movb, .movw, .movl, .movq, .movzbw, .movzbl, .movab, .movaw, .moval, .movaq, .pushl, .addb2, .addb3, .addw2,
  .addw3, .addl2, .addl3, .subb2, .subb3, .subw2, .subw3, .subl2, .subl3, .cmpb, .cmpw, .cmpl, .tstb, .tstw,
  .tstl, .ashl, .ashq, .clrb, .clrw, .clrl, .clrq, .cvtbw, .cvtbl, .beql, .bneq, .bleq, .bgeq, .brb, .brw, .jmp,
  .aobleq, .jsb, .caseb, .casew, .casel, .calls, .callg, .ret, .addf2, .addf3, .addd2, .addd3, .subd2, .subd3,
  .mulf2, .mulf3, .polyf, .crc, .insque]

/-- The default opcode map (R75). -/
def defaultOpcodeMap : OpcodeMap := allOpcodes.map fun op => (op.byte, op)

/-- What the map says of an opcode byte: `none` is `Unknown` (R74). -/
def OpcodeMap.lookup : OpcodeMap → Byte → Option Opcode
  | [], _ => none
  | (b, op) :: m, a => if a = b then some op else OpcodeMap.lookup m a

/-- The first bytes that announce a two-byte opcode (R62). -/
def isEscape (op : Byte) : Bool := op == 0xFD#8 || op == 0xFE#8 || op == 0xFF#8

/-! ## Instructions (R60, R71, R72) -/

/-- One operand specifier of type `t`, then the instruction. -/
def decode1 (t : DType) (mk : Spec → Instr) (bs : List Byte) : Instr × List Byte :=
  let (x, bs) := decodeSpec t bs
  (mk x, bs)

/-- Two operand specifiers, then the instruction. -/
def decode2 (t u : DType) (mk : Spec → Spec → Instr) (bs : List Byte) : Instr × List Byte :=
  let (x, bs) := decodeSpec t bs
  decode1 u (mk x) bs

/-- Three operand specifiers, then the instruction. -/
def decode3 (t u v : DType) (mk : Spec → Spec → Spec → Instr) (bs : List Byte) : Instr × List Byte :=
  let (x, bs) := decodeSpec t bs
  decode2 u v (mk x) bs

/-- A branch displacement of one byte, then the instruction (R72). -/
def decodeB (mk : Byte → Instr) (bs : List Byte) : Instr × List Byte :=
  let (v, bs) := takeLE 1 bs
  (mk (BitVec.ofNat 8 v), bs)

/-- A branch displacement of two bytes, then the instruction (R72). -/
def decodeW (mk : BitVec 16 → Instr) (bs : List Byte) : Instr × List Byte :=
  let (v, bs) := takeLE 2 bs
  (mk (BitVec.ofNat 16 v), bs)

/-- Two operand specifiers and a branch displacement of one byte, then the instruction (R218). -/
def decode2B (t u : DType) (mk : Spec → Spec → Byte → Instr) (bs : List Byte) : Instr × List Byte :=
  let (x, bs) := decodeSpec t bs
  let (y, bs) := decodeSpec u bs
  decodeB (mk x y) bs

/-- What follows an opcode, by its signature in R75, and what follows the instruction. Nothing is read after the opcode
of a named instruction (R74). -/
def decodeBody : Opcode → List Byte → Instr × List Byte
  | .movb => decode2 .b .b .movb
  | .movw => decode2 .w .w .movw
  | .movl => decode2 .l .l .movl
  | .movq => decode2 .q .q .movq
  | .movzbw => decode2 .b .w .movzbw
  | .movzbl => decode2 .b .l .movzbl
  | .movab => decode2 .b .l .movab
  | .movaw => decode2 .w .l .movaw
  | .moval => decode2 .l .l .moval
  | .movaq => decode2 .q .l .movaq
  | .pushl => decode1 .l .pushl
  | .addb2 => decode2 .b .b .addb2
  | .addb3 => decode3 .b .b .b .addb3
  | .addw2 => decode2 .w .w .addw2
  | .addw3 => decode3 .w .w .w .addw3
  | .addl2 => decode2 .l .l .addl2
  | .addl3 => decode3 .l .l .l .addl3
  | .subb2 => decode2 .b .b .subb2
  | .subb3 => decode3 .b .b .b .subb3
  | .subw2 => decode2 .w .w .subw2
  | .subw3 => decode3 .w .w .w .subw3
  | .subl2 => decode2 .l .l .subl2
  | .subl3 => decode3 .l .l .l .subl3
  | .cmpb => decode2 .b .b .cmpb
  | .cmpw => decode2 .w .w .cmpw
  | .cmpl => decode2 .l .l .cmpl
  | .tstb => decode1 .b .tstb
  | .tstw => decode1 .w .tstw
  | .tstl => decode1 .l .tstl
  | .ashl => decode3 .b .l .l .ashl
  | .ashq => decode3 .b .q .q .ashq
  | .clrb => decode1 .b .clrb
  | .clrw => decode1 .w .clrw
  | .clrl => decode1 .l .clrl
  | .clrq => decode1 .q .clrq
  | .cvtbw => decode2 .b .w .cvtbw
  | .cvtbl => decode2 .b .l .cvtbl
  | .beql => decodeB .beql
  | .bneq => decodeB .bneq
  | .bleq => decodeB .bleq
  | .bgeq => decodeB .bgeq
  | .brb => decodeB .brb
  | .brw => decodeW .brw
  | .jmp => decode1 .b .jmp
  | .aobleq => decode2B .l .l .aobleq
  | .jsb => decode1 .b .jsb
  | .caseb => fun bs => (.caseb, bs)
  | .casew => fun bs => (.casew, bs)
  | .casel => fun bs => (.casel, bs)
  | .calls => fun bs => (.calls, bs)
  | .callg => fun bs => (.callg, bs)
  | .ret => fun bs => (.ret, bs)
  | .addf2 => fun bs => (.addf2, bs)
  | .addf3 => fun bs => (.addf3, bs)
  | .addd2 => fun bs => (.addd2, bs)
  | .addd3 => fun bs => (.addd3, bs)
  | .subd2 => fun bs => (.subd2, bs)
  | .subd3 => fun bs => (.subd3, bs)
  | .mulf2 => fun bs => (.mulf2, bs)
  | .mulf3 => fun bs => (.mulf3, bs)
  | .polyf => fun bs => (.polyf, bs)
  | .crc => fun bs => (.crc, bs)
  | .insque => fun bs => (.insque, bs)

/-- What an opcode fetch finds (R62, R74): an instruction, or a rejection by name with the opcode byte or bytes. -/
inductive Decoded where
  /-- The map lists the opcode, admitted or named. -/
  | instr (i : Instr)
  /-- The map does not list the opcode byte. -/
  | unknown (op : Byte)
  /-- The first byte announces a two-byte opcode. -/
  | twoByte (op op2 : Byte)
deriving DecidableEq, Repr

/-- The decoder: an opcode byte, then what its signature says (R60, R62, R74). The escape bytes come before the map
(R294). -/
def decode (m : OpcodeMap) (bs : List Byte) : Decoded :=
  let (op, bs) := takeByte bs
  if isEscape op then .twoByte op (takeByte bs).1
  else
    match m.lookup op with
    | some x => .instr (decodeBody x bs).1
    | none => .unknown op

/-- How many bytes the machine gives its decoder: no instruction is longer (`Laws.EncodeLength`). -/
def fetchWindow : Nat := 32

/-- The instruction the decoder reads, with the default opcode map, from an instruction whose bits are `w` and whose
further bits are 0. -/
def decodeTableWord (nbits w : Nat) : Option Instr :=
  match decode defaultOpcodeMap (leBytes fetchWindow (w % 2 ^ nbits)) with
  | .instr i => some i
  | .unknown _ => none
  | .twoByte _ _ => none

/-! ## The encoder -/

/-- The bytes of a specifier of modes 6 to F (R66 to R68). -/
def encodeMem : MemSpec → List Byte
  | .registerDeferred n => [specByte 6 n.val]
  | .autodecrement n => [specByte 7 n.val]
  | .autoincrement n => [specByte 8 n.val]
  | .autoincrementDeferred n => [specByte 9 n.val]
  | .absolute addr => specByte 9 15 :: leBytes 4 addr.toNat
  | .byteDisplacement n disp => specByte 10 n.val :: leBytes 1 disp.toNat
  | .byteRelative disp => specByte 10 15 :: leBytes 1 disp.toNat
  | .byteDisplacementDeferred n disp => specByte 11 n.val :: leBytes 1 disp.toNat
  | .byteRelativeDeferred disp => specByte 11 15 :: leBytes 1 disp.toNat
  | .wordDisplacement n disp => specByte 12 n.val :: leBytes 2 disp.toNat
  | .wordRelative disp => specByte 12 15 :: leBytes 2 disp.toNat
  | .wordDisplacementDeferred n disp => specByte 13 n.val :: leBytes 2 disp.toNat
  | .wordRelativeDeferred disp => specByte 13 15 :: leBytes 2 disp.toNat
  | .longwordDisplacement n disp => specByte 14 n.val :: leBytes 4 disp.toNat
  | .longwordRelative disp => specByte 14 15 :: leBytes 4 disp.toNat
  | .longwordDisplacementDeferred n disp => specByte 15 n.val :: leBytes 4 disp.toNat
  | .longwordRelativeDeferred disp => specByte 15 15 :: leBytes 4 disp.toNat

/-- The bytes that follow an index byte (R69). -/
def encodeIndexBase : IndexBase → List Byte
  | .mem m => encodeMem m
  | .forbidden b => [b]

/-- The bytes of an operand specifier of a data type (R65 to R69). -/
def encodeSpec (t : DType) : Spec → List Byte
  | .literal lit => [specByte 0 lit.toNat]
  | .index rx base => specByte 4 rx.val :: encodeIndexBase base
  | .register n => [specByte 5 n.val]
  | .immediate v => specByte 8 15 :: leBytes t.size v.toNat
  | .mem m => encodeMem m

/-- The first byte of an operand specifier, which a reserved addressing mode fault records (R263). -/
def Spec.firstByte (t : DType) (x : Spec) : Byte := (takeByte (encodeSpec t x)).1

/-- The branch displacement's bytes (R72). -/
def encodeBranch : Instr → List Byte
  | .movb _ _ => []
  | .movw _ _ => []
  | .movl _ _ => []
  | .movq _ _ => []
  | .movzbw _ _ => []
  | .movzbl _ _ => []
  | .movab _ _ => []
  | .movaw _ _ => []
  | .moval _ _ => []
  | .movaq _ _ => []
  | .pushl _ => []
  | .addb2 _ _ => []
  | .addb3 _ _ _ => []
  | .addw2 _ _ => []
  | .addw3 _ _ _ => []
  | .addl2 _ _ => []
  | .addl3 _ _ _ => []
  | .subb2 _ _ => []
  | .subb3 _ _ _ => []
  | .subw2 _ _ => []
  | .subw3 _ _ _ => []
  | .subl2 _ _ => []
  | .subl3 _ _ _ => []
  | .cmpb _ _ => []
  | .cmpw _ _ => []
  | .cmpl _ _ => []
  | .tstb _ => []
  | .tstw _ => []
  | .tstl _ => []
  | .ashl _ _ _ => []
  | .ashq _ _ _ => []
  | .clrb _ => []
  | .clrw _ => []
  | .clrl _ => []
  | .clrq _ => []
  | .cvtbw _ _ => []
  | .cvtbl _ _ => []
  | .beql displ => leBytes 1 displ.toNat
  | .bneq displ => leBytes 1 displ.toNat
  | .bleq displ => leBytes 1 displ.toNat
  | .bgeq displ => leBytes 1 displ.toNat
  | .brb displ => leBytes 1 displ.toNat
  | .brw displ => leBytes 2 displ.toNat
  | .jmp _ => []
  | .aobleq _ _ displ => leBytes 1 displ.toNat
  | .jsb _ => []
  | .caseb => []
  | .casew => []
  | .casel => []
  | .calls => []
  | .callg => []
  | .ret => []
  | .addf2 => []
  | .addf3 => []
  | .addd2 => []
  | .addd3 => []
  | .subd2 => []
  | .subd3 => []
  | .mulf2 => []
  | .mulf3 => []
  | .polyf => []
  | .crc => []
  | .insque => []
  | .specLiteral _ _ _ => []
  | .specIndex _ _ _ _ => []
  | .specRegister _ _ _ => []
  | .specRegisterDeferred _ _ _ => []
  | .specAutodecrement _ _ _ => []
  | .specAutoincrement _ _ _ => []
  | .specImmediate _ _ _ => []
  | .specAutoincrementDeferred _ _ _ => []
  | .specAbsolute _ _ _ => []
  | .specByteDisplacement _ _ _ _ => []
  | .specByteRelative _ _ _ => []
  | .specByteDisplacementDeferred _ _ _ _ => []
  | .specByteRelativeDeferred _ _ _ => []
  | .specWordDisplacement _ _ _ _ => []
  | .specWordRelative _ _ _ => []
  | .specWordDisplacementDeferred _ _ _ _ => []
  | .specWordRelativeDeferred _ _ _ => []
  | .specLongwordDisplacement _ _ _ _ => []
  | .specLongwordRelative _ _ _ => []
  | .specLongwordDisplacementDeferred _ _ _ _ => []
  | .specLongwordRelativeDeferred _ _ _ => []

/-- The bytes of an instruction under the default opcode map: the opcode, the operand specifiers, the branch
displacement (R60). An operand specifier by itself has no opcode byte. -/
def encode (i : Instr) : List Byte :=
  (i.opcode?.map Opcode.byte).toList ++ (i.operands.flatMap fun o => encodeSpec o.dt o.spec) ++ encodeBranch i

/-- The length of an operand specifier by its first bytes (R70). An index whose base is an index again is counted as
deep as the list goes. -/
def specLen (t : DType) : List Byte → Nat
  | [] => 0
  | s :: rest =>
    match modeField s with
    | 4 => 1 + specLen t rest
    | 8 => if s.toNat % 16 = 15 then 1 + t.size else 1
    | 9 => if s.toNat % 16 = 15 then 5 else 1
    | 10 | 11 => 2
    | 12 | 13 => 3
    | 14 | 15 => 5
    | _ => 1

end Sys2Proof
end

