-- ==== Sys2Proof/Machine/State.lean ====
section
/-! DEFINITION. The state of the machine (10_state.md), its launch and reset (R33, R290, R291), and how a step may stop
(R260 to R264). -/

namespace Sys2Proof.Machine

open Sys2Proof

/-- The four condition codes (R26), or one Boolean for each of them. -/
structure CondCodes where
  n : Bool
  z : Bool
  v : Bool
  c : Bool
deriving DecidableEq, Repr

/-- The name of a condition code (R26). -/
inductive Flag where
  | n | z | v | c
deriving DecidableEq, Repr

/-- Memory, the map of R30 and R40, as the (address, byte) pairs that differ from what an unlisted address reads as, at
strictly rising addresses. Its operations are in `Machine/Ops.lean`. -/
abbrev Memory := List Host.Cell

/-- The state of the machine: the registers, condition codes and memory of 10_state.md, the overflow-trap enable, which
registers and flags hold a value (R34), and the launch's parameters (R32), which no step changes. -/
structure State where
  /-- The general registers `r0` to `r15`; `r15` is the program counter (R20, R24). -/
  regs : Vector Word 16
  /-- Which registers hold a value: one the launch supplied or an instruction wrote (R34). The program counter's entry
  is not looked at, since a launch must supply it (R33). -/
  regWritten : Vector Bool 16
  /-- The condition codes `N Z V C` (R26). -/
  cc : CondCodes
  /-- Which condition codes hold a value (R34). -/
  ccWritten : CondCodes
  /-- `IV`, the integer-overflow trap enable (R29). -/
  iv : Bool
  /-- The contents of memory (R30, R40). -/
  mem : Memory
  /-- The parameters of the step relation (R32). -/
  params : Params
deriving DecidableEq, Repr

/-- The direction of a memory access, as a fault records it (R263). -/
inductive AccessKind where
  | read | write
deriving DecidableEq, Repr

/-- A register or flag that holds no value (R34). -/
inductive Unwritten where
  | reg (n : Reg)
  | flag (f : Flag)
deriving DecidableEq, Repr

/-- The closed list of faults (R263). A fault ends the run and exposes no state (R260 to R262). Each is safe: nothing is
provable past it. -/
inductive Fault where
  /-- Raised by an operand specifier the architecture forbids (R104, R105, R108, R130, R132), with the offending
  specifier byte. Safe. -/
  | reservedAddressingMode (s : Byte)
  /-- Raised by a read where `Readable`, or a write where `Writable`, does not hold, with the first such address (R42,
  R43). Safe. -/
  | accessViolation (addr : Word) (kind : AccessKind)
  /-- Raised when `IV` is set and the instruction set `V`, after it has completed (R170, R177, R192, R218). Safe. -/
  | integerOverflow
  /-- Raised by reading a register or flag that the launch did not supply and no instruction has written (R34). It cannot
  occur in a run from `State.reset`, whose launch supplies every register and flag. Safe. -/
  | unwrittenRead (which : Unwritten)
deriving DecidableEq, Repr

/-- The closed list of refusals (R264), each a form to which the spec gives no meaning, and the rejection of an
instruction that has none yet. A refusal ends the run and exposes no state (R260 to R262). Each is safe. -/
inductive Refusal where
  /-- Raised by `exec` for an instruction that has no meaning yet. No arm uses it. Safe. -/
  | notModelled (mnemonic : String)
  /-- Raised by `step` for an opcode byte that is `Unknown` in the map, and for a two-byte opcode with its second byte
  (R62, R74). Safe. -/
  | opcodeNotInMap (op : Byte) (second : Option Byte)
  /-- Raised by an instruction the source names and gives no meaning to (R74, R219 to R222, R231 to R233, R241 to R251).
  Safe. -/
  | unmodelled (op : Opcode)
  /-- Raised by a short literal 20 to 3F while `SHORT_LITERAL_EXT` is undecided, with the specifier byte (R104). Safe. -/
  | shortLiteralHighBit (s : Byte)
  /-- Raised by a short literal for a floating-point operand (R104). Safe. -/
  | floatLiteral
  /-- Raised by an index whose base is an immediate (R105). Safe. -/
  | unpredictableIndexedImmediate
  /-- Raised by an index whose register its base steps (R105, R107). Safe. -/
  | unpredictableIndexBaseSame
  /-- Raised by specifier byte 5F (R108, R130). Safe. -/
  | unpredictablePCRegisterMode
  /-- Raised by specifier byte 6F (R109, R130). Safe. -/
  | unpredictablePCDeferred
  /-- Raised by specifier byte 7F (R110, R130). Safe. -/
  | unpredictablePCAutodecrement
  /-- Raised by a register operand of 8 or 16 bytes that would reach `r15` (R23, R108). Safe. -/
  | unpredictableRegisterPair
  /-- Raised by an immediate with write, modify or address access (R121, R132). Safe. -/
  | unpredictableImmediateDestination
  /-- Raised by an instruction that uses a register in register mode and steps it in another specifier, with the
  register (R134). Safe. -/
  | registerHazard (k : Reg)
  /-- Raised by a write into `CodeRegion`, with the address (R43). Safe. -/
  | storeIntoCode (addr : Word)
  /-- Raised by an instruction-stream fetch outside `CodeRegion`, with the address (R14, R49). Safe. -/
  | fetchOutsideCode (addr : Word)
deriving DecidableEq, Repr

/-- How a step ends abnormally (R15, R260). -/
inductive Stop where
  | fault (f : Fault)
  | refuse (r : Refusal)
deriving DecidableEq, Repr

/-- A launch (R291): what a run of the machine starts from. -/
structure Launch where
  /-- `InitRegs` for `r0` to `r14`; a register it gives no value is unwritten. -/
  initRegs : Vector (Option Word) 15
  /-- `InitRegs[15]`, the entry point, which a launch must give. -/
  entry : Word
  /-- `InitFlags`. -/
  initN : Option Bool
  initZ : Option Bool
  initV : Option Bool
  initC : Option Bool
  iv : Bool
  /-- `Mem0`. -/
  mem0 : Memory
  params : Params
deriving DecidableEq, Repr

/-- The well-formedness of a launch that R291 (a) asks for: code is readable. -/
def Launch.CodeReadable (l : Launch) : Prop :=
  ∀ a : Word, l.params.codeRegion.contains a = true → l.params.readable.contains a = true

/-- What a launch supplies for a register other than the program counter. -/
def Launch.initReg (l : Launch) (n : Gpr) : Option Word := l.initRegs[n.val]

/-- The state a launch starts from (R33, R291). What is not supplied is unwritten (R34); the number it holds is never
read. -/
def State.ofLaunch (l : Launch) : State where
  regs := #v[value (l.initReg 0), value (l.initReg 1), value (l.initReg 2), value (l.initReg 3), value (l.initReg 4),
    value (l.initReg 5), value (l.initReg 6), value (l.initReg 7), value (l.initReg 8), value (l.initReg 9),
    value (l.initReg 10), value (l.initReg 11), value (l.initReg 12), value (l.initReg 13), value (l.initReg 14), l.entry]
  regWritten := #v[(l.initReg 0).isSome, (l.initReg 1).isSome, (l.initReg 2).isSome, (l.initReg 3).isSome,
    (l.initReg 4).isSome, (l.initReg 5).isSome, (l.initReg 6).isSome, (l.initReg 7).isSome, (l.initReg 8).isSome,
    (l.initReg 9).isSome, (l.initReg 10).isSome, (l.initReg 11).isSome, (l.initReg 12).isSome, (l.initReg 13).isSome,
    (l.initReg 14).isSome, true]
  cc := ⟨l.initN.getD false, l.initZ.getD false, l.initV.getD false, l.initC.getD false⟩
  ccWritten := ⟨l.initN.isSome, l.initZ.isSome, l.initV.isSome, l.initC.isSome⟩
  iv := l.iv
  mem := l.mem0
  params := l.params
where
  value (x : Option Word) : Word := x.getD 0

/-- The whole address space (R40). -/
def wholeSpace : Region := [⟨0, addressCount⟩]

/-- The parameters at reset: the defaults of R7 where it gives one. DESIGN CHOICE (log 3): it gives none for the memory
map, the code region and `END_PC`; here all of memory is readable and writable, no byte is code until a program is
loaded, and the run ends at FFFFFFFF. -/
def resetParams : Params where
  shortLiteralExt := .undecided
  strictRegHazard := true
  readable := wholeSpace
  writable := wholeSpace
  codeRegion := []
  endPC := 0xFFFFFFFF
  opcodeMap := defaultOpcodeMap

/-- The launch that stands for reset. DESIGN CHOICE (logs 1, 2): the spec gives no reset value (R33, R290); here every
register and flag is supplied, as zero, the entry point is 0, and memory has nothing listed. -/
def resetLaunch : Launch where
  initRegs := #v[some 0, some 0, some 0, some 0, some 0, some 0, some 0, some 0, some 0, some 0, some 0, some 0, some 0,
    some 0, some 0]
  entry := 0
  initN := some false
  initZ := some false
  initV := some false
  initC := some false
  iv := false
  mem0 := []
  params := resetParams

/-- The machine right after reset (R33, R290): a launch that supplies every register and flag. -/
def State.reset : State := State.ofLaunch resetLaunch

end Sys2Proof.Machine
end

