-- ==== Sys2Proof/Machine/Ops.lean ====
section
/-! DEFINITION. The named operations over registers, condition codes, memory and the instruction stream (R12 to R14,
R22 to R24, R40 to R51), and how a step stops (R15, R260, R261). -/

namespace Sys2Proof.Machine

open Sys2Proof

/-! ## Stopping (R15, R260 to R262, R269, R270)

The machine has no trap entry, no handler and no return from one (R261, R269, R270): taking an exception is to end the
run with the fault's or refusal's name and information, exposing no state (R262). These two are that one operation. -/

/-- `raise Fault(…)` (R15). -/
def raiseFault {α : Type} (f : Fault) : Except Stop α := .error (.fault f)

/-- `raise Refuse(…)` (R15). -/
def raiseRefuse {α : Type} (r : Refusal) : Except Stop α := .error (.refuse r)

/-- The outcome of an instruction whose pseudocode ends with a state or stops (R15, R261). -/
def outcome : Except Stop State → Host.Outcome State Fault Refusal
  | .ok s => .next s
  | .error (.fault f) => .fault f
  | .error (.refuse r) => .refused r

/-! ## Registers (R12, R20, R24, R34) -/

/-- The value register `n` holds. -/
def State.reg (s : State) (n : Reg) : Word := s.regs[n.val]

/-- `x[n] <- v`: the register then holds a value (R34). -/
def State.setReg (s : State) (n : Reg) (v : Word) : State :=
  { s with regs := s.regs.set n.val v, regWritten := s.regWritten.set n.val true }

/-- Whether register `n` holds a value (R34). -/
def State.isWritten (s : State) (n : Reg) : Bool := s.regWritten[n.val]

/-- The program counter, `r15` (R21, R24). -/
def pcReg : Reg := 15

/-- The stack pointer, `r14` (R21). -/
def spReg : Reg := 14

/-- The program counter (R24). -/
def State.pc (s : State) : Word := s.reg pcReg

/-- `pc <- v` (R12, R24). -/
def State.setPc (s : State) (v : Word) : State := { s with regs := s.regs.set pcReg.val v }

/-- Read register `n`, which must hold a value (R34). -/
def readReg (n : Reg) (s : State) : Except Stop Word :=
  if s.isWritten n then .ok (s.reg n) else raiseFault (.unwrittenRead (.reg n))

/-! ## Condition codes (R26, R27, R34) -/

/-- The value of a condition code. -/
def CondCodes.get (x : CondCodes) : Flag → Bool
  | .n => x.n
  | .z => x.z
  | .v => x.v
  | .c => x.c

/-- Read a condition code, which must hold a value (R34). -/
def readFlag (f : Flag) (s : State) : Except Stop Bool :=
  if s.ccWritten.get f then .ok (s.cc.get f) else raiseFault (.unwrittenRead (.flag f))

/-- Write `N`, `Z`, `V` and `C` (R27). -/
def State.setNZVC (s : State) (x : CondCodes) : State :=
  { s with cc := x, ccWritten := ⟨true, true, true, true⟩ }

/-- Write `N`, `Z` and `V`, and leave `C` as it was, written or not (R26, R27). -/
def State.setNZV (s : State) (n z v : Bool) : State :=
  { s with cc := ⟨n, z, v, s.cc.c⟩, ccWritten := ⟨true, true, true, s.ccWritten.c⟩ }

/-! ## Memory as data (R30, R40, R41) -/

/-- What an address that is not listed reads as. DESIGN CHOICE (log 2). -/
def unlistedByte : Byte := 0

/-- The byte at an address. -/
def Memory.read : Memory → Nat → Byte
  | [], _ => unlistedByte
  | (k, b) :: m, a => if a = k then b else Memory.read m a

/-- The memory with one byte written: the list stays in rising order, and lists no byte that reads so anyway. -/
def Memory.write : Memory → Nat → Byte → Memory
  | [], a, v => if v = unlistedByte then [] else [(a, v)]
  | (k, b) :: m, a, v =>
    if a < k then (if v = unlistedByte then (k, b) :: m else (a, v) :: (k, b) :: m)
    else if a = k then (if v = unlistedByte then m else (a, v) :: m)
    else (k, b) :: Memory.write m a v

/-- Every listed address is at least `lo` and below the end of the address space, addresses rise strictly, and no entry
is equal to what an unlisted address reads as. -/
def Memory.wfFrom : Nat → Memory → Bool
  | _, [] => true
  | lo, (k, b) :: m => decide (lo ≤ k) && decide (k < addressCount) && (b != unlistedByte) && Memory.wfFrom (k + 1) m

/-- The canonical form of memory. -/
def Memory.wf (m : Memory) : Bool := Memory.wfFrom 0 m

/-- The byte of memory at an address (R12, R30). -/
def State.byteAt (s : State) (a : Word) : Byte := s.mem.read a.toNat

/-! ## `MemRead` and `MemWrite` (R13, R42 to R46) -/

/-- `Readable(a)` (R7). -/
def State.isReadable (s : State) (a : Word) : Bool := s.params.readable.contains a

/-- `Writable(a)` (R7). -/
def State.isWritable (s : State) (a : Word) : Bool := s.params.writable.contains a

/-- `CodeRegion(a)` (R7). -/
def State.isCode (s : State) (a : Word) : Bool := s.params.codeRegion.contains a

/-- The read checks of R42 on the `n` bytes from `a`, the lowest first; addresses wrap (R11). -/
def checkRead (s : State) : Word → Nat → Except Stop Unit
  | _, 0 => .ok ()
  | a, n + 1 => if s.isReadable a then checkRead s (a + 1) n else raiseFault (.accessViolation a .read)

/-- The write checks of R43 on the `n` bytes from `a`, the lowest first, `Writable` before `CodeRegion` at each. -/
def checkWrite (s : State) : Word → Nat → Except Stop Unit
  | _, 0 => .ok ()
  | a, n + 1 =>
    if s.isWritable a then
      if s.isCode a then raiseRefuse (.storeIntoCode a) else checkWrite s (a + 1) n
    else raiseFault (.accessViolation a .write)

/-- The value of the `n` bytes from `a`, least significant first (R44). -/
def loadBytes (m : Memory) : Word → Nat → Nat
  | _, 0 => 0
  | a, n + 1 => (m.read a.toNat).toNat + 256 * loadBytes m (a + 1) n

/-- The memory with the `n` low bytes of a value stored from `a` on, least significant first (R44). -/
def storeBytes (m : Memory) : Word → Nat → Nat → Memory
  | _, 0, _ => m
  | a, n + 1, v => storeBytes (m.write a.toNat (BitVec.ofNat 8 v)) (a + 1) n (v / 256)

/-- `MemRead(a, n)` (R42). -/
def memRead (a : Word) (n : Nat) (s : State) : Except Stop (BitVec (8 * n)) :=
  match checkRead s a n with
  | .ok () => .ok (BitVec.ofNat (8 * n) (loadBytes s.mem a n))
  | .error e => .error e

/-- `MemWrite(a, n, v)`: all checks precede all stores (R43). -/
def memWrite (a : Word) (n : Nat) (v : BitVec (8 * n)) (s : State) : Except Stop State :=
  match checkWrite s a n with
  | .ok () => .ok { s with mem := storeBytes s.mem a n v.toNat }
  | .error e => .error e

/-! ## The instruction stream (R14, R24) -/

/-- The code check of R14 on the `n` bytes from `a`, the lowest first. -/
def checkCode (s : State) : Word → Nat → Except Stop Unit
  | _, 0 => .ok ()
  | a, n + 1 => if s.isCode a then checkCode s (a + 1) n else raiseRefuse (.fetchOutsideCode a)

/-- `Fetch(n)` of R14, less the value: the bytes lie in `CodeRegion` and are `Readable`, and the program counter moves
past them. What they hold stands in the decoded instruction. -/
def fetch (n : Nat) (s : State) : Except Stop State :=
  match checkCode s s.pc n with
  | .ok () =>
    match checkRead s s.pc n with
    | .ok () => .ok (s.setPc (s.pc + BitVec.ofNat 32 n))
    | .error e => .error e
  | .error e => .error e

/-- `BranchTarget` with the displacement in hand (R72): it is fetched, sign-extended, and added to the program counter
after it. -/
def branchTarget {w : Nat} (bytes : Nat) (disp : BitVec w) (s : State) : Except Stop (Word × State) :=
  match fetch bytes s with
  | .ok s => .ok (s.pc + disp.signExtend 32, s)
  | .error e => .error e

/-- The `n` bytes of memory from `a` on, in address order (R45). -/
def windowFrom (m : Memory) : Word → Nat → List Byte
  | _, 0 => []
  | a, n + 1 => m.read a.toNat :: windowFrom m (a + 1) n

/-! ## Loading an instruction (R291, R292) -/

/-- The region with the `n` bytes from `a` added, as far as it lacks them. -/
def Region.cover (r : Region) (a : Word) : Nat → Region
  | 0 => r
  | n + 1 =>
    if Region.contains r a then Region.cover r (a + 1) n
    else Region.cover (⟨a.toNat, a.toNat + 1⟩ :: r) (a + 1) n

/-- The parameters with the `n` bytes from `a` on readable code, and the end of the run elsewhere than at `a`. -/
def placeCode (p : Params) (a : Word) (n : Nat) : Params :=
  { p with
    readable := Region.cover p.readable a n
    codeRegion := Region.cover p.codeRegion a n
    endPC := if p.endPC = a then a - 1 else p.endPC }

/-- How many bytes the decoder takes of a list: an instruction's own length, one byte of an opcode that is not in the
map, two of a two-byte opcode. -/
def placedLength (m : OpcodeMap) (bs : List Byte) : Nat :=
  match decode m bs with
  | .instr i => (encode i).length
  | .unknown _ => 1
  | .twoByte _ _ => 2

/-! ## The stack (R164, R230) -/

/-- Push a longword: `sp <- sp - 4; MemWrite(sp, 4, v)` (R164, R230). The stack pointer must hold a value (R34). -/
def pushLongword (v : Word) (s : State) : Except Stop State :=
  match readReg spReg s with
  | .ok sp => memWrite (sp - 4) 4 v (s.setReg spReg (sp - 4))
  | .error e => .error e

end Sys2Proof.Machine
end

