-- ==== Sys2Proof/Machine/Flags.lean ====
section
/-! DEFINITION. The condition codes of the arithmetic and logical instructions, and the results that have a flag of their
own (files 41 and 42). -/

namespace Sys2Proof.Machine

variable {w : Nat}

/-- `N`: the most significant bit of a result. -/
def flagN (r : BitVec w) : Bool := r.msb

/-- `Z`: the result is zero. -/
def flagZ (r : BitVec w) : Bool := r == 0

/-- The flags of a sum `r` of `a` and `b` (R170): `V` is signed overflow, `C` the carry out of the most significant
bit. -/
def addFlags (a b r : BitVec w) : CondCodes where
  n := flagN r
  z := flagZ r
  v := a.msb == b.msb && r.msb != a.msb
  c := decide (2 ^ w ≤ a.toNat + b.toNat)

/-- The flags of a difference `r` of the minuend `m` and the subtrahend `s` (R177): `V` is signed overflow, `C` the
borrow. -/
def subFlags (m s r : BitVec w) : CondCodes where
  n := flagN r
  z := flagZ r
  v := m.msb != s.msb && r.msb != m.msb
  c := decide (m.toNat < s.toNat)

/-- The flags of a comparison of `a` with `b` (R184): `N` is the signed relation, `C` the unsigned one. -/
def cmpFlags (a b : BitVec w) : CondCodes where
  n := decide (a.toInt < b.toInt)
  z := a == b
  v := false
  c := decide (a.toNat < b.toNat)

/-- The flags of a comparison with zero (R188), and of a sign extension (R200). -/
def tstFlags (a : BitVec w) : CondCodes where
  n := flagN a
  z := flagZ a
  v := false
  c := false

/-- The shifted integer of R192 before it is reduced to the width: `s * 2^c` for a count of 0 or more, the floor of
`s / 2^(-c)` for a negative one. -/
def ashExact (cnt : BitVec 8) (s : BitVec w) : Int :=
  if 0 ≤ cnt.toInt then s.toInt * 2 ^ cnt.toInt.toNat else s.toInt.fdiv (2 ^ (-cnt.toInt).toNat)

/-- The result of an arithmetic shift (R192). -/
def ashResult (cnt : BitVec 8) (s : BitVec w) : BitVec w := BitVec.ofInt w (ashExact cnt s)

/-- `V` of an arithmetic shift (R192): a left shift whose exact result does not fit the width. -/
def ashOverflow (cnt : BitVec 8) (s : BitVec w) : Bool :=
  decide (0 ≤ cnt.toInt) &&
    (decide (ashExact cnt s < -(2 ^ (w - 1) : Int)) || decide ((2 ^ (w - 1) : Int) - 1 < ashExact cnt s))

/-- The flags of an arithmetic shift (R192). -/
def ashFlags (cnt : BitVec 8) (s : BitVec w) : CondCodes where
  n := flagN (ashResult cnt s)
  z := flagZ (ashResult cnt s)
  v := ashOverflow cnt s
  c := false

/-- `V` of `aobleq` (R218): the index was the greatest positive longword. -/
def aobOverflow (i : BitVec 32) : Bool := i == 0x7FFFFFFF#32

/-- The overflow trap: `if IV and V: raise Fault(IntegerOverflow)`, after everything else (R170, R177, R192, R218). -/
def overflowTrap (v : Bool) (s : State) : Except Stop State :=
  if s.iv && v then raiseFault .integerOverflow else .ok s

end Sys2Proof.Machine
end

