-- ==== Sys2Proof/Machine/Operands.lean ====
section
/-! DEFINITION. Evaluating operand specifiers: 40_addressing_modes.md, every mode, and the operand driver of R135. Each
function is the pseudocode of the rule it names, with the instruction-stream bytes taken from the decoded specifier and
their fetch done by `fetch` (R14). -/

namespace Sys2Proof.Machine

open Sys2Proof

/-- What an instruction carries from one specifier to the next (R102, R133 to R135): the state, the registers stepped so
far (`Modified`) and the registers used in register mode so far (`RegUsed`). -/
structure Ctx where
  st : State
  modified : List Reg
  regUsed : List Reg
deriving DecidableEq, Repr

/-- Where an operand is (R102). -/
inductive Loc (t : DType) where
  | lit (v : BitVec t.bits)
  | reg (n : Reg)
  | mem (a : Word)
deriving DecidableEq, Repr

/-- Nothing stepped and nothing used yet (R135). -/
def Ctx.start (s : State) : Ctx := ⟨s, [], []⟩

/-- `Fetch(n)` within a specifier (R14). -/
def Ctx.fetch (n : Nat) (c : Ctx) : Except Stop Ctx :=
  match Machine.fetch n c.st with
  | .ok s => .ok { c with st := s }
  | .error e => .error e

/-- A mode's register side effect: `x[n] <- v; Modified <- Modified + {n}` (R110 to R112). -/
def Ctx.stepReg (n : Reg) (v : Word) (c : Ctx) : Ctx :=
  { c with st := c.st.setReg n v, modified := n :: c.modified }

/-! ## The modes that designate memory (R109 to R118, R122 to R128) -/

/-- A longword at an address, as the operand's address: what a deferred mode reads (R112, R114, R124). -/
def pointerAt (p : Word) (s : State) : Except Stop Word := memRead p 4 s

/-- Modes A, C and E: the displacement is fetched, then the register is read (R113, R115, R117, R68). -/
def displaced {w : Nat} (bytes : Nat) (n : Gpr) (disp : BitVec w) (c : Ctx) : Except Stop (Word × Ctx) := do
  let c ← c.fetch bytes
  let x ← readReg n.reg c.st
  .ok (x + disp.signExtend 32, c)

/-- Modes A, C and E on the program counter, whose value is the one after the displacement (R120, R123, R125, R127). -/
def relative {w : Nat} (bytes : Nat) (disp : BitVec w) (c : Ctx) : Except Stop (Word × Ctx) := do
  let c ← c.fetch bytes
  .ok (c.st.pc + disp.signExtend 32, c)

/-- The deferred form of a mode: its address is that of the operand's address (R114, R116, R118, R124, R126, R128). -/
def deferred (x : Except Stop (Word × Ctx)) : Except Stop (Word × Ctx) := do
  let (p, c) ← x
  let a ← pointerAt p c.st
  .ok (a, c)

/-- `Address(mode, n, d, indexed)` (R102, R109 to R118, R122 to R128, R130): the operand's address and the register side
effect, for an operand of `d` bytes. -/
def address (d : Nat) (m : MemSpec) (c : Ctx) : Except Stop (Word × Ctx) :=
  match m with
  | .registerDeferred n =>
    if n = pcReg then raiseRefuse .unpredictablePCDeferred
    else do
      let x ← readReg n c.st
      .ok (x, c)
  | .autodecrement n =>
    if n = pcReg then raiseRefuse .unpredictablePCAutodecrement
    else do
      let x ← readReg n c.st
      .ok (x - BitVec.ofNat 32 d, c.stepReg n (x - BitVec.ofNat 32 d))
  | .autoincrement n => do
    let a ← readReg n.reg c.st
    .ok (a, c.stepReg n.reg (a + BitVec.ofNat 32 d))
  | .autoincrementDeferred n => do
    let p ← readReg n.reg c.st
    let a ← pointerAt p c.st
    .ok (a, c.stepReg n.reg (p + 4))
  | .absolute addr => do
    let c ← c.fetch 4
    .ok (addr, c)
  | .byteDisplacement n disp => displaced 1 n disp c
  | .byteRelative disp => relative 1 disp c
  | .byteDisplacementDeferred n disp => deferred (displaced 1 n disp c)
  | .byteRelativeDeferred disp => deferred (relative 1 disp c)
  | .wordDisplacement n disp => displaced 2 n disp c
  | .wordRelative disp => relative 2 disp c
  | .wordDisplacementDeferred n disp => deferred (displaced 2 n disp c)
  | .wordRelativeDeferred disp => deferred (relative 2 disp c)
  | .longwordDisplacement n disp => displaced 4 n disp c
  | .longwordRelative disp => relative 4 disp c
  | .longwordDisplacementDeferred n disp => deferred (displaced 4 n disp c)
  | .longwordRelativeDeferred disp => deferred (relative 4 disp c)

/-! ## Index (R105 to R107) -/

/-- The register a mode steps, when it steps one (R110 to R112, R119). -/
def steppedReg : MemSpec → Option Reg
  | .autodecrement n => if n = pcReg then none else some n
  | .autoincrement n => some n.reg
  | .autoincrementDeferred n => some n.reg
  | .registerDeferred _ => none
  | .absolute _ => none
  | .byteDisplacement _ _ => none
  | .byteRelative _ => none
  | .byteDisplacementDeferred _ _ => none
  | .byteRelativeDeferred _ => none
  | .wordDisplacement _ _ => none
  | .wordRelative _ => none
  | .wordDisplacementDeferred _ _ => none
  | .wordRelativeDeferred _ => none
  | .longwordDisplacement _ _ => none
  | .longwordRelative _ => none
  | .longwordDisplacementDeferred _ _ => none
  | .longwordRelativeDeferred _ => none

/-- `Indexed(rx, d)` (R105, R107): the base's address, its side effect done, plus the index register scaled by `d`. -/
def indexed (d : Nat) (rx : Reg) (base : IndexBase) (c : Ctx) : Except Stop (Word × Ctx) :=
  if rx = pcReg then raiseFault (.reservedAddressingMode 0x4F#8)
  else do
    let c ← c.fetch 1
    match base with
    | .forbidden b =>
      if b = 0x8F#8 then raiseRefuse .unpredictableIndexedImmediate else raiseFault (.reservedAddressingMode b)
    | .mem m =>
      if steppedReg m = some rx then raiseRefuse .unpredictableIndexBaseSame
      else do
        let (a, c) ← address d m c
        let x ← readReg rx c.st
        .ok (a + x * BitVec.ofNat 32 d, c)

/-! ## Literal, register and immediate (R104, R108, R121) -/

/-- `Literal(s, acc, dt)` (R104). -/
def literal (acc : Access) (t : DType) (lit : BitVec 6) (c : Ctx) : Except Stop (Loc t × Ctx) :=
  if acc = .r then
    if t.isFloat then raiseRefuse .floatLiteral
    else if lit.msb then
      match c.st.params.shortLiteralExt with
      | .signed => .ok (.lit (lit.signExtend t.bits), c)
      | .unsigned => .ok (.lit (lit.setWidth t.bits), c)
      | .undecided => raiseRefuse (.shortLiteralHighBit (lit.setWidth 8))
    else .ok (.lit (lit.setWidth t.bits), c)
  else raiseFault (.reservedAddressingMode (lit.setWidth 8))

/-- The registers a register-mode operand takes: one, a pair, or four (R22, R23, R108). -/
def operandRegs (t : DType) (n : Reg) : List Reg :=
  if t.size ≤ 4 then [n] else if t.size = 8 then [n, n + 1] else [n, n + 1, n + 2, n + 3]

/-- `Register(n, acc, dt)` (R108, R130). -/
def register (acc : Access) (t : DType) (n : Reg) (c : Ctx) : Except Stop (Loc t × Ctx) :=
  if acc = .a then raiseFault (.reservedAddressingMode (specByte 5 n.val))
  else if n = pcReg then raiseRefuse .unpredictablePCRegisterMode
  else if t.size = 8 ∧ 14 ≤ n.val then raiseRefuse .unpredictableRegisterPair
  else if t.size = 16 ∧ 12 ≤ n.val then raiseRefuse .unpredictableRegisterPair
  else .ok (.reg n, { c with regUsed := operandRegs t n ++ c.regUsed })

/-- `Immediate(acc, dt)` (R121). -/
def immediate (acc : Access) (t : DType) (v : BitVec 128) (c : Ctx) : Except Stop (Loc t × Ctx) :=
  if acc = .r then do
    let c ← c.fetch t.size
    .ok (.lit (v.setWidth t.bits), c)
  else raiseRefuse .unpredictableImmediateDestination

/-- `EvalSpec(acc, dt)` (R102): the specifier byte is fetched, then its mode's rule applies. -/
def evalSpec (acc : Access) (t : DType) (x : Spec) (c : Ctx) : Except Stop (Loc t × Ctx) := do
  let c ← c.fetch 1
  match x with
  | .literal lit => literal acc t lit c
  | .index rx base => do
    let (a, c) ← indexed t.size rx base c
    .ok (.mem a, c)
  | .register n => register acc t n c
  | .immediate v => immediate acc t v c
  | .mem m => do
    let (a, c) ← address t.size m c
    .ok (.mem a, c)

/-! ## Reading and writing through a location (R103, R22, R23) -/

/-- A register operand's value (R22, R23): the low bits of one register, a pair, or four. -/
def readRegOperand (t : DType) (n : Reg) (s : State) : Except Stop (BitVec t.bits) :=
  if t.size ≤ 4 then do
    let x ← readReg n s
    .ok (x.setWidth t.bits)
  else if t.size = 8 then do
    let x0 ← readReg n s
    let x1 ← readReg (n + 1) s
    .ok ((x1 ++ x0).setWidth t.bits)
  else do
    let x0 ← readReg n s
    let x1 ← readReg (n + 1) s
    let x2 ← readReg (n + 2) s
    let x3 ← readReg (n + 3) s
    .ok ((x3 ++ x2 ++ x1 ++ x0).setWidth t.bits)

/-- A longword whose low bits are an operand's and whose high bits are a register's: `x[n][31:W] ' v` (R22). -/
def mergeLow {w : Nat} (old : Word) (v : BitVec w) : Word := ((old >>> w) <<< w) ||| v.setWidth 32

/-- Writing a register operand (R22, R23): a narrow one keeps the register's high bits, and so reads them (R34). -/
def writeRegOperand (t : DType) (n : Reg) (v : BitVec t.bits) (s : State) : Except Stop State :=
  if t.size < 4 then do
    let old ← readReg n s
    .ok (s.setReg n (mergeLow old v))
  else if t.size = 4 then .ok (s.setReg n (v.setWidth 32))
  else if t.size = 8 then .ok ((s.setReg n (v.setWidth 32)).setReg (n + 1) ((v >>> 32).setWidth 32))
  else
    .ok ((((s.setReg n (v.setWidth 32)).setReg (n + 1) ((v >>> 32).setWidth 32)).setReg (n + 2)
      ((v >>> 64).setWidth 32)).setReg (n + 3) ((v >>> 96).setWidth 32))

/-- `ReadOperand(loc, dt)` (R103). -/
def readOperand (t : DType) (x : Loc t) (s : State) : Except Stop (BitVec t.bits) :=
  match x with
  | .lit v => .ok v
  | .reg n => readRegOperand t n s
  | .mem a => memRead a t.size s

/-- `WriteOperand(loc, dt, v)` (R103). A literal cannot come here: R132 stops such an operand before. -/
def writeOperand (t : DType) (x : Loc t) (v : BitVec t.bits) (s : State) : Except Stop State :=
  match x with
  | .lit _ => raiseFault (.reservedAddressingMode 0)
  | .reg n => writeRegOperand t n v s
  | .mem a => memWrite a t.size v s

/-- `AddressOf(loc)` (R103). Only a memory location can come here: R132 stops the others before. -/
def addressOf (t : DType) (x : Loc t) : Except Stop Word :=
  match x with
  | .lit _ => raiseFault (.reservedAddressingMode 0)
  | .reg _ => raiseFault (.reservedAddressingMode 0)
  | .mem a => .ok a

/-! ## The operand driver (R133, R135) -/

/-- One operand with access `r`: its specifier, then its value. -/
def operandR (t : DType) (x : Spec) (c : Ctx) : Except Stop (BitVec t.bits × Ctx) := do
  let (loc, c) ← evalSpec .r t x c
  let v ← readOperand t loc c.st
  .ok (v, c)

/-- One operand with access `w`: its specifier. -/
def operandW (t : DType) (x : Spec) (c : Ctx) : Except Stop (Loc t × Ctx) := evalSpec .w t x c

/-- One operand with access `m`: its specifier, once, and its value. -/
def operandM (t : DType) (x : Spec) (c : Ctx) : Except Stop (BitVec t.bits × Loc t × Ctx) := do
  let (loc, c) ← evalSpec .m t x c
  let v ← readOperand t loc c.st
  .ok (v, loc, c)

/-- One operand with access `a`: its specifier, and its address. -/
def operandA (t : DType) (x : Spec) (c : Ctx) : Except Stop (Word × Ctx) := do
  let (loc, c) ← evalSpec .a t x c
  let a ← addressOf t loc
  .ok (a, c)

/-- The opcode byte is fetched and the operands begin (R24, R135, R294). -/
def beginInstr (s : State) : Except Stop Ctx := do
  let s ← fetch 1 s
  .ok (Ctx.start s)

/-- The lowest register both stepped and used in register mode (R134). -/
def hazardReg (c : Ctx) : Option Reg :=
  (List.finRange 16).find? fun k => decide (k ∈ c.modified) && decide (k ∈ c.regUsed)

/-- The end of the operands: the register hazard, when the parameter asks for it (R134, R135). -/
def endOperands (c : Ctx) : Except Stop State :=
  if c.st.params.strictRegHazard then
    match hazardReg c with
    | some k => raiseRefuse (.registerHazard k)
    | none => .ok c.st
  else .ok c.st

end Sys2Proof.Machine
end

