-- ==== Sys2Proof/Machine/Arithmetic.lean ====
section
/-! DEFINITION. The integer arithmetic and logical instructions (42_arithmetic_logical.md): a shared operation for each family, and
one definition for each instruction. -/

namespace Sys2Proof.Machine

open Sys2Proof

/-- The common part of `add` (R170): the result, the flags, and then the overflow trap. -/
def addInto (t : DType) (a b : BitVec t.bits) (d : Loc t) (s : State) : Except Stop State := do
  let r := a + b
  let s ← writeOperand t d r s
  overflowTrap (addFlags a b r).v (s.setNZVC (addFlags a b r))

/-- `add<t>2` (R170): the second operand is read and written through one evaluation of its specifier. -/
def add2 (t : DType) (add sum : Spec) (s : State) : Except Stop State := do
  let c ← beginInstr s
  let (a, c) ← operandR t add c
  let (b, d, c) ← operandM t sum c
  let s ← endOperands c
  addInto t a b d s

/-- `add<t>3` (R170). -/
def add3 (t : DType) (add1 add2 sum : Spec) (s : State) : Except Stop State := do
  let c ← beginInstr s
  let (a, c) ← operandR t add1 c
  let (b, c) ← operandR t add2 c
  let (d, c) ← operandW t sum c
  let s ← endOperands c
  addInto t a b d s

/-- `addb2 add.rb, sum.mb` (R171). -/
def execAddb2 (add sum : Spec) (s : State) : Host.Outcome State Fault Refusal :=
  outcome (add2 .b add sum s)

/-- `addb3 add1.rb, add2.rb, sum.wb` (R172). -/
def execAddb3 (add1 add2 sum : Spec) (s : State) : Host.Outcome State Fault Refusal :=
  outcome (add3 .b add1 add2 sum s)

/-- `addw2 add.rw, sum.mw` (R173). -/
def execAddw2 (add sum : Spec) (s : State) : Host.Outcome State Fault Refusal :=
  outcome (add2 .w add sum s)

/-- `addw3 add1.rw, add2.rw, sum.ww` (R174). -/
def execAddw3 (add1 add2 sum : Spec) (s : State) : Host.Outcome State Fault Refusal :=
  outcome (add3 .w add1 add2 sum s)

/-- `addl2 add.rl, sum.ml` (R175). -/
def execAddl2 (add sum : Spec) (s : State) : Host.Outcome State Fault Refusal :=
  outcome (add2 .l add sum s)

/-- `addl3 add1.rl, add2.rl, sum.wl` (R176). -/
def execAddl3 (add1 add2 sum : Spec) (s : State) : Host.Outcome State Fault Refusal :=
  outcome (add3 .l add1 add2 sum s)

/-- The common part of `sub` (R177): minuend less subtrahend, the flags, and then the overflow trap. -/
def subInto (t : DType) (m sub : BitVec t.bits) (d : Loc t) (s : State) : Except Stop State := do
  let r := m - sub
  let s ← writeOperand t d r s
  overflowTrap (subFlags m sub r).v (s.setNZVC (subFlags m sub r))

/-- `sub<t>2` (R177): the subtrahend comes first. -/
def sub2 (t : DType) (sub dif : Spec) (s : State) : Except Stop State := do
  let c ← beginInstr s
  let (x, c) ← operandR t sub c
  let (m, d, c) ← operandM t dif c
  let s ← endOperands c
  subInto t m x d s

/-- `sub<t>3` (R177): the subtrahend comes first, then the minuend. -/
def sub3 (t : DType) (sub min dif : Spec) (s : State) : Except Stop State := do
  let c ← beginInstr s
  let (x, c) ← operandR t sub c
  let (m, c) ← operandR t min c
  let (d, c) ← operandW t dif c
  let s ← endOperands c
  subInto t m x d s

/-- `subb2 sub.rb, dif.mb` (R178). -/
def execSubb2 (sub dif : Spec) (s : State) : Host.Outcome State Fault Refusal :=
  outcome (sub2 .b sub dif s)

/-- `subb3 sub.rb, min.rb, dif.wb` (R179). -/
def execSubb3 (sub min dif : Spec) (s : State) : Host.Outcome State Fault Refusal :=
  outcome (sub3 .b sub min dif s)

/-- `subw2 sub.rw, dif.mw` (R180). -/
def execSubw2 (sub dif : Spec) (s : State) : Host.Outcome State Fault Refusal :=
  outcome (sub2 .w sub dif s)

/-- `subw3 sub.rw, min.rw, dif.ww` (R181). -/
def execSubw3 (sub min dif : Spec) (s : State) : Host.Outcome State Fault Refusal :=
  outcome (sub3 .w sub min dif s)

/-- `subl2 sub.rl, dif.ml` (R182). -/
def execSubl2 (sub dif : Spec) (s : State) : Host.Outcome State Fault Refusal :=
  outcome (sub2 .l sub dif s)

/-- `subl3 sub.rl, min.rl, dif.wl` (R183). -/
def execSubl3 (sub min dif : Spec) (s : State) : Host.Outcome State Fault Refusal :=
  outcome (sub3 .l sub min dif s)

/-- `cmp<t>` (R184): the first operand against the second; only the flags are written. -/
def cmp (t : DType) (src1 src2 : Spec) (s : State) : Except Stop State := do
  let c ← beginInstr s
  let (a, c) ← operandR t src1 c
  let (b, c) ← operandR t src2 c
  let s ← endOperands c
  .ok (s.setNZVC (cmpFlags a b))

/-- `cmpb src1.rb, src2.rb` (R185). -/
def execCmpb (src1 src2 : Spec) (s : State) : Host.Outcome State Fault Refusal :=
  outcome (cmp .b src1 src2 s)

/-- `cmpw src1.rw, src2.rw` (R186). -/
def execCmpw (src1 src2 : Spec) (s : State) : Host.Outcome State Fault Refusal :=
  outcome (cmp .w src1 src2 s)

/-- `cmpl src1.rl, src2.rl` (R187). -/
def execCmpl (src1 src2 : Spec) (s : State) : Host.Outcome State Fault Refusal :=
  outcome (cmp .l src1 src2 s)

/-- `tst<t>` (R188): the operand against zero; only the flags are written. -/
def tst (t : DType) (src : Spec) (s : State) : Except Stop State := do
  let c ← beginInstr s
  let (a, c) ← operandR t src c
  let s ← endOperands c
  .ok (s.setNZVC (tstFlags a))

/-- `tstb src.rb` (R189). -/
def execTstb (src : Spec) (s : State) : Host.Outcome State Fault Refusal :=
  outcome (tst .b src s)

/-- `tstw src.rw` (R190). -/
def execTstw (src : Spec) (s : State) : Host.Outcome State Fault Refusal :=
  outcome (tst .w src s)

/-- `tstl src.rl` (R191). -/
def execTstl (src : Spec) (s : State) : Host.Outcome State Fault Refusal :=
  outcome (tst .l src s)

/-- `ash<t>` (R192): the count is a signed byte, and is not reduced modulo the width. -/
def ash (t : DType) (cnt src dst : Spec) (s : State) : Except Stop State := do
  let c ← beginInstr s
  let (k, c) ← operandR .b cnt c
  let (x, c) ← operandR t src c
  let (d, c) ← operandW t dst c
  let s ← endOperands c
  let s ← writeOperand t d (ashResult k x) s
  overflowTrap (ashOverflow k x) (s.setNZVC (ashFlags k x))

/-- `ashl cnt.rb, src.rl, dst.wl` (R193). -/
def execAshl (cnt src dst : Spec) (s : State) : Host.Outcome State Fault Refusal :=
  outcome (ash .l cnt src dst s)

/-- `ashq cnt.rb, src.rq, dst.wq` (R194). -/
def execAshq (cnt src dst : Spec) (s : State) : Host.Outcome State Fault Refusal :=
  outcome (ash .q cnt src dst s)

/-- `clr<t>` (R195): the destination is only written; `C` is unchanged. -/
def clr (t : DType) (dst : Spec) (s : State) : Except Stop State := do
  let c ← beginInstr s
  let (d, c) ← operandW t dst c
  let s ← endOperands c
  let s ← writeOperand t d 0 s
  .ok (s.setNZV false true false)

/-- `clrb dst.wb` (R196). -/
def execClrb (dst : Spec) (s : State) : Host.Outcome State Fault Refusal :=
  outcome (clr .b dst s)

/-- `clrw dst.ww` (R197). -/
def execClrw (dst : Spec) (s : State) : Host.Outcome State Fault Refusal :=
  outcome (clr .w dst s)

/-- `clrl dst.wl` (R198). -/
def execClrl (dst : Spec) (s : State) : Host.Outcome State Fault Refusal :=
  outcome (clr .l dst s)

/-- `clrq dst.wq` (R199). -/
def execClrq (dst : Spec) (s : State) : Host.Outcome State Fault Refusal :=
  outcome (clr .q dst s)

/-- `cvtb<t>` (R200): a byte extended with its sign. -/
def cvtb (t : DType) (src dst : Spec) (s : State) : Except Stop State := do
  let c ← beginInstr s
  let (x, c) ← operandR .b src c
  let (d, c) ← operandW t dst c
  let s ← endOperands c
  let r : BitVec t.bits := x.signExtend t.bits
  let s ← writeOperand t d r s
  .ok (s.setNZVC (tstFlags r))

/-- `cvtbw src.rb, dst.ww` (R201). -/
def execCvtbw (src dst : Spec) (s : State) : Host.Outcome State Fault Refusal :=
  outcome (cvtb .w src dst s)

/-- `cvtbl src.rb, dst.wl` (R202). -/
def execCvtbl (src dst : Spec) (s : State) : Host.Outcome State Fault Refusal :=
  outcome (cvtb .l src dst s)

end Sys2Proof.Machine
end

