-- ==== Sys2Proof/Machine/Control.lean ====
section
/-! DEFINITION. The control instructions (43_control.md) and the procedure instruction `jsb` (44_procedure.md). -/

namespace Sys2Proof.Machine

open Sys2Proof

/-- The conditional branches (R210): the displacement is fetched whether or not the branch is taken, then the condition
is read. -/
def branchIf (cond : State → Except Stop Bool) (displ : Byte) (s : State) : Except Stop State := do
  let c ← beginInstr s
  let (target, s) ← branchTarget 1 displ c.st
  let taken ← cond s
  .ok (if taken then s.setPc target else s)

/-- `Z = 1` (R211). -/
def condEql (s : State) : Except Stop Bool := readFlag .z s

/-- `Z = 0` (R212). -/
def condNeq (s : State) : Except Stop Bool := do
  let z ← readFlag .z s
  .ok (!z)

/-- `N = 1 or Z = 1` (R213); both are read. -/
def condLeq (s : State) : Except Stop Bool := do
  let n ← readFlag .n s
  let z ← readFlag .z s
  .ok (n || z)

/-- `N = 0` (R214). -/
def condGeq (s : State) : Except Stop Bool := do
  let n ← readFlag .n s
  .ok (!n)

/-- `beql displ.bb` (R211). -/
def execBeql (displ : Byte) (s : State) : Host.Outcome State Fault Refusal :=
  outcome (branchIf condEql displ s)

/-- `bneq displ.bb` (R212). -/
def execBneq (displ : Byte) (s : State) : Host.Outcome State Fault Refusal :=
  outcome (branchIf condNeq displ s)

/-- `bleq displ.bb` (R213). -/
def execBleq (displ : Byte) (s : State) : Host.Outcome State Fault Refusal :=
  outcome (branchIf condLeq displ s)

/-- `bgeq displ.bb` (R214). -/
def execBgeq (displ : Byte) (s : State) : Host.Outcome State Fault Refusal :=
  outcome (branchIf condGeq displ s)

/-- The unconditional branches (R215, R216). -/
def branch {w : Nat} (bytes : Nat) (displ : BitVec w) (s : State) : Except Stop State := do
  let c ← beginInstr s
  let (target, s) ← branchTarget bytes displ c.st
  .ok (s.setPc target)

/-- `brb displ.bb` (R215). -/
def execBrb (displ : Byte) (s : State) : Host.Outcome State Fault Refusal :=
  outcome (branch 1 displ s)

/-- `brw displ.bw` (R216). -/
def execBrw (displ : BitVec 16) (s : State) : Host.Outcome State Fault Refusal :=
  outcome (branch 2 displ s)

/-- `jmp` (R217): to the operand's address. -/
def jump (dst : Spec) (s : State) : Except Stop State := do
  let c ← beginInstr s
  let (a, c) ← operandA .b dst c
  let s ← endOperands c
  .ok (s.setPc a)

/-- `jmp dst.ab` (R217). -/
def execJmp (dst : Spec) (s : State) : Host.Outcome State Fault Refusal :=
  outcome (jump dst s)

/-- `aobleq` (R218): add one, and branch if the sum is at most the limit, as signed numbers; `C` is unchanged. -/
def addOneBranchLeq (limit index : Spec) (displ : Byte) (s : State) : Except Stop State := do
  let c ← beginInstr s
  let (lim, c) ← operandR .l limit c
  let (i, d, c) ← operandM .l index c
  let s ← endOperands c
  let (target, s) ← branchTarget 1 displ s
  let r := i + 1
  let s ← writeOperand .l d r s
  let s := s.setNZV (flagN r) (flagZ r) (aobOverflow i)
  let s := if r.toInt ≤ lim.toInt then s.setPc target else s
  overflowTrap (aobOverflow i) s

/-- `aobleq limit.rl, index.ml, displ.bb` (R218). -/
def execAobleq (limit index : Spec) (displ : Byte) (s : State) : Host.Outcome State Fault Refusal :=
  outcome (addOneBranchLeq limit index displ s)

/-- `jsb` (R230): the target is computed, then the address after the instruction is pushed. -/
def jumpSub (dst : Spec) (s : State) : Except Stop State := do
  let c ← beginInstr s
  let (a, c) ← operandA .b dst c
  let s ← endOperands c
  let s ← pushLongword s.pc s
  .ok (s.setPc a)

/-- `jsb dst.ab` (R230). -/
def execJsb (dst : Spec) (s : State) : Host.Outcome State Fault Refusal :=
  outcome (jumpSub dst s)

end Sys2Proof.Machine
end

