-- ==== Sys2Proof/Machine/DataTransfer.lean ====
section
/-! DEFINITION. The data transfer instructions (41_data_transfer.md): a shared operation for each family, and one definition for each
instruction. -/

namespace Sys2Proof.Machine

open Sys2Proof

/-- `mov<t>` (R150): the source goes to the destination; `C` is unchanged. -/
def mov (t : DType) (src dst : Spec) (s : State) : Except Stop State := do
  let c ← beginInstr s
  let (v, c) ← operandR t src c
  let (d, c) ← operandW t dst c
  let s ← endOperands c
  let s ← writeOperand t d v s
  .ok (s.setNZV (flagN v) (flagZ v) false)

/-- `movb src.rb, dst.wb` (R151). -/
def execMovb (src dst : Spec) (s : State) : Host.Outcome State Fault Refusal :=
  outcome (mov .b src dst s)

/-- `movw src.rw, dst.ww` (R152). -/
def execMovw (src dst : Spec) (s : State) : Host.Outcome State Fault Refusal :=
  outcome (mov .w src dst s)

/-- `movl src.rl, dst.wl` (R153). -/
def execMovl (src dst : Spec) (s : State) : Host.Outcome State Fault Refusal :=
  outcome (mov .l src dst s)

/-- `movq src.rq, dst.wq` (R154). -/
def execMovq (src dst : Spec) (s : State) : Host.Outcome State Fault Refusal :=
  outcome (mov .q src dst s)

/-- `movzb<t>` (R155): a byte extended with zeros; `C` is unchanged. -/
def movzb (t : DType) (src dst : Spec) (s : State) : Except Stop State := do
  let c ← beginInstr s
  let (x, c) ← operandR .b src c
  let (d, c) ← operandW t dst c
  let s ← endOperands c
  let v : BitVec t.bits := x.setWidth t.bits
  let s ← writeOperand t d v s
  .ok (s.setNZV false (flagZ v) false)

/-- `movzbw src.rb, dst.ww` (R156). -/
def execMovzbw (src dst : Spec) (s : State) : Host.Outcome State Fault Refusal :=
  outcome (movzb .w src dst s)

/-- `movzbl src.rb, dst.wl` (R157). -/
def execMovzbl (src dst : Spec) (s : State) : Host.Outcome State Fault Refusal :=
  outcome (movzb .l src dst s)

/-- `mova<t>` (R159): the operand's address, of which nothing is read; `C` is unchanged. -/
def mova (t : DType) (src dst : Spec) (s : State) : Except Stop State := do
  let c ← beginInstr s
  let (a, c) ← operandA t src c
  let (d, c) ← operandW .l dst c
  let s ← endOperands c
  let s ← writeOperand .l d a s
  .ok (s.setNZV (flagN a) (flagZ a) false)

/-- `movab src.ab, dst.wl` (R160). -/
def execMovab (src dst : Spec) (s : State) : Host.Outcome State Fault Refusal :=
  outcome (mova .b src dst s)

/-- `movaw src.aw, dst.wl` (R161). -/
def execMovaw (src dst : Spec) (s : State) : Host.Outcome State Fault Refusal :=
  outcome (mova .w src dst s)

/-- `moval src.al, dst.wl` (R162). -/
def execMoval (src dst : Spec) (s : State) : Host.Outcome State Fault Refusal :=
  outcome (mova .l src dst s)

/-- `movaq src.aq, dst.wl` (R163). -/
def execMovaq (src dst : Spec) (s : State) : Host.Outcome State Fault Refusal :=
  outcome (mova .q src dst s)

/-- `pushl` (R164): the operand is read before the stack pointer moves; `C` is unchanged. -/
def push (src : Spec) (s : State) : Except Stop State := do
  let c ← beginInstr s
  let (v, c) ← operandR .l src c
  let s ← endOperands c
  let s ← pushLongword v s
  .ok (s.setNZV (flagN v) (flagZ v) false)

/-- `pushl src.rl` (R164). -/
def execPushl (src : Spec) (s : State) : Host.Outcome State Fault Refusal :=
  outcome (push src s)

end Sys2Proof.Machine
end

