-- ==== Sys2Proof/Machine/Named.lean ====
section
/-! DEFINITION. The instructions the source names and the spec gives no meaning to: `case`, the procedure calls and return, the
floating-point instructions, `crc` and `insque` (R74, R219 to R222, R231 to R233, R240 to R251; decision D12). -/

namespace Sys2Proof.Machine

open Sys2Proof

/-- A named instruction: its opcode is fetched, and it is refused before anything more is read (R74). -/
def unmodelled (op : Opcode) (s : State) : Except Stop State := do
  let _ ← fetch 1 s
  raiseRefuse (.unmodelled op)

/-- `caseb` (R220). -/
def execCaseb (s : State) : Host.Outcome State Fault Refusal :=
  outcome (unmodelled .caseb s)

/-- `casew` (R221). -/
def execCasew (s : State) : Host.Outcome State Fault Refusal :=
  outcome (unmodelled .casew s)

/-- `casel` (R222). -/
def execCasel (s : State) : Host.Outcome State Fault Refusal :=
  outcome (unmodelled .casel s)

/-- `calls` (R231). -/
def execCalls (s : State) : Host.Outcome State Fault Refusal :=
  outcome (unmodelled .calls s)

/-- `callg` (R232). -/
def execCallg (s : State) : Host.Outcome State Fault Refusal :=
  outcome (unmodelled .callg s)

/-- `ret` (R233). -/
def execRet (s : State) : Host.Outcome State Fault Refusal :=
  outcome (unmodelled .ret s)

/-- `addf2` (R241). -/
def execAddf2 (s : State) : Host.Outcome State Fault Refusal :=
  outcome (unmodelled .addf2 s)

/-- `addf3` (R242). -/
def execAddf3 (s : State) : Host.Outcome State Fault Refusal :=
  outcome (unmodelled .addf3 s)

/-- `addd2` (R243). -/
def execAddd2 (s : State) : Host.Outcome State Fault Refusal :=
  outcome (unmodelled .addd2 s)

/-- `addd3` (R244). -/
def execAddd3 (s : State) : Host.Outcome State Fault Refusal :=
  outcome (unmodelled .addd3 s)

/-- `subd2` (R245). -/
def execSubd2 (s : State) : Host.Outcome State Fault Refusal :=
  outcome (unmodelled .subd2 s)

/-- `subd3` (R246). -/
def execSubd3 (s : State) : Host.Outcome State Fault Refusal :=
  outcome (unmodelled .subd3 s)

/-- `mulf2` (R247). -/
def execMulf2 (s : State) : Host.Outcome State Fault Refusal :=
  outcome (unmodelled .mulf2 s)

/-- `mulf3` (R248). -/
def execMulf3 (s : State) : Host.Outcome State Fault Refusal :=
  outcome (unmodelled .mulf3 s)

/-- `polyf` (R249). -/
def execPolyf (s : State) : Host.Outcome State Fault Refusal :=
  outcome (unmodelled .polyf s)

/-- `crc` (R250). -/
def execCrc (s : State) : Host.Outcome State Fault Refusal :=
  outcome (unmodelled .crc s)

/-- `insque` (R251). -/
def execInsque (s : State) : Host.Outcome State Fault Refusal :=
  outcome (unmodelled .insque s)

end Sys2Proof.Machine
end

