-- ==== Sys2Proof/Machine/Specifiers.lean ====
section
/-! DEFINITION. The rows of the opcode table that are operand specifiers: each by itself, at the program counter, with the access and
data type an opcode would give it (R102). What it does to the machine is what R119 lists, and the operand read of its
access (R133). -/

namespace Sys2Proof.Machine

open Sys2Proof

/-- One operand specifier by itself (R102, R119, R133): its bytes are fetched, its register is stepped, its pointer is
read, and for access `r` or `m` its operand is read. -/
def operandAlone (acc : Access) (t : DType) (x : Spec) (s : State) : Except Stop State :=
  match acc with
  | .r => do
    let (_, c) ← operandR t x (Ctx.start s)
    .ok c.st
  | .w => do
    let (_, c) ← operandW t x (Ctx.start s)
    .ok c.st
  | .m => do
    let (_, _, c) ← operandM t x (Ctx.start s)
    .ok c.st
  | .a => do
    let (_, c) ← operandA t x (Ctx.start s)
    .ok c.st

/-- Literal by itself (R104). -/
def execSpecLiteral (acc : Access) (dt : DType) (lit : BitVec 6) (s : State) :
    Host.Outcome State Fault Refusal :=
  outcome (operandAlone acc dt (.literal lit) s)

/-- Index by itself (R105). -/
def execSpecIndex (acc : Access) (dt : DType) (rx : Reg) (base : IndexBase) (s : State) :
    Host.Outcome State Fault Refusal :=
  outcome (operandAlone acc dt (.index rx base) s)

/-- Register by itself (R108). -/
def execSpecRegister (acc : Access) (dt : DType) (n : Reg) (s : State) :
    Host.Outcome State Fault Refusal :=
  outcome (operandAlone acc dt (.register n) s)

/-- Register deferred by itself (R109). -/
def execSpecRegisterDeferred (acc : Access) (dt : DType) (n : Reg) (s : State) :
    Host.Outcome State Fault Refusal :=
  outcome (operandAlone acc dt (.mem (.registerDeferred n)) s)

/-- Autodecrement by itself (R110). -/
def execSpecAutodecrement (acc : Access) (dt : DType) (n : Reg) (s : State) :
    Host.Outcome State Fault Refusal :=
  outcome (operandAlone acc dt (.mem (.autodecrement n)) s)

/-- Autoincrement by itself (R111). -/
def execSpecAutoincrement (acc : Access) (dt : DType) (n : Gpr) (s : State) :
    Host.Outcome State Fault Refusal :=
  outcome (operandAlone acc dt (.mem (.autoincrement n)) s)

/-- Immediate by itself (R121). -/
def execSpecImmediate (acc : Access) (dt : DType) (v : BitVec 128) (s : State) :
    Host.Outcome State Fault Refusal :=
  outcome (operandAlone acc dt (.immediate v) s)

/-- Autoincrement deferred by itself (R112). -/
def execSpecAutoincrementDeferred (acc : Access) (dt : DType) (n : Gpr) (s : State) :
    Host.Outcome State Fault Refusal :=
  outcome (operandAlone acc dt (.mem (.autoincrementDeferred n)) s)

/-- Absolute by itself (R122). -/
def execSpecAbsolute (acc : Access) (dt : DType) (addr : Word) (s : State) :
    Host.Outcome State Fault Refusal :=
  outcome (operandAlone acc dt (.mem (.absolute addr)) s)

/-- Byte displacement by itself (R113). -/
def execSpecByteDisplacement (acc : Access) (dt : DType) (n : Gpr) (disp : Byte) (s : State) :
    Host.Outcome State Fault Refusal :=
  outcome (operandAlone acc dt (.mem (.byteDisplacement n disp)) s)

/-- Byte relative by itself (R123). -/
def execSpecByteRelative (acc : Access) (dt : DType) (disp : Byte) (s : State) :
    Host.Outcome State Fault Refusal :=
  outcome (operandAlone acc dt (.mem (.byteRelative disp)) s)

/-- Byte displacement deferred by itself (R114). -/
def execSpecByteDisplacementDeferred (acc : Access) (dt : DType) (n : Gpr) (disp : Byte) (s : State) :
    Host.Outcome State Fault Refusal :=
  outcome (operandAlone acc dt (.mem (.byteDisplacementDeferred n disp)) s)

/-- Byte relative deferred by itself (R124). -/
def execSpecByteRelativeDeferred (acc : Access) (dt : DType) (disp : Byte) (s : State) :
    Host.Outcome State Fault Refusal :=
  outcome (operandAlone acc dt (.mem (.byteRelativeDeferred disp)) s)

/-- Word displacement by itself (R115). -/
def execSpecWordDisplacement (acc : Access) (dt : DType) (n : Gpr) (disp : BitVec 16) (s : State) :
    Host.Outcome State Fault Refusal :=
  outcome (operandAlone acc dt (.mem (.wordDisplacement n disp)) s)

/-- Word relative by itself (R125). -/
def execSpecWordRelative (acc : Access) (dt : DType) (disp : BitVec 16) (s : State) :
    Host.Outcome State Fault Refusal :=
  outcome (operandAlone acc dt (.mem (.wordRelative disp)) s)

/-- Word displacement deferred by itself (R116). -/
def execSpecWordDisplacementDeferred (acc : Access) (dt : DType) (n : Gpr) (disp : BitVec 16) (s : State) :
    Host.Outcome State Fault Refusal :=
  outcome (operandAlone acc dt (.mem (.wordDisplacementDeferred n disp)) s)

/-- Word relative deferred by itself (R126). -/
def execSpecWordRelativeDeferred (acc : Access) (dt : DType) (disp : BitVec 16) (s : State) :
    Host.Outcome State Fault Refusal :=
  outcome (operandAlone acc dt (.mem (.wordRelativeDeferred disp)) s)

/-- Longword displacement by itself (R117). -/
def execSpecLongwordDisplacement (acc : Access) (dt : DType) (n : Gpr) (disp : Word) (s : State) :
    Host.Outcome State Fault Refusal :=
  outcome (operandAlone acc dt (.mem (.longwordDisplacement n disp)) s)

/-- Longword relative by itself (R127). -/
def execSpecLongwordRelative (acc : Access) (dt : DType) (disp : Word) (s : State) :
    Host.Outcome State Fault Refusal :=
  outcome (operandAlone acc dt (.mem (.longwordRelative disp)) s)

/-- Longword displacement deferred by itself (R118). -/
def execSpecLongwordDisplacementDeferred (acc : Access) (dt : DType) (n : Gpr) (disp : Word) (s : State) :
    Host.Outcome State Fault Refusal :=
  outcome (operandAlone acc dt (.mem (.longwordDisplacementDeferred n disp)) s)

/-- Longword relative deferred by itself (R128). -/
def execSpecLongwordRelativeDeferred (acc : Access) (dt : DType) (disp : Word) (s : State) :
    Host.Outcome State Fault Refusal :=
  outcome (operandAlone acc dt (.mem (.longwordRelativeDeferred disp)) s)

end Sys2Proof.Machine
end

