-- ==== Sys2Proof/Machine/Dispatch.lean ====
section
/-! DEFINITION. What each instruction does: one arm for each row of the opcode table. -/

namespace Sys2Proof.Machine

open Sys2Proof

/-- The effect of an instruction whose first byte is at the program counter. -/
def exec (i : Instr) (s : State) : Host.Outcome State Fault Refusal :=
  match i with
  | .movb src dst => Sys2Proof.Machine.execMovb src dst s
  | .movw src dst => Sys2Proof.Machine.execMovw src dst s
  | .movl src dst => Sys2Proof.Machine.execMovl src dst s
  | .movq src dst => Sys2Proof.Machine.execMovq src dst s
  | .movzbw src dst => Sys2Proof.Machine.execMovzbw src dst s
  | .movzbl src dst => Sys2Proof.Machine.execMovzbl src dst s
  | .movab src dst => Sys2Proof.Machine.execMovab src dst s
  | .movaw src dst => Sys2Proof.Machine.execMovaw src dst s
  | .moval src dst => Sys2Proof.Machine.execMoval src dst s
  | .movaq src dst => Sys2Proof.Machine.execMovaq src dst s
  | .pushl src => Sys2Proof.Machine.execPushl src s
  | .addb2 add sum => Sys2Proof.Machine.execAddb2 add sum s
  | .addb3 add1 add2 sum => Sys2Proof.Machine.execAddb3 add1 add2 sum s
  | .addw2 add sum => Sys2Proof.Machine.execAddw2 add sum s
  | .addw3 add1 add2 sum => Sys2Proof.Machine.execAddw3 add1 add2 sum s
  | .addl2 add sum => Sys2Proof.Machine.execAddl2 add sum s
  | .addl3 add1 add2 sum => Sys2Proof.Machine.execAddl3 add1 add2 sum s
  | .subb2 sub dif => Sys2Proof.Machine.execSubb2 sub dif s
  | .subb3 sub min dif => Sys2Proof.Machine.execSubb3 sub min dif s
  | .subw2 sub dif => Sys2Proof.Machine.execSubw2 sub dif s
  | .subw3 sub min dif => Sys2Proof.Machine.execSubw3 sub min dif s
  | .subl2 sub dif => Sys2Proof.Machine.execSubl2 sub dif s
  | .subl3 sub min dif => Sys2Proof.Machine.execSubl3 sub min dif s
  | .cmpb src1 src2 => Sys2Proof.Machine.execCmpb src1 src2 s
  | .cmpw src1 src2 => Sys2Proof.Machine.execCmpw src1 src2 s
  | .cmpl src1 src2 => Sys2Proof.Machine.execCmpl src1 src2 s
  | .tstb src => Sys2Proof.Machine.execTstb src s
  | .tstw src => Sys2Proof.Machine.execTstw src s
  | .tstl src => Sys2Proof.Machine.execTstl src s
  | .ashl cnt src dst => Sys2Proof.Machine.execAshl cnt src dst s
  | .ashq cnt src dst => Sys2Proof.Machine.execAshq cnt src dst s
  | .clrb dst => Sys2Proof.Machine.execClrb dst s
  | .clrw dst => Sys2Proof.Machine.execClrw dst s
  | .clrl dst => Sys2Proof.Machine.execClrl dst s
  | .clrq dst => Sys2Proof.Machine.execClrq dst s
  | .cvtbw src dst => Sys2Proof.Machine.execCvtbw src dst s
  | .cvtbl src dst => Sys2Proof.Machine.execCvtbl src dst s
  | .beql displ => Sys2Proof.Machine.execBeql displ s
  | .bneq displ => Sys2Proof.Machine.execBneq displ s
  | .bleq displ => Sys2Proof.Machine.execBleq displ s
  | .bgeq displ => Sys2Proof.Machine.execBgeq displ s
  | .brb displ => Sys2Proof.Machine.execBrb displ s
  | .brw displ => Sys2Proof.Machine.execBrw displ s
  | .jmp dst => Sys2Proof.Machine.execJmp dst s
  | .aobleq limit index displ => Sys2Proof.Machine.execAobleq limit index displ s
  | .jsb dst => Sys2Proof.Machine.execJsb dst s
  | .caseb => Sys2Proof.Machine.execCaseb s
  | .casew => Sys2Proof.Machine.execCasew s
  | .casel => Sys2Proof.Machine.execCasel s
  | .calls => Sys2Proof.Machine.execCalls s
  | .callg => Sys2Proof.Machine.execCallg s
  | .ret => Sys2Proof.Machine.execRet s
  | .addf2 => Sys2Proof.Machine.execAddf2 s
  | .addf3 => Sys2Proof.Machine.execAddf3 s
  | .addd2 => Sys2Proof.Machine.execAddd2 s
  | .addd3 => Sys2Proof.Machine.execAddd3 s
  | .subd2 => Sys2Proof.Machine.execSubd2 s
  | .subd3 => Sys2Proof.Machine.execSubd3 s
  | .mulf2 => Sys2Proof.Machine.execMulf2 s
  | .mulf3 => Sys2Proof.Machine.execMulf3 s
  | .polyf => Sys2Proof.Machine.execPolyf s
  | .crc => Sys2Proof.Machine.execCrc s
  | .insque => Sys2Proof.Machine.execInsque s
  | .specLiteral acc dt lit => Sys2Proof.Machine.execSpecLiteral acc dt lit s
  | .specIndex acc dt rx base => Sys2Proof.Machine.execSpecIndex acc dt rx base s
  | .specRegister acc dt n => Sys2Proof.Machine.execSpecRegister acc dt n s
  | .specRegisterDeferred acc dt n => Sys2Proof.Machine.execSpecRegisterDeferred acc dt n s
  | .specAutodecrement acc dt n => Sys2Proof.Machine.execSpecAutodecrement acc dt n s
  | .specAutoincrement acc dt n => Sys2Proof.Machine.execSpecAutoincrement acc dt n s
  | .specImmediate acc dt v => Sys2Proof.Machine.execSpecImmediate acc dt v s
  | .specAutoincrementDeferred acc dt n => Sys2Proof.Machine.execSpecAutoincrementDeferred acc dt n s
  | .specAbsolute acc dt addr => Sys2Proof.Machine.execSpecAbsolute acc dt addr s
  | .specByteDisplacement acc dt n disp => Sys2Proof.Machine.execSpecByteDisplacement acc dt n disp s
  | .specByteRelative acc dt disp => Sys2Proof.Machine.execSpecByteRelative acc dt disp s
  | .specByteDisplacementDeferred acc dt n disp => Sys2Proof.Machine.execSpecByteDisplacementDeferred acc dt n disp s
  | .specByteRelativeDeferred acc dt disp => Sys2Proof.Machine.execSpecByteRelativeDeferred acc dt disp s
  | .specWordDisplacement acc dt n disp => Sys2Proof.Machine.execSpecWordDisplacement acc dt n disp s
  | .specWordRelative acc dt disp => Sys2Proof.Machine.execSpecWordRelative acc dt disp s
  | .specWordDisplacementDeferred acc dt n disp => Sys2Proof.Machine.execSpecWordDisplacementDeferred acc dt n disp s
  | .specWordRelativeDeferred acc dt disp => Sys2Proof.Machine.execSpecWordRelativeDeferred acc dt disp s
  | .specLongwordDisplacement acc dt n disp => Sys2Proof.Machine.execSpecLongwordDisplacement acc dt n disp s
  | .specLongwordRelative acc dt disp => Sys2Proof.Machine.execSpecLongwordRelative acc dt disp s
  | .specLongwordDisplacementDeferred acc dt n disp => Sys2Proof.Machine.execSpecLongwordDisplacementDeferred acc dt n disp s
  | .specLongwordRelativeDeferred acc dt disp => Sys2Proof.Machine.execSpecLongwordRelativeDeferred acc dt disp s

end Sys2Proof.Machine
end

