-- ==== Sys2Proof/Machine/Step.lean ====
section
/-! DEFINITION. One step of the machine (R293, R294), and placing an instruction where the next step fetches it. -/

namespace Sys2Proof.Machine

open Sys2Proof

/-- The bytes from the program counter on, as memory holds them (R54): what the decoder is given. Whether each may be
fetched is checked where the pseudocode fetches it (R14). -/
def State.window (s : State) : List Byte := windowFrom s.mem s.pc fetchWindow

/-- The opcode fetch of a step that finds no instruction (R62, R74, R294): one byte, or two after an escape byte. -/
def refuseOpcode (op : Byte) (second : Option Byte) (s : State) : Except Stop State := do
  let s ← fetch 1 s
  match second with
  | none => raiseRefuse (.opcodeNotInMap op none)
  | some op2 => do
    let _ ← fetch 1 s
    raiseRefuse (.opcodeNotInMap op (some op2))

/-- `Step` (R294). At `END_PC` the run has ended and the state is final (R293): the step leaves it as it is. -/
def step (s : State) : Host.Outcome State Fault Refusal :=
  if s.pc = s.params.endPC then .next s
  else
    match decode s.params.opcodeMap s.window with
    | .instr i => exec i s
    | .unknown op => outcome (refuseOpcode op none s)
    | .twoByte op op2 => outcome (refuseOpcode op (some op2) s)

/-- `s` with the instruction whose bits are `w`, all further bits 0, at the program counter, as a launch would place it:
its bytes are in memory, the bytes of the instruction are code and readable, and the run does not end there. -/
def State.withFetchWord (s : State) (nbits w : Nat) : State :=
  { s with
    mem := storeBytes s.mem s.pc fetchWindow (w % 2 ^ nbits)
    params := placeCode s.params s.pc (placedLength s.params.opcodeMap (leBytes fetchWindow (w % 2 ^ nbits))) }

end Sys2Proof.Machine
end

