-- ==== Sys2Proof/Safety.lean ====
section
/-! DEFINITION. The terms in which claims speak: which accesses memory admits, when an operand specifier is legal and can be
evaluated, where its operand is and what its evaluation leaves, each written as a plain function of the state, not as the
machine's pseudocode; and what a safe run is. -/

namespace Sys2Proof

open Machine

/-! ## Accesses (R14, R42, R43) -/

/-- The `n` bytes from `a` may be read (R42). -/
def Machine.State.ReadableFrom (s : State) (a : Word) (n : Nat) : Prop :=
  ∀ k : Nat, k < n → s.isReadable (a + BitVec.ofNat 32 k) = true

/-- The `n` bytes from `a` may be written: they are writable, and none is code (R43). -/
def Machine.State.WritableFrom (s : State) (a : Word) (n : Nat) : Prop :=
  ∀ k : Nat, k < n → s.isWritable (a + BitVec.ofNat 32 k) = true ∧ s.isCode (a + BitVec.ofNat 32 k) = false

/-- The next `n` bytes of the instruction stream may be fetched: they are code, and readable (R14). -/
def Machine.State.Fetchable (s : State) (n : Nat) : Prop :=
  ∀ k : Nat, k < n → s.isCode (s.pc + BitVec.ofNat 32 k) = true ∧ s.isReadable (s.pc + BitVec.ofNat 32 k) = true

/-- The longword at an address (R44). -/
def Machine.State.longAt (s : State) (p : Word) : Word := BitVec.ofNat 32 (loadBytes s.mem p 4)

/-- The state with the program counter `n` bytes on (R24). -/
def Machine.State.advance (s : State) (n : Nat) : State := s.setPc (s.pc + BitVec.ofNat 32 n)

/-! ## The modes that designate memory -/

/-- How many bytes follow the specifier byte (the "Ext." column of R66 and R67). -/
def MemSpec.ext : MemSpec → Nat
  | .registerDeferred _ => 0
  | .autodecrement _ => 0
  | .autoincrement _ => 0
  | .autoincrementDeferred _ => 0
  | .absolute _ => 4
  | .byteDisplacement _ _ => 1
  | .byteRelative _ => 1
  | .byteDisplacementDeferred _ _ => 1
  | .byteRelativeDeferred _ => 1
  | .wordDisplacement _ _ => 2
  | .wordRelative _ => 2
  | .wordDisplacementDeferred _ _ => 2
  | .wordRelativeDeferred _ => 2
  | .longwordDisplacement _ _ => 4
  | .longwordRelative _ => 4
  | .longwordDisplacementDeferred _ _ => 4
  | .longwordRelativeDeferred _ => 4

/-- The general register the mode reads, if any. -/
def MemSpec.reads : MemSpec → Option Reg
  | .registerDeferred n => some n
  | .autodecrement n => some n
  | .autoincrement n => some n.reg
  | .autoincrementDeferred n => some n.reg
  | .absolute _ => none
  | .byteDisplacement n _ => some n.reg
  | .byteRelative _ => none
  | .byteDisplacementDeferred n _ => some n.reg
  | .byteRelativeDeferred _ => none
  | .wordDisplacement n _ => some n.reg
  | .wordRelative _ => none
  | .wordDisplacementDeferred n _ => some n.reg
  | .wordRelativeDeferred _ => none
  | .longwordDisplacement n _ => some n.reg
  | .longwordRelative _ => none
  | .longwordDisplacementDeferred n _ => some n.reg
  | .longwordRelativeDeferred _ => none

/-- Where the mode reads the operand's address from, if it is a deferred mode, in a state whose program counter is past
the specifier (R112, R114, R116, R118, R124, R126, R128). -/
def MemSpec.pointer (s : State) : MemSpec → Option Word
  | .registerDeferred _ => none
  | .autodecrement _ => none
  | .autoincrement _ => none
  | .autoincrementDeferred n => some (s.reg n.reg)
  | .absolute _ => none
  | .byteDisplacement _ _ => none
  | .byteRelative _ => none
  | .byteDisplacementDeferred n disp => some (s.reg n.reg + disp.signExtend 32)
  | .byteRelativeDeferred disp => some (s.pc + disp.signExtend 32)
  | .wordDisplacement _ _ => none
  | .wordRelative _ => none
  | .wordDisplacementDeferred n disp => some (s.reg n.reg + disp.signExtend 32)
  | .wordRelativeDeferred disp => some (s.pc + disp.signExtend 32)
  | .longwordDisplacement _ _ => none
  | .longwordRelative _ => none
  | .longwordDisplacementDeferred n disp => some (s.reg n.reg + disp)
  | .longwordRelativeDeferred disp => some (s.pc + disp)

/-- The operand's address, for an operand of `d` bytes, in a state whose program counter is past the specifier and whose
registers are not stepped yet (R109 to R118, R122 to R128). -/
def MemSpec.operandAddress (d : Nat) (s : State) : MemSpec → Word
  | .registerDeferred n => s.reg n
  | .autodecrement n => s.reg n - BitVec.ofNat 32 d
  | .autoincrement n => s.reg n.reg
  | .autoincrementDeferred n => s.longAt (s.reg n.reg)
  | .absolute addr => addr
  | .byteDisplacement n disp => s.reg n.reg + disp.signExtend 32
  | .byteRelative disp => s.pc + disp.signExtend 32
  | .byteDisplacementDeferred n disp => s.longAt (s.reg n.reg + disp.signExtend 32)
  | .byteRelativeDeferred disp => s.longAt (s.pc + disp.signExtend 32)
  | .wordDisplacement n disp => s.reg n.reg + disp.signExtend 32
  | .wordRelative disp => s.pc + disp.signExtend 32
  | .wordDisplacementDeferred n disp => s.longAt (s.reg n.reg + disp.signExtend 32)
  | .wordRelativeDeferred disp => s.longAt (s.pc + disp.signExtend 32)
  | .longwordDisplacement n disp => s.reg n.reg + disp
  | .longwordRelative disp => s.pc + disp
  | .longwordDisplacementDeferred n disp => s.longAt (s.reg n.reg + disp)
  | .longwordRelativeDeferred disp => s.longAt (s.pc + disp)

/-- What the mode adds to its register, for an operand of `d` bytes (R110 to R112, R119). -/
def MemSpec.stepBy (d : Nat) : MemSpec → Word
  | .registerDeferred _ => 0
  | .autodecrement _ => -BitVec.ofNat 32 d
  | .autoincrement _ => BitVec.ofNat 32 d
  | .autoincrementDeferred _ => 4
  | .absolute _ => 0
  | .byteDisplacement _ _ => 0
  | .byteRelative _ => 0
  | .byteDisplacementDeferred _ _ => 0
  | .byteRelativeDeferred _ => 0
  | .wordDisplacement _ _ => 0
  | .wordRelative _ => 0
  | .wordDisplacementDeferred _ _ => 0
  | .wordRelativeDeferred _ => 0
  | .longwordDisplacement _ _ => 0
  | .longwordRelative _ => 0
  | .longwordDisplacementDeferred _ _ => 0
  | .longwordRelativeDeferred _ => 0

/-- The program counter may not be the register of modes 6 and 7 (R130). -/
def MemSpec.Legal (m : MemSpec) : Prop := m ≠ .registerDeferred pcReg ∧ m ≠ .autodecrement pcReg

/-- The mode can be evaluated in a state whose program counter is past the specifier: it is legal, its register holds a
value, and the operand's address may be read. -/
def MemSpec.Ready (s : State) (m : MemSpec) : Prop :=
  m.Legal ∧ (∀ n, m.reads = some n → s.isWritten n = true) ∧ (∀ p, m.pointer s = some p → s.ReadableFrom p 4)

/-- The register the mode steps takes its new value (R119); every other mode leaves the state alone. -/
def MemSpec.after (d : Nat) (s : State) (m : MemSpec) : State :=
  match steppedReg m with
  | some n => s.setReg n (s.reg n + m.stepBy d)
  | none => s

/-! ## Operand specifiers -/

/-- The length of a specifier in bytes (R70). -/
def Spec.len (t : DType) : Spec → Nat
  | .literal _ => 1
  | .index _ (.mem m) => 2 + m.ext
  | .index _ (.forbidden _) => 2
  | .register _ => 1
  | .immediate _ => 1 + t.size
  | .mem m => 1 + m.ext

/-- The mode of a specifier that designates memory, directly or as an index base. -/
def Spec.memMode : Spec → Option MemSpec
  | .literal _ => none
  | .index _ (.mem m) => some m
  | .index _ (.forbidden _) => none
  | .register _ => none
  | .immediate _ => none
  | .mem m => some m

/-- The register a specifier steps, if any: `Modified` of R135. -/
def Spec.steps (x : Spec) : Option Reg := x.memMode.bind steppedReg

/-- The registers a specifier uses in register mode: `RegUsed` of R135. -/
def Spec.uses (t : DType) : Spec → List Reg
  | .register n => operandRegs t n
  | .literal _ => []
  | .index _ _ => []
  | .immediate _ => []
  | .mem _ => []

/-- Which specifier may serve which access to which type: the entries "ok" of R132, with R23, R104, R105 and R107. -/
def Spec.Legal (ext : ShortLiteralExt) (acc : Access) (t : DType) : Spec → Prop
  | .literal lit => acc = .r ∧ t.isFloat = false ∧ (lit.msb = true → ext ≠ .undecided)
  | .index rx (.mem m) => rx ≠ pcReg ∧ m.Legal ∧ steppedReg m ≠ some rx
  | .index _ (.forbidden _) => False
  | .register n => acc ≠ .a ∧ n ≠ pcReg ∧ (t.size = 8 → n.val < 14) ∧ (t.size = 16 → n.val < 12)
  | .immediate _ => acc = .r
  | .mem m => m.Legal

/-- A specifier can be evaluated at the program counter: it is legal for its access, its bytes may be fetched, the
registers it computes an address from hold values, and a deferred mode's pointer may be read. -/
def Spec.Ready (acc : Access) (t : DType) (s : State) (x : Spec) : Prop :=
  x.Legal s.params.shortLiteralExt acc t ∧ s.Fetchable (x.len t) ∧
    (∀ m, x.memMode = some m → m.Ready (s.advance (x.len t))) ∧
    (∀ rx base, x = .index rx base → s.isWritten rx = true)

/-- The state a specifier's evaluation leaves (R119): the program counter past it, and its register stepped. -/
def Spec.after (t : DType) (s : State) (x : Spec) : State :=
  match x.memMode with
  | some m => m.after t.size (s.advance (x.len t))
  | none => s.advance (x.len t)

/-- The value of a short literal (R104). An undecided one with its high bit set has none, and is not legal. -/
def literalValue (ext : ShortLiteralExt) (t : DType) (lit : BitVec 6) : BitVec t.bits :=
  if lit.msb = true ∧ ext = .signed then lit.signExtend t.bits else lit.setWidth t.bits

/-- Where the operand is (R102), from the state before its specifier. -/
def Spec.loc (t : DType) (s : State) (x : Spec) : Loc t :=
  match x with
  | .literal lit => .lit (literalValue s.params.shortLiteralExt t lit)
  | .index rx (.mem m) =>
    .mem (m.operandAddress t.size (s.advance (x.len t)) + s.reg rx * BitVec.ofNat 32 t.size)
  | .index _ (.forbidden _) => .lit 0
  | .register n => .reg n
  | .immediate v => .lit (v.setWidth t.bits)
  | .mem m => .mem (m.operandAddress t.size (s.advance (x.len t)))

/-- An operand specifier by itself, as an instruction (the specifier rows of the opcode table). -/
def Instr.alone (acc : Access) (dt : DType) : Spec → Instr
  | .literal lit => .specLiteral acc dt lit
  | .index rx base => .specIndex acc dt rx base
  | .register n => .specRegister acc dt n
  | .immediate v => .specImmediate acc dt v
  | .mem (.registerDeferred n) => .specRegisterDeferred acc dt n
  | .mem (.autodecrement n) => .specAutodecrement acc dt n
  | .mem (.autoincrement n) => .specAutoincrement acc dt n
  | .mem (.autoincrementDeferred n) => .specAutoincrementDeferred acc dt n
  | .mem (.absolute addr) => .specAbsolute acc dt addr
  | .mem (.byteDisplacement n disp) => .specByteDisplacement acc dt n disp
  | .mem (.byteRelative disp) => .specByteRelative acc dt disp
  | .mem (.byteDisplacementDeferred n disp) => .specByteDisplacementDeferred acc dt n disp
  | .mem (.byteRelativeDeferred disp) => .specByteRelativeDeferred acc dt disp
  | .mem (.wordDisplacement n disp) => .specWordDisplacement acc dt n disp
  | .mem (.wordRelative disp) => .specWordRelative acc dt disp
  | .mem (.wordDisplacementDeferred n disp) => .specWordDisplacementDeferred acc dt n disp
  | .mem (.wordRelativeDeferred disp) => .specWordRelativeDeferred acc dt disp
  | .mem (.longwordDisplacement n disp) => .specLongwordDisplacement acc dt n disp
  | .mem (.longwordRelative disp) => .specLongwordRelative acc dt disp
  | .mem (.longwordDisplacementDeferred n disp) => .specLongwordDisplacementDeferred acc dt n disp
  | .mem (.longwordRelativeDeferred disp) => .specLongwordRelativeDeferred acc dt disp

/-! ## Operands -/

/-- The operand at a location may be read (R22, R23, R34, R42). -/
def Machine.Loc.Readable {t : DType} (s : State) : Loc t → Prop
  | .lit _ => True
  | .reg n => ∀ k ∈ operandRegs t n, s.isWritten k = true
  | .mem a => s.ReadableFrom a t.size

/-- The registers of an operand as one value, the first least significant (R22, R23). -/
def Machine.State.regGroup (s : State) (n : Reg) : BitVec 128 := s.reg (n + 3) ++ s.reg (n + 2) ++ s.reg (n + 1) ++ s.reg n

/-- The operand at a location (R22, R23, R44). -/
def Machine.Loc.value {t : DType} (s : State) : Loc t → BitVec t.bits
  | .lit v => v
  | .reg n => (s.regGroup n).setWidth t.bits
  | .mem a => BitVec.ofNat t.bits (loadBytes s.mem a t.size)

/-- The value of an operand with access `r` or `m`: read at its location as soon as its specifier has been evaluated
(R133). -/
def Spec.read (t : DType) (s : State) (x : Spec) : BitVec t.bits := (x.loc t s).value (x.after t s)

/-- The operand at a location may be written: a narrow register operand keeps, and so reads, the register's high bits
(R22, R34, R43). -/
def Machine.Loc.Writable {t : DType} (s : State) : Loc t → Prop
  | .lit _ => False
  | .reg n => t.size < 4 → s.isWritten n = true
  | .mem a => s.WritableFrom a t.size

/-- The state with a value at a location (R22, R23, R43). -/
def Machine.Loc.store {t : DType} (s : State) (v : BitVec t.bits) : Loc t → State
  | .lit _ => s
  | .reg n =>
    if t.size < 4 then s.setReg n (mergeLow (s.reg n) v)
    else if t.size = 4 then s.setReg n (v.setWidth 32)
    else if t.size = 8 then (s.setReg n (v.setWidth 32)).setReg (n + 1) ((v >>> 32).setWidth 32)
    else
      (((s.setReg n (v.setWidth 32)).setReg (n + 1) ((v >>> 32).setWidth 32)).setReg (n + 2)
        ((v >>> 64).setWidth 32)).setReg (n + 3) ((v >>> 96).setWidth 32)
  | .mem a => { s with mem := storeBytes s.mem a t.size v.toNat }

/-- An operand can be evaluated: its specifier can, and for access `r` or `m` its value may then be read (R133). -/
def Operand.Ready (s : State) (o : Operand) : Prop :=
  o.spec.Ready o.acc o.dt s ∧
    (o.acc = .r ∨ o.acc = .m → (o.spec.loc o.dt s).Readable (o.spec.after o.dt s))

/-- The state after operands have been evaluated one after another (R133). -/
def operandsAfter : List Operand → State → State
  | [], s => s
  | o :: os, s => operandsAfter os (o.spec.after o.dt s)

/-- Operands can be evaluated one after another, each in the state the earlier ones leave (R133). -/
def OperandsReady : List Operand → State → Prop
  | [], _ => True
  | o :: os, s => o.Ready s ∧ OperandsReady os (o.spec.after o.dt s)

/-- A register is used in register mode by one operand and stepped by another (R134). -/
def Hazardous (os : List Operand) : Prop :=
  ∃ k : Reg, (∃ o ∈ os, o.spec.steps = some k) ∧ (∃ o ∈ os, k ∈ o.spec.uses o.dt)

/-- The hazard check of R134 lets the operands pass. -/
def HazardFree (s : State) (os : List Operand) : Prop := s.params.strictRegHazard = true → ¬ Hazardous os

/-- The state after an instruction's opcode byte. -/
def Machine.State.start (s : State) : State := s.advance 1

/-- An instruction's opcode and operands can be evaluated, without a register hazard (R135). -/
def Instr.Ready (s : State) (i : Instr) : Prop :=
  s.Fetchable 1 ∧ OperandsReady i.operands s.start ∧ HazardFree s i.operands

/-- The state after an instruction's opcode and operands (R135). -/
def Instr.operandsDone (s : State) (i : Instr) : State := operandsAfter i.operands s.start

/-- The operand specifier through which an instruction writes its result, if it has one: its operand with access `w` or
`m`, which is its last (R77). A specifier by itself writes nothing. -/
def Instr.destination (i : Instr) : Option Operand :=
  if i.opcode? = none then none
  else i.operands.find? fun o => o.acc == .w || o.acc == .m

/-- The state in which the destination's specifier is evaluated: after the operands before it (R133). -/
def Instr.beforeDestination (s : State) (i : Instr) : State := operandsAfter i.operands.dropLast s.start

/-- The address a location is, when it is in memory. -/
def Machine.Loc.address? {t : DType} : Loc t → Option Word
  | .lit _ => none
  | .reg _ => none
  | .mem a => some a

/-- The address an instruction's result is stored at, when its destination is in memory (R102, R135). `Spec.loc` is what
the machine's `evalSpec` answers (`evalSpec_ok`). -/
def Instr.storeAddress (s : State) (i : Instr) : Option Word :=
  i.destination.bind fun o => (o.spec.loc o.dt (i.beforeDestination s)).address?

/-- An address lies among the `n` bytes from `p` (addresses wrap, R11). -/
def Among (a p : Word) (n : Nat) : Prop := ∃ k : Nat, k < n ∧ a = p + BitVec.ofNat 32 k

/-! ## Safe runs -/

/-- The machine can take a step here without a fault or a refusal. -/
def Safe (s : State) : Prop := ∃ t, step s = .next t

/-- Every register and flag holds a value, so that no read of one faults (R34). -/
def Machine.State.AllWritten (s : State) : Prop :=
  (∀ n : Reg, n ≠ pcReg → s.isWritten n = true) ∧ ∀ f : Flag, s.ccWritten.get f = true

/-- What a state has and every step keeps: memory in its canonical form. -/
def Machine.State.Canonical (s : State) : Prop := s.mem.wf = true

end Sys2Proof
end

