-- ==== Sys2Proof/Certificates/Slice0/Obligations.lean ====
section
/-! DEFINITION. The statements for the provers, and the predicates that several of them share. A docstring names the rule of
the spec a statement formalises. -/

namespace Sys2Proof.Claims

open Sys2Proof Machine

/-! ## Shared forms of statements -/

/-- A mode that designates memory, evaluated by itself at the program counter of `s` for an operand of type `dt`: under
every access the operand is at `a`, the state becomes `t`, and `stepped` are the registers stepped; the operand is read
for access `r` and `m` only, and the first of its bytes that may not be read faults (R102, R119, R133). -/
def AddressMode (m : MemSpec) (mk : Access → DType → Instr) (dt : DType) (s t : State) (a : Word)
    (stepped : List Reg) : Prop :=
  (∀ acc, evalSpec acc dt (.mem m) (Ctx.start s) = .ok (.mem a, ⟨t, stepped, []⟩)) ∧
    (∀ acc, (acc = .r ∨ acc = .m → t.ReadableFrom a dt.size) → exec (mk acc dt) s = .next t) ∧
    ∀ (acc : Access) (k : Nat), (acc = .r ∨ acc = .m) → k < dt.size → t.ReadableFrom a k →
      t.isReadable (a + BitVec.ofNat 32 k) = false →
        exec (mk acc dt) s = .fault (.accessViolation (a + BitVec.ofNat 32 k) .read)

/-- A deferred mode by itself: the operand's address is the longword at `p`; if it may not be read, that fault is the
outcome (R112, R114, R124). -/
def DeferredMode (m : MemSpec) (mk : Access → DType → Instr) (dt : DType) (s u t : State) (p : Word)
    (stepped : List Reg) : Prop :=
  (∀ a, memRead p 4 u = .ok a → AddressMode m mk dt s t a stepped) ∧
    ∀ (acc : Access) (k : Nat), k < 4 → u.ReadableFrom p k → u.isReadable (p + BitVec.ofNat 32 k) = false →
      exec (mk acc dt) s = .fault (.accessViolation (p + BitVec.ofNat 32 k) .read)

/-- `mov<t>` (R150): the source's value goes to the destination, and sets `N` and `Z`. -/
def Moves (t : DType) (mk : Spec → Spec → Instr) : Prop :=
  ∀ (src dst : Spec) (s : State), (mk src dst).Ready s →
    let v := src.read t s.start
    let d := dst.loc t (src.after t s.start)
    let done := dst.after t (src.after t s.start)
    d.Writable done → exec (mk src dst) s = .next ((d.store done v).setNZV v.msb (v == 0) false)

/-- `movzb<t>` (R155): the byte is extended with zeros. -/
def MovesZeroExtended (t : DType) (mk : Spec → Spec → Instr) : Prop :=
  ∀ (src dst : Spec) (s : State), (mk src dst).Ready s →
    let v : BitVec t.bits := (src.read .b s.start).setWidth t.bits
    let d := dst.loc t (src.after .b s.start)
    let done := dst.after t (src.after .b s.start)
    d.Writable done → exec (mk src dst) s = .next ((d.store done v).setNZV false (v == 0) false)

/-- `mova<t>` (R159): the address of the source goes to the destination; nothing need be readable there. -/
def MovesAddress (t : DType) (mk : Spec → Spec → Instr) : Prop :=
  ∀ (src dst : Spec) (s : State), (mk src dst).Ready s →
    let d := dst.loc .l (src.after t s.start)
    let done := dst.after .l (src.after t s.start)
    d.Writable done →
      ∃ a : Word, src.loc t s.start = .mem a ∧
        exec (mk src dst) s = .next ((Loc.store (t := .l) done a d).setNZV a.msb (a == 0) false)

/-- Signed overflow of the sum `a + b` (R170). -/
def sumOverflows {w : Nat} (a b : BitVec w) : Bool := a.msb == b.msb && (a + b).msb != a.msb

/-- The state with the sum of `a` and `b` at `d`, and its flags set (R170). -/
def summed {t : DType} (a b : BitVec t.bits) (d : Loc t) (s : State) : State :=
  (d.store s (a + b)).setNZVC
    { n := (a + b).msb, z := a + b == 0, v := sumOverflows a b, c := decide (2 ^ t.bits ≤ a.toNat + b.toNat) }

/-- Signed overflow of the difference `m - x` (R177). -/
def differenceOverflows {w : Nat} (m x : BitVec w) : Bool := m.msb != x.msb && (m - x).msb != m.msb

/-- The state with the minuend `m` less the subtrahend `x` at `d`, and its flags set (R177). -/
def subtracted {t : DType} (m x : BitVec t.bits) (d : Loc t) (s : State) : State :=
  (d.store s (m - x)).setNZVC
    { n := (m - x).msb, z := m - x == 0, v := differenceOverflows m x, c := decide (m.toNat < x.toNat) }

/-- A two-operand instruction that combines its operands into its second one: its first operand `a`, its second `b`
and its location go to `next` unless the overflow of `a` and `b` is trapped, and then the trap is the outcome. -/
def Combines2 (t : DType) (mk : Spec → Spec → Instr) (overflows : BitVec t.bits → BitVec t.bits → Bool)
    (next : BitVec t.bits → BitVec t.bits → Loc t → State → State) : Prop :=
  ∀ (x y : Spec) (s : State), (mk x y).Ready s →
    let a := x.read t s.start
    let b := y.read t (x.after t s.start)
    let d := y.loc t (x.after t s.start)
    let done := y.after t (x.after t s.start)
    d.Writable done → ¬ (s.iv = true ∧ overflows a b = true) → exec (mk x y) s = .next (next a b d done)

/-- A three-operand instruction that combines its first two operands into its third. -/
def Combines3 (t : DType) (mk : Spec → Spec → Spec → Instr) (overflows : BitVec t.bits → BitVec t.bits → Bool)
    (next : BitVec t.bits → BitVec t.bits → Loc t → State → State) : Prop :=
  ∀ (x y z : Spec) (s : State), (mk x y z).Ready s →
    let a := x.read t s.start
    let b := y.read t (x.after t s.start)
    let d := z.loc t (y.after t (x.after t s.start))
    let done := z.after t (y.after t (x.after t s.start))
    d.Writable done → ¬ (s.iv = true ∧ overflows a b = true) → exec (mk x y z) s = .next (next a b d done)

/-- With the trap enabled, a two-operand instruction whose operands overflow ends with the trap. -/
def Traps2 (t : DType) (mk : Spec → Spec → Instr) (overflows : BitVec t.bits → BitVec t.bits → Bool) : Prop :=
  ∀ (x y : Spec) (s : State), (mk x y).Ready s →
    (y.loc t (x.after t s.start)).Writable (y.after t (x.after t s.start)) → s.iv = true →
      overflows (x.read t s.start) (y.read t (x.after t s.start)) = true → exec (mk x y) s = .fault .integerOverflow

/-- With the trap enabled, a three-operand instruction whose operands overflow ends with the trap. -/
def Traps3 (t u : DType) (mk : Spec → Spec → Spec → Instr) (overflows : BitVec t.bits → BitVec u.bits → Bool) :
    Prop :=
  ∀ (x y z : Spec) (s : State), (mk x y z).Ready s →
    (z.loc u (y.after u (x.after t s.start))).Writable (z.after u (y.after u (x.after t s.start))) → s.iv = true →
      overflows (x.read t s.start) (y.read u (x.after t s.start)) = true →
        exec (mk x y z) s = .fault .integerOverflow

/-- `cmp<t>` (R184): the first operand against the second. -/
def Compares (t : DType) (mk : Spec → Spec → Instr) : Prop :=
  ∀ (x y : Spec) (s : State), (mk x y).Ready s →
    let a := x.read t s.start
    let b := y.read t (x.after t s.start)
    exec (mk x y) s = .next ((y.after t (x.after t s.start)).setNZVC
      { n := decide (a.toInt < b.toInt), z := decide (a = b), v := false, c := decide (a.toNat < b.toNat) })

/-- `tst<t>` (R188): the operand against zero. -/
def Tests (t : DType) (mk : Spec → Instr) : Prop :=
  ∀ (x : Spec) (s : State), (mk x).Ready s →
    let a := x.read t s.start
    exec (mk x) s = .next ((x.after t s.start).setNZVC { n := a.msb, z := decide (a = 0), v := false, c := false })

/-- The exact result of shifting `x` by `k`: `x * 2^k`, or the floor of `x / 2^(-k)` (R192). -/
def shifted (k x : Int) : Int := if 0 ≤ k then x * 2 ^ k.toNat else x / 2 ^ (-k).toNat

/-- A left shift's exact result does not fit `w` bits (R192). -/
def shiftOverflows {w : Nat} (k : Byte) (x : BitVec w) : Bool :=
  decide (0 ≤ k.toInt ∧
    (shifted k.toInt x.toInt < -2 ^ (w - 1) ∨ (2 ^ (w - 1) : Int) - 1 < shifted k.toInt x.toInt))

/-- `ash<t>` (R192). -/
def Shifts (t : DType) (mk : Spec → Spec → Spec → Instr) : Prop :=
  ∀ (cnt src dst : Spec) (s : State), (mk cnt src dst).Ready s →
    let k := cnt.read .b s.start
    let x := src.read t (cnt.after .b s.start)
    let d := dst.loc t (src.after t (cnt.after .b s.start))
    let done := dst.after t (src.after t (cnt.after .b s.start))
    let r : BitVec t.bits := BitVec.ofInt t.bits (shifted k.toInt x.toInt)
    d.Writable done → ¬ (s.iv = true ∧ shiftOverflows k x = true) →
      exec (mk cnt src dst) s =
        .next ((d.store done r).setNZVC { n := r.msb, z := r == 0, v := shiftOverflows k x, c := false })

/-- `clr<t>` (R195): zero goes to the destination, which need not be readable. -/
def Clears (t : DType) (mk : Spec → Instr) : Prop :=
  ∀ (dst : Spec) (s : State), (mk dst).Ready s →
    let d := dst.loc t s.start
    let done := dst.after t s.start
    d.Writable done → exec (mk dst) s = .next ((d.store done 0).setNZV false true false)

/-- `cvtb<t>` (R200): the byte is extended with its sign. -/
def ConvertsByte (t : DType) (mk : Spec → Spec → Instr) : Prop :=
  ∀ (src dst : Spec) (s : State), (mk src dst).Ready s →
    let v : BitVec t.bits := (src.read .b s.start).signExtend t.bits
    let d := dst.loc t (src.after .b s.start)
    let done := dst.after t (src.after .b s.start)
    d.Writable done →
      exec (mk src dst) s = .next ((d.store done v).setNZVC { n := v.msb, z := v == 0, v := false, c := false })

/-- A conditional branch that tests `cond` of the flags, having read the flags `read` (R210): taken, it goes to the next
instruction plus the displacement; not taken, to the next instruction. -/
def Branches (mk : Byte → Instr) (read : List Flag) (cond : CondCodes → Bool) : Prop :=
  ∀ (displ : Byte) (s : State), s.Fetchable 2 → (∀ f ∈ read, s.ccWritten.get f = true) →
    exec (mk displ) s = .next (s.setPc (if cond s.cc then s.pc + 2 + displ.signExtend 32 else s.pc + 2))

/-- A named instruction and its opcode byte (R74): its execution is refused by name once the opcode is fetched, and so is
a step that finds the byte at the program counter. -/
def RefusedByName (op : Opcode) (i : Instr) (b : Byte) : Prop :=
  ∀ s : State, s.Fetchable 1 →
    exec i s = .refused (.unmodelled op) ∧
      (s.params.opcodeMap = defaultOpcodeMap → s.pc ≠ s.params.endPC → s.byteAt s.pc = b →
        step s = .refused (.unmodelled op))

/-- The execution of `i` stops for the write of the byte at `a + k`, when the bytes before it may be written: it faults if
that byte is not writable, and is refused if it is code (R43). -/
def WriteStops (i : Instr) (s : State) (a : Word) (k : Nat) : Prop :=
  s.WritableFrom a k →
    (s.isWritable (a + BitVec.ofNat 32 k) = false →
      exec i s = .fault (.accessViolation (a + BitVec.ofNat 32 k) .write)) ∧
    (s.isWritable (a + BitVec.ofNat 32 k) = true → s.isCode (a + BitVec.ofNat 32 k) = true →
      exec i s = .refused (.storeIntoCode (a + BitVec.ofNat 32 k)))

end Sys2Proof.Claims

open Sys2Proof Machine Claims

/-! ## Encoding -/

/-- Decoding the encoding of a well-formed instruction, whatever follows it, gives the instruction back: every opcode,
every mode, every operand value (R60, R65 to R69, R72, R75). -/
def Obligations.DecodeEncode : Prop :=
  ∀ (i : Instr) (rest : List Byte), i.opcode? ≠ none → i.wf = true →
    decode defaultOpcodeMap (encode i ++ rest) = .instr i

/-- A specifier's bytes have one reading, which is well formed and encodes to just those bytes (R65 to R69). No specifier
is longer than 17 bytes. -/
def Obligations.SpecifierBytesAreItsEncoding : Prop :=
  ∀ (t : DType) (bs : List Byte), 17 ≤ bs.length →
    encodeSpec t (decodeSpec t bs).1 ++ (decodeSpec t bs).2 = bs ∧ (decodeSpec t bs).1.wf t = true

/-- `SpecLen` of R70 is the length of a specifier's encoding; and an instruction's length is that of its opcode, of its
specifiers and of its branch displacement (R71). The bytes the machine gives its decoder hold every instruction. -/
def Obligations.InstructionLength : Prop :=
  (∀ (t : DType) (x : Spec) (rest : List Byte), (∀ rx b, x ≠ .index rx (.forbidden b)) →
    specLen t (encodeSpec t x ++ rest) = (encodeSpec t x).length ∧ (encodeSpec t x).length = x.len t) ∧
  ∀ i : Instr, i.opcode? ≠ none →
    (encode i).length = 1 + (i.operands.map fun o => o.spec.len o.dt).sum + i.branchBytes ∧
      1 ≤ (encode i).length ∧ (encode i).length ≤ fetchWindow

/-- Words of R73 and of the examples of R112, R115, R121, R122, R162, R175, R216, R217 and R218, as the spec writes them
out. -/
def Obligations.SampleWordsDecode : Prop :=
  decode defaultOpcodeMap [0xD0, 0xA1, 0x06, 0x55] = .instr (.movl (.mem (.byteDisplacement 1 6)) (.register 5)) ∧
  decode defaultOpcodeMap [0x90, 0x93, 0x50] = .instr (.movb (.mem (.autoincrementDeferred 3)) (.register 0)) ∧
  decode defaultOpcodeMap [0xD0, 0xC3, 0xE8, 0x03, 0x50] =
    .instr (.movl (.mem (.wordDisplacement 3 1000)) (.register 0)) ∧
  decode defaultOpcodeMap [0x90, 0x8F, 0x64, 0x50] = .instr (.movb (.immediate 100) (.register 0)) ∧
  decode defaultOpcodeMap [0xD0, 0x9F, 0x00, 0x20, 0x00, 0x00, 0x50] =
    .instr (.movl (.mem (.absolute 0x2000)) (.register 0)) ∧
  decode defaultOpcodeMap [0xC0, 0x03, 0x54] = .instr (.addl2 (.literal 3) (.register 4)) ∧
  decode defaultOpcodeMap [0xDE, 0x44, 0x63, 0x50] =
    .instr (.moval (.index 4 (.mem (.registerDeferred 3))) (.register 0)) ∧
  decode defaultOpcodeMap [0x31, 0x00, 0x01] = .instr (.brw 0x100) ∧
  decode defaultOpcodeMap [0xF3, 0x0A, 0x50, 0xFB] = .instr (.aobleq (.literal 10) (.register 0) 0xFB) ∧
  decode defaultOpcodeMap [0x17, 0x9E] = .instr (.jmp (.mem (.autoincrementDeferred 14)))

/-! ## The step -/

/-- When the bytes at the program counter are a well-formed instruction's, with the opcode byte the launch's map gives
its opcode, a step is that instruction's execution, with nothing around it (R294). -/
def Obligations.StepRunsDecodedInstruction : Prop :=
  ∀ (i : Instr) (op : Opcode) (b : Byte) (s : State), i.opcode? = some op → i.wf = true →
    isEscape b = false → s.params.opcodeMap.lookup b = some op → s.pc ≠ s.params.endPC →
      windowFrom s.mem s.pc (encode i).length = b :: (encode i).tail → step s = exec i s

/-- At `END_PC` the run has ended (R293), whatever stands there. That a step then leaves the final state as it is, is
the model's choice (log 6). -/
def Obligations.StepAtEndStays : Prop := ∀ s : State, s.pc = s.params.endPC → step s = .next s

/-- An opcode byte that the map does not list, and a two-byte opcode, are refused with the byte or bytes (R62, R74). -/
def Obligations.UnknownOpcodeRefused : Prop :=
  ∀ s : State, s.pc ≠ s.params.endPC →
    (s.Fetchable 1 → isEscape (s.byteAt s.pc) = false → s.params.opcodeMap.lookup (s.byteAt s.pc) = none →
      step s = .refused (.opcodeNotInMap (s.byteAt s.pc) none)) ∧
    (s.Fetchable 2 → s.byteAt s.pc = 0xFD ∨ s.byteAt s.pc = 0xFE ∨ s.byteAt s.pc = 0xFF →
      step s = .refused (.opcodeNotInMap (s.byteAt s.pc) (some (s.byteAt (s.pc + 1)))))

/-- Whatever stands at the program counter, the opcode fetch comes first: outside `CodeRegion` it is refused, and inside
it, where the byte is not readable, it faults (R14, R266). -/
def Obligations.OpcodeFetchChecked : Prop :=
  ∀ s : State, s.pc ≠ s.params.endPC →
    (s.isCode s.pc = false → step s = .refused (.fetchOutsideCode s.pc)) ∧
    (s.isCode s.pc = true → s.isReadable s.pc = false → step s = .fault (.accessViolation s.pc .read))

/-- `case` and the procedure calls and return are refused by name (R220 to R222, R231 to R233). -/
def Obligations.CaseAndProcedureRefused : Prop :=
  RefusedByName .caseb .caseb 0x8F ∧ RefusedByName .casew .casew 0xAF ∧ RefusedByName .casel .casel 0xCF ∧
    RefusedByName .calls .calls 0xFB ∧ RefusedByName .callg .callg 0xFA ∧ RefusedByName .ret .ret 0x04

/-- The floating-point instructions, `crc` and `insque` are refused by name (R241 to R251). -/
def Obligations.FloatAndSpecialRefused : Prop :=
  RefusedByName .addf2 .addf2 0x40 ∧ RefusedByName .addf3 .addf3 0x41 ∧ RefusedByName .addd2 .addd2 0x60 ∧
    RefusedByName .addd3 .addd3 0x61 ∧ RefusedByName .subd2 .subd2 0x62 ∧ RefusedByName .subd3 .subd3 0x63 ∧
    RefusedByName .mulf2 .mulf2 0x44 ∧ RefusedByName .mulf3 .mulf3 0x45 ∧ RefusedByName .polyf .polyf 0x55 ∧
    RefusedByName .crc .crc 0x0B ∧ RefusedByName .insque .insque 0x0E

/-! ## Invariants -/

/-- Every step keeps memory in its canonical form, so that equal memories stay equal data. -/
def Obligations.StepKeepsCanonical : Prop :=
  ∀ s t : State, s.Canonical → step s = .next t → t.Canonical

/-- The state at reset: memory is canonical, every register and flag holds a value, code is readable. That every
register and flag holds the value 0 and that memory lists nothing are the model's choices (logs 1 and 2). -/
def Obligations.ResetState : Prop :=
  State.reset.Canonical ∧ State.reset.AllWritten ∧ resetLaunch.CodeReadable ∧
    (∀ n : Reg, State.reset.reg n = 0) ∧ State.reset.cc = ⟨false, false, false, false⟩ ∧ State.reset.iv = false ∧
    ∀ a : Word, State.reset.byteAt a = 0

/-- The parameters and `IV` never change (R29, R32). -/
def Obligations.StepKeepsParameters : Prop :=
  ∀ s t : State, step s = .next t → t.params = s.params ∧ t.iv = s.iv

/-- No step changes a byte that is not `Writable`, or a byte of `CodeRegion` (R43, R54, R296). -/
def Obligations.StepKeepsProtectedBytes : Prop :=
  ∀ (s t : State) (a : Word), s.Canonical → step s = .next t → s.isWritable a = false ∨ s.isCode a = true →
    t.byteAt a = s.byteAt a

/-- What holds a value goes on holding one; and from a state in which every register and flag holds one, no step reads an
unwritten one, and the next state is such a state again (R34). -/
def Obligations.NoUnwrittenReadWhenAllWritten : Prop :=
  ∀ s : State,
    (∀ t, step s = .next t → (∀ n, s.isWritten n = true → t.isWritten n = true) ∧
      ∀ f, s.ccWritten.get f = true → t.ccWritten.get f = true) ∧
    (s.AllWritten → (∀ w, step s ≠ .fault (.unwrittenRead w)) ∧ ∀ t, step s = .next t → t.AllWritten)

/-- The overflow trap comes only from `add`, `sub`, `ash` and `aobleq`, and only with `IV` set; a branch stops only for
its fetches and, a conditional one, for a flag that holds no value (R263, R265). -/
def Obligations.WhatMayBeRaised : Prop :=
  (∀ (i : Instr) (s : State), exec i s = .fault .integerOverflow →
    s.iv = true ∧ ∃ op ∈ [Opcode.addb2, .addb3, .addw2, .addw3, .addl2, .addl3, .subb2, .subb3, .subw2, .subw3, .subl2,
      .subl3, .ashl, .ashq, .aobleq], i.opcode? = some op) ∧
  (∀ s : State, s.iv = false → step s ≠ .fault .integerOverflow) ∧
  ∀ (d : Byte) (e : BitVec 16) (s : State), ∀ i ∈ [Instr.beql d, .bneq d, .bleq d, .bgeq d, .brb d, .brw e],
    (∀ f, exec i s = .fault f →
      (∃ a, f = .accessViolation a .read) ∨ i ≠ .brb d ∧ i ≠ .brw e ∧ ∃ g, f = .unwrittenRead (.flag g)) ∧
    ∀ r, exec i s = .refused r → ∃ a, r = .fetchOutsideCode a

/-! ## Memory and registers -/

/-- `MemRead` (R42): byte `k` of the result is the byte at `a + k`; the lowest byte that is not readable is reported. -/
def Obligations.MemReadRule : Prop :=
  ∀ (s : State) (a : Word) (n : Nat),
    (s.ReadableFrom a n → ∃ v, memRead a n s = .ok v ∧
      ∀ k : Nat, k < n → v.extractLsb' (8 * k) 8 = s.byteAt (a + BitVec.ofNat 32 k)) ∧
    ∀ k : Nat, k < n → s.ReadableFrom a k → s.isReadable (a + BitVec.ofNat 32 k) = false →
      memRead a n s = .error (.fault (.accessViolation (a + BitVec.ofNat 32 k) .read))

/-- `MemWrite` (R43): byte `k` of the value goes to `a + k` and nothing else changes; the lowest byte that may not be
written is reported, `Writable` before `CodeRegion`. An instruction with a destination in memory, its operands evaluated
and its displacement fetched, stops so at the first byte of its destination that may not be written (R103, R150), and
`pushl` and `jsb` so at the first of the four bytes they push to (R164, R230). -/
def Obligations.MemWriteRule : Prop :=
  (∀ (s : State) (a : Word) (n : Nat) (v : BitVec (8 * n)), s.Canonical → n ≤ 16 →
    (s.WritableFrom a n → ∃ m, memWrite a n v s = .ok { s with mem := m } ∧
      (∀ k : Nat, k < n → m.read (a + BitVec.ofNat 32 k).toNat = v.extractLsb' (8 * k) 8) ∧
      ∀ x : Word, ¬ Among x a n → m.read x.toNat = s.byteAt x) ∧
    ∀ k : Nat, k < n → s.WritableFrom a k →
      (s.isWritable (a + BitVec.ofNat 32 k) = false →
        memWrite a n v s = .error (.fault (.accessViolation (a + BitVec.ofNat 32 k) .write))) ∧
      (s.isWritable (a + BitVec.ofNat 32 k) = true → s.isCode (a + BitVec.ofNat 32 k) = true →
        memWrite a n v s = .error (.refuse (.storeIntoCode (a + BitVec.ofNat 32 k))))) ∧
  (∀ (i : Instr) (o : Operand) (s : State) (a : Word) (k : Nat), i.Ready s →
    (i.operandsDone s).Fetchable i.branchBytes → i.destination = some o → i.storeAddress s = some a → k < o.dt.size →
      WriteStops i s a k) ∧
  ∀ (i : Instr) (s : State) (k : Nat), i.opcode? = some .pushl ∨ i.opcode? = some .jsb → i.Ready s →
    (i.operandsDone s).isWritten spReg = true → k < 4 → WriteStops i s ((i.operandsDone s).reg spReg - 4) k

/-- After a longword is written, the longword, and the byte and word at its address, read as its low-order parts, and
the byte 3 further on as its high-order byte (R44). -/
def Obligations.LittleEndianReadBack : Prop :=
  ∀ (s t : State) (a : Word) (v : Word), s.Canonical → memWrite a 4 v s = .ok t → t.ReadableFrom a 4 →
    memRead a 4 t = .ok v ∧ memRead a 1 t = .ok (v.extractLsb' 0 8) ∧ memRead a 2 t = .ok (v.extractLsb' 0 16) ∧
      memRead (a + 3) 1 t = .ok (v.extractLsb' 24 8)

/-- A register as an operand (R22, R23): the low bits of one register, whose other bits a write keeps, or two or four
registers, the first least significant. -/
def Obligations.RegisterOperands : Prop :=
  ∀ (s : State) (n : Reg),
    (s.isWritten n = true →
      readRegOperand .b n s = .ok ((s.reg n).extractLsb' 0 8) ∧
      readRegOperand .w n s = .ok ((s.reg n).extractLsb' 0 16) ∧ readRegOperand .l n s = .ok (s.reg n) ∧
      (∀ v : Byte, writeRegOperand .b n v s = .ok (s.setReg n ((s.reg n).extractLsb' 8 24 ++ v))) ∧
      ∀ v : BitVec 16, writeRegOperand .w n v s = .ok (s.setReg n ((s.reg n).extractLsb' 16 16 ++ v))) ∧
    (∀ v : Word, writeRegOperand .l n v s = .ok (s.setReg n v)) ∧
    (n.val < 14 →
      (s.isWritten n = true → s.isWritten (n + 1) = true →
        readRegOperand .q n s = .ok (s.reg (n + 1) ++ s.reg n)) ∧
      ∀ v : BitVec 64, writeRegOperand .q n v s =
        .ok ((s.setReg n (v.extractLsb' 0 32)).setReg (n + 1) (v.extractLsb' 32 32))) ∧
    (n.val < 12 →
      (s.isWritten n = true → s.isWritten (n + 1) = true → s.isWritten (n + 2) = true → s.isWritten (n + 3) = true →
        readRegOperand .o n s = .ok (s.reg (n + 3) ++ s.reg (n + 2) ++ s.reg (n + 1) ++ s.reg n)) ∧
      ∀ v : BitVec 128, writeRegOperand .o n v s =
        .ok ((((s.setReg n (v.extractLsb' 0 32)).setReg (n + 1) (v.extractLsb' 32 32)).setReg (n + 2)
          (v.extractLsb' 64 32)).setReg (n + 3) (v.extractLsb' 96 32)))

/-! ## The addressing modes -/

/-- Literal (R104): every access, every literal, every setting of `SHORT_LITERAL_EXT`. -/
def Obligations.LiteralMode : Prop :=
  ∀ (dt : DType) (lit : BitVec 6) (s : State), s.Fetchable 1 →
    let gives (v : BitVec dt.bits) : Prop :=
      evalSpec .r dt (.literal lit) (Ctx.start s) = .ok (.lit v, Ctx.start (s.advance 1)) ∧
        exec (.specLiteral .r dt lit) s = .next (s.advance 1)
    (∀ acc, acc ≠ .r → exec (.specLiteral acc dt lit) s = .fault (.reservedAddressingMode (lit.setWidth 8))) ∧
    (dt.isFloat = true → exec (.specLiteral .r dt lit) s = .refused .floatLiteral) ∧
    (dt.isFloat = false → lit.toNat < 32 → gives (lit.setWidth dt.bits)) ∧
    (dt.isFloat = false → 32 ≤ lit.toNat →
      (s.params.shortLiteralExt = .signed → gives (lit.signExtend dt.bits)) ∧
      (s.params.shortLiteralExt = .unsigned → gives (lit.setWidth dt.bits)) ∧
      (s.params.shortLiteralExt = .undecided →
        exec (.specLiteral .r dt lit) s = .refused (.shortLiteralHighBit (lit.setWidth 8))))

/-- Index (R105 to R107): the base is evaluated as in direct use, and the index register, scaled by the operand's size,
is added; index by the program counter, a forbidden base, and a base that steps the index register stop; and where the
state lets the operand be evaluated, it completes. That the base byte 5F is the fault ReservedAddressingMode, by R105 and
R266 where R130 and U2 name a refusal, is the model's reading (log 15), and that index by the program counter records the
byte 4F is the model's (log 17). -/
def Obligations.IndexMode : Prop :=
  ∀ (acc : Access) (dt : DType) (rx : Reg) (s : State), s.Fetchable 1 →
    (rx = pcReg → ∀ base, exec (.specIndex acc dt rx base) s = .fault (.reservedAddressingMode 0x4F)) ∧
    (rx ≠ pcReg → s.Fetchable 2 →
      (∀ b, b ≠ 0x8F#8 → exec (.specIndex acc dt rx (.forbidden b)) s = .fault (.reservedAddressingMode b)) ∧
      exec (.specIndex acc dt rx (.forbidden 0x8F)) s = .refused .unpredictableIndexedImmediate ∧
      exec (.specIndex acc dt rx (.mem (.autodecrement rx))) s = .refused .unpredictableIndexBaseSame ∧
      ∀ n : Gpr, n.reg = rx →
        exec (.specIndex acc dt rx (.mem (.autoincrement n))) s = .refused .unpredictableIndexBaseSame ∧
        exec (.specIndex acc dt rx (.mem (.autoincrementDeferred n))) s = .refused .unpredictableIndexBaseSame) ∧
    (rx ≠ pcReg → s.isWritten rx = true → ∀ (m : MemSpec) (a : Word) (c : Ctx), m ≠ .autodecrement rx →
      (∀ n : Gpr, n.reg = rx → m ≠ .autoincrement n ∧ m ≠ .autoincrementDeferred n) →
      evalSpec acc dt (.mem m) (Ctx.start (s.advance 1)) = .ok (.mem a, c) →
        let address := a + s.reg rx * BitVec.ofNat 32 dt.size
        evalSpec acc dt (.index rx (.mem m)) (Ctx.start s) = .ok (.mem address, c) ∧
          ((acc = .r ∨ acc = .m → c.st.ReadableFrom address dt.size) →
            exec (.specIndex acc dt rx (.mem m)) s = .next c.st)) ∧
    ∀ m : MemSpec, Operand.Ready s ⟨acc, dt, .index rx (.mem m)⟩ →
      exec (.specIndex acc dt rx (.mem m)) s = .next ((Spec.index rx (.mem m)).after dt s)

/-- Register (R108): the registers it takes, and where it stops. That register 15 as an operand of 8 or 16 bytes is
UnpredictablePCRegisterMode, by the order of R108's checks where R23 and U4 name UnpredictableRegisterPair, is the
model's reading (log 15). -/
def Obligations.RegisterMode : Prop :=
  ∀ (dt : DType) (n : Reg) (s : State), s.Fetchable 1 →
    exec (.specRegister .a dt n) s = .fault (.reservedAddressingMode (0x50 + BitVec.ofNat 8 n.val)) ∧
    ∀ acc, acc ≠ .a →
      (n = pcReg → exec (.specRegister acc dt n) s = .refused .unpredictablePCRegisterMode) ∧
      (n ≠ pcReg → dt.size = 8 ∧ 14 ≤ n.val ∨ dt.size = 16 ∧ 12 ≤ n.val →
        exec (.specRegister acc dt n) s = .refused .unpredictableRegisterPair) ∧
      (n ≠ pcReg → (dt.size = 8 → n.val < 14) → (dt.size = 16 → n.val < 12) →
        let group := (List.range ((dt.size + 3) / 4)).map fun k => n + Fin.ofNat 16 k
        evalSpec acc dt (.register n) (Ctx.start s) = .ok (.reg n, ⟨s.advance 1, [], group⟩) ∧
          ((acc = .r ∨ acc = .m → ∀ k ∈ group, s.isWritten k = true) →
            exec (.specRegister acc dt n) s = .next (s.advance 1)))

/-- Register deferred (R109). -/
def Obligations.RegisterDeferredMode : Prop :=
  ∀ (dt : DType) (n : Reg) (s : State), s.Fetchable 1 →
    (n = pcReg → ∀ acc, exec (.specRegisterDeferred acc dt n) s = .refused .unpredictablePCDeferred) ∧
    (n ≠ pcReg → s.isWritten n = true →
      AddressMode (.registerDeferred n) (fun acc dt => .specRegisterDeferred acc dt n) dt s (s.advance 1) (s.reg n) [])

/-- Autodecrement (R110): the register is stepped first, and then is the operand's address. -/
def Obligations.AutodecrementMode : Prop :=
  ∀ (dt : DType) (n : Reg) (s : State), s.Fetchable 1 →
    (n = pcReg → ∀ acc, exec (.specAutodecrement acc dt n) s = .refused .unpredictablePCAutodecrement) ∧
    (n ≠ pcReg → s.isWritten n = true →
      let a := s.reg n - BitVec.ofNat 32 dt.size
      AddressMode (.autodecrement n) (fun acc dt => .specAutodecrement acc dt n) dt s ((s.advance 1).setReg n a) a [n])

/-- Autoincrement (R111): the operand's address is the register as it was before the step. -/
def Obligations.AutoincrementMode : Prop :=
  ∀ (dt : DType) (n : Gpr) (s : State), s.Fetchable 1 → s.isWritten n.reg = true →
    AddressMode (.autoincrement n) (fun acc dt => .specAutoincrement acc dt n) dt s
      ((s.advance 1).setReg n.reg (s.reg n.reg + BitVec.ofNat 32 dt.size)) (s.reg n.reg) [n.reg]

/-- Autoincrement deferred (R112): the step is 4, whatever the operand's size. -/
def Obligations.AutoincrementDeferredMode : Prop :=
  ∀ (dt : DType) (n : Gpr) (s : State), s.Fetchable 1 → s.isWritten n.reg = true →
    DeferredMode (.autoincrementDeferred n) (fun acc dt => .specAutoincrementDeferred acc dt n) dt s (s.advance 1)
      ((s.advance 1).setReg n.reg (s.reg n.reg + 4)) (s.reg n.reg) [n.reg]

/-- Byte, word and longword displacement (R113, R115, R117). -/
def Obligations.DisplacementModes : Prop :=
  ∀ (dt : DType) (n : Gpr) (s : State), s.isWritten n.reg = true →
    (∀ disp, s.Fetchable 2 →
      AddressMode (.byteDisplacement n disp) (fun acc dt => .specByteDisplacement acc dt n disp) dt s (s.advance 2)
        (s.reg n.reg + disp.signExtend 32) []) ∧
    (∀ disp, s.Fetchable 3 →
      AddressMode (.wordDisplacement n disp) (fun acc dt => .specWordDisplacement acc dt n disp) dt s (s.advance 3)
        (s.reg n.reg + disp.signExtend 32) []) ∧
    ∀ disp, s.Fetchable 5 →
      AddressMode (.longwordDisplacement n disp) (fun acc dt => .specLongwordDisplacement acc dt n disp) dt s
        (s.advance 5) (s.reg n.reg + disp) []

/-- Byte, word and longword displacement deferred (R114, R116, R118). -/
def Obligations.DisplacementDeferredModes : Prop :=
  ∀ (dt : DType) (n : Gpr) (s : State), s.isWritten n.reg = true →
    (∀ disp, s.Fetchable 2 →
      DeferredMode (.byteDisplacementDeferred n disp) (fun acc dt => .specByteDisplacementDeferred acc dt n disp) dt s
        (s.advance 2) (s.advance 2) (s.reg n.reg + disp.signExtend 32) []) ∧
    (∀ disp, s.Fetchable 3 →
      DeferredMode (.wordDisplacementDeferred n disp) (fun acc dt => .specWordDisplacementDeferred acc dt n disp) dt s
        (s.advance 3) (s.advance 3) (s.reg n.reg + disp.signExtend 32) []) ∧
    ∀ disp, s.Fetchable 5 →
      DeferredMode (.longwordDisplacementDeferred n disp)
        (fun acc dt => .specLongwordDisplacementDeferred acc dt n disp) dt s (s.advance 5) (s.advance 5)
        (s.reg n.reg + disp) []

/-- Immediate (R121): the operand is the constant; only a read operand may be one. -/
def Obligations.ImmediateMode : Prop :=
  ∀ (dt : DType) (v : BitVec 128) (s : State),
    (s.Fetchable (1 + dt.size) →
      evalSpec .r dt (.immediate v) (Ctx.start s) = .ok (.lit (v.setWidth dt.bits), Ctx.start (s.advance (1 + dt.size))) ∧
        exec (.specImmediate .r dt v) s = .next (s.advance (1 + dt.size))) ∧
    (s.Fetchable 1 → ∀ acc, acc ≠ .r → exec (.specImmediate acc dt v) s = .refused .unpredictableImmediateDestination)

/-- Absolute (R122). -/
def Obligations.AbsoluteMode : Prop :=
  ∀ (dt : DType) (addr : Word) (s : State), s.Fetchable 5 →
    AddressMode (.absolute addr) (fun acc dt => .specAbsolute acc dt addr) dt s (s.advance 5) addr []

/-- Byte, word and longword relative (R123, R125, R127): the program counter is the address after the specifier. -/
def Obligations.RelativeModes : Prop :=
  ∀ (dt : DType) (s : State),
    (∀ disp, s.Fetchable 2 →
      AddressMode (.byteRelative disp) (fun acc dt => .specByteRelative acc dt disp) dt s (s.advance 2)
        (s.pc + 2 + disp.signExtend 32) []) ∧
    (∀ disp, s.Fetchable 3 →
      AddressMode (.wordRelative disp) (fun acc dt => .specWordRelative acc dt disp) dt s (s.advance 3)
        (s.pc + 3 + disp.signExtend 32) []) ∧
    ∀ disp, s.Fetchable 5 →
      AddressMode (.longwordRelative disp) (fun acc dt => .specLongwordRelative acc dt disp) dt s (s.advance 5)
        (s.pc + 5 + disp) []

/-- Byte, word and longword relative deferred (R124, R126, R128). -/
def Obligations.RelativeDeferredModes : Prop :=
  ∀ (dt : DType) (s : State),
    (∀ disp, s.Fetchable 2 →
      DeferredMode (.byteRelativeDeferred disp) (fun acc dt => .specByteRelativeDeferred acc dt disp) dt s (s.advance 2)
        (s.advance 2) (s.pc + 2 + disp.signExtend 32) []) ∧
    (∀ disp, s.Fetchable 3 →
      DeferredMode (.wordRelativeDeferred disp) (fun acc dt => .specWordRelativeDeferred acc dt disp) dt s (s.advance 3)
        (s.advance 3) (s.pc + 3 + disp.signExtend 32) []) ∧
    ∀ disp, s.Fetchable 5 →
      DeferredMode (.longwordRelativeDeferred disp) (fun acc dt => .specLongwordRelativeDeferred acc dt disp) dt s
        (s.advance 5) (s.advance 5) (s.pc + 5 + disp) []

/-! ## The instructions: what each does -/

/-- `movb`, `movw`, `movl`, `movq` (R150 to R154). -/
def Obligations.MovCompletes : Prop := Moves .b .movb ∧ Moves .w .movw ∧ Moves .l .movl ∧ Moves .q .movq

/-- `movzbw`, `movzbl`, which extend with zeros (R155 to R157), and `cvtbw`, `cvtbl`, which extend with the sign (R200 to
R202). -/
def Obligations.ByteExtensionsComplete : Prop :=
  MovesZeroExtended .w .movzbw ∧ MovesZeroExtended .l .movzbl ∧ ConvertsByte .w .cvtbw ∧ ConvertsByte .l .cvtbl

/-- `movab`, `movaw`, `moval`, `movaq` (R159 to R163). -/
def Obligations.MovaCompletes : Prop :=
  MovesAddress .b .movab ∧ MovesAddress .w .movaw ∧ MovesAddress .l .moval ∧ MovesAddress .q .movaq

/-- `pushl` (R164): the operand is read, then the stack pointer moves, then the operand is stored there. -/
def Obligations.PushlCompletes : Prop :=
  ∀ (src : Spec) (s : State), (Instr.pushl src).Ready s →
    let v : Word := src.read .l s.start
    let done := src.after .l s.start
    let sp := done.reg spReg - 4
    done.isWritten spReg = true → done.WritableFrom sp 4 →
      exec (.pushl src) s = .next
        (({ done.setReg spReg sp with mem := storeBytes done.mem sp 4 v.toNat } : State).setNZV v.msb (v == 0) false)

/-- The `add` instructions (R170 to R176). -/
def Obligations.AddCompletes : Prop :=
  Combines2 .b .addb2 sumOverflows summed ∧ Combines2 .w .addw2 sumOverflows summed ∧
    Combines2 .l .addl2 sumOverflows summed ∧ Combines3 .b .addb3 sumOverflows summed ∧
    Combines3 .w .addw3 sumOverflows summed ∧ Combines3 .l .addl3 sumOverflows summed

/-- The `sub` instructions (R177 to R183): the first operand is the subtrahend, the second the minuend. -/
def Obligations.SubCompletes : Prop :=
  Combines2 .b .subb2 (fun x m => differenceOverflows m x) (fun x m => subtracted m x) ∧
    Combines2 .w .subw2 (fun x m => differenceOverflows m x) (fun x m => subtracted m x) ∧
    Combines2 .l .subl2 (fun x m => differenceOverflows m x) (fun x m => subtracted m x) ∧
    Combines3 .b .subb3 (fun x m => differenceOverflows m x) (fun x m => subtracted m x) ∧
    Combines3 .w .subw3 (fun x m => differenceOverflows m x) (fun x m => subtracted m x) ∧
    Combines3 .l .subl3 (fun x m => differenceOverflows m x) (fun x m => subtracted m x)

/-- `cmpb`, `cmpw`, `cmpl` (R184 to R187). -/
def Obligations.CmpCompletes : Prop := Compares .b .cmpb ∧ Compares .w .cmpw ∧ Compares .l .cmpl

/-- `tstb`, `tstw`, `tstl` (R188 to R191). -/
def Obligations.TstCompletes : Prop := Tests .b .tstb ∧ Tests .w .tstw ∧ Tests .l .tstl

/-- `ashl`, `ashq` (R192 to R194). -/
def Obligations.AshCompletes : Prop := Shifts .l .ashl ∧ Shifts .q .ashq

/-- `clrb`, `clrw`, `clrl`, `clrq` (R195 to R199). -/
def Obligations.ClrCompletes : Prop := Clears .b .clrb ∧ Clears .w .clrw ∧ Clears .l .clrl ∧ Clears .q .clrq

/-- `beql`, `bneq`, `bleq`, `bgeq` (R210 to R214), each with the flags it reads, and `brb`, `brw` (R215, R216). -/
def Obligations.BranchesComplete : Prop :=
  Branches .beql [.z] (fun x => x.z) ∧ Branches .bneq [.z] (fun x => !x.z) ∧
    Branches .bleq [.n, .z] (fun x => x.n || x.z) ∧ Branches .bgeq [.n] (fun x => !x.n) ∧
    (∀ displ s, s.Fetchable 2 → exec (.brb displ) s = .next (s.setPc (s.pc + 2 + displ.signExtend 32))) ∧
    ∀ displ s, s.Fetchable 3 → exec (.brw displ) s = .next (s.setPc (s.pc + 3 + displ.signExtend 32))

/-- `jmp` (R217): the target is the operand's address. -/
def Obligations.JmpCompletes : Prop :=
  ∀ (dst : Spec) (s : State), (Instr.jmp dst).Ready s →
    ∃ a : Word, dst.loc .b s.start = .mem a ∧ exec (.jmp dst) s = .next ((dst.after .b s.start).setPc a)

/-- `aobleq` (R218). -/
def Obligations.AobleqCompletes : Prop :=
  ∀ (limit index : Spec) (displ : Byte) (s : State), (Instr.aobleq limit index displ).Ready s →
    let lim : Word := limit.read .l s.start
    let i : Word := index.read .l (limit.after .l s.start)
    let d := index.loc .l (limit.after .l s.start)
    let done := index.after .l (limit.after .l s.start)
    let r := i + 1
    let overflow := decide (i = 0x7FFFFFFF)
    let stored := (Loc.store (t := .l) (done.advance 1) r d).setNZV r.msb (r == 0) overflow
    done.Fetchable 1 → d.Writable done → ¬ (s.iv = true ∧ overflow = true) →
      exec (.aobleq limit index displ) s =
        .next (if r.toInt ≤ lim.toInt then stored.setPc (done.pc + 1 + displ.signExtend 32) else stored)

/-- `jsb` (R230): the target is computed first, then the address after the instruction is pushed. -/
def Obligations.JsbCompletes : Prop :=
  ∀ (dst : Spec) (s : State), (Instr.jsb dst).Ready s →
    let done := dst.after .b s.start
    let sp := done.reg spReg - 4
    done.isWritten spReg = true → done.WritableFrom sp 4 →
      ∃ a : Word, dst.loc .b s.start = .mem a ∧
        exec (.jsb dst) s = .next
          (({ done.setReg spReg sp with mem := storeBytes done.mem sp 4 done.pc.toNat } : State).setPc a)

/-- With `IV` set, an overflow of `add`, `sub` or `ash` ends with the trap (R170, R177, R192), and so does `aobleq` of
the greatest longword (R218). -/
def Obligations.OverflowTraps : Prop :=
  Traps2 .b .addb2 sumOverflows ∧ Traps2 .w .addw2 sumOverflows ∧ Traps2 .l .addl2 sumOverflows ∧
  Traps3 .b .b .addb3 sumOverflows ∧ Traps3 .w .w .addw3 sumOverflows ∧ Traps3 .l .l .addl3 sumOverflows ∧
  Traps2 .b .subb2 (fun x m => differenceOverflows m x) ∧ Traps2 .w .subw2 (fun x m => differenceOverflows m x) ∧
  Traps2 .l .subl2 (fun x m => differenceOverflows m x) ∧ Traps3 .b .b .subb3 (fun x m => differenceOverflows m x) ∧
  Traps3 .w .w .subw3 (fun x m => differenceOverflows m x) ∧ Traps3 .l .l .subl3 (fun x m => differenceOverflows m x) ∧
  Traps3 .b .l .ashl shiftOverflows ∧ Traps3 .b .q .ashq shiftOverflows ∧
  ∀ (limit index : Spec) (displ : Byte) (s : State), (Instr.aobleq limit index displ).Ready s →
    (index.after .l (limit.after .l s.start)).Fetchable 1 →
    (index.loc .l (limit.after .l s.start)).Writable (index.after .l (limit.after .l s.start)) →
    s.iv = true → (index.read .l (limit.after .l s.start) : Word) = 0x7FFFFFFF →
      exec (.aobleq limit index displ) s = .fault .integerOverflow

/-! ## Frames: what an instruction leaves as it was -/

/-- An instruction with a destination operand (`mov`, `movzb`, `mova`, `add`, `sub`, `ash`, `clr`, `cvtb`, `aobleq`)
changes no register but the program counter, those its specifiers step, and its destination's. -/
def Obligations.DestinationFrameRegisters : Prop :=
  ∀ (i : Instr) (o : Operand) (s t : State), i.destination = some o → exec i s = .next t →
    ∀ r : Reg, r ≠ pcReg → (∀ x ∈ i.operands, x.spec.steps ≠ some r) → r ∉ o.spec.uses o.dt →
      t.reg r = s.reg r ∧ t.isWritten r = s.isWritten r

/-- The same instructions change no byte of memory but those of a destination in memory: as many bytes as its type has,
from the address its specifier designates; with a destination in a register, none. -/
def Obligations.DestinationFrameMemory : Prop :=
  ∀ (i : Instr) (o : Operand) (s t : State), s.Canonical → i.destination = some o → exec i s = .next t →
    ∀ x : Word, (∀ a, i.storeAddress s = some a → ¬ Among x a o.dt.size) → t.byteAt x = s.byteAt x

/-- `cmp`, `tst`, the branches and `jmp` change no byte of memory, and no register but the program counter and those
their specifiers step. -/
def Obligations.FrameWithoutDestination : Prop :=
  ∀ (i : Instr) (op : Opcode) (s t : State), i.opcode? = some op →
    op ∈ [Opcode.cmpb, .cmpw, .cmpl, .tstb, .tstw, .tstl, .beql, .bneq, .bleq, .bgeq, .brb, .brw, .jmp] →
    exec i s = .next t →
      (∀ x : Word, t.byteAt x = s.byteAt x) ∧
      ∀ r : Reg, r ≠ pcReg → (∀ x ∈ i.operands, x.spec.steps ≠ some r) →
        t.reg r = s.reg r ∧ t.isWritten r = s.isWritten r

/-- `pushl` and `jsb` change no register but the program counter, the stack pointer and those their specifier steps, and
no byte of memory but the four from the new stack pointer (R47, R164, R230). -/
def Obligations.StackFrame : Prop :=
  ∀ (i : Instr) (s t : State), i.opcode? = some .pushl ∨ i.opcode? = some .jsb → s.Canonical → exec i s = .next t →
    (∀ x : Word, ¬ Among x ((i.operandsDone s).reg spReg - 4) 4 → t.byteAt x = s.byteAt x) ∧
    ∀ r : Reg, r ≠ pcReg → r ≠ spReg → (∀ x ∈ i.operands, x.spec.steps ≠ some r) →
      t.reg r = s.reg r ∧ t.isWritten r = s.isWritten r

/-- A specifier by itself changes no flag, no byte of memory, and no register but the program counter and the one it
steps (R27, R119). -/
def Obligations.SpecifierFrame : Prop :=
  ∀ (i : Instr) (s t : State), i.opcode? = none → exec i s = .next t →
    t.cc = s.cc ∧ t.ccWritten = s.ccWritten ∧ (∀ x : Word, t.byteAt x = s.byteAt x) ∧
    ∀ r : Reg, r ≠ pcReg → (∀ x ∈ i.operands, x.spec.steps ≠ some r) →
      t.reg r = s.reg r ∧ t.isWritten r = s.isWritten r

/-- Which instructions write which flags (R27): the branches, `jmp` and `jsb` none; `mov`, `movzb`, `mova`, `pushl`, `clr`
and `aobleq` all but `C`; the others all four. -/
def Obligations.FlagFrame : Prop :=
  ∀ (i : Instr) (op : Opcode) (s t : State), i.opcode? = some op → exec i s = .next t →
    if op ∈ [Opcode.beql, .bneq, .bleq, .bgeq, .brb, .brw, .jmp, .jsb] then t.cc = s.cc ∧ t.ccWritten = s.ccWritten
    else if op ∈ [Opcode.movb, .movw, .movl, .movq, .movzbw, .movzbl, .movab, .movaw, .moval, .movaq, .pushl, .clrb, .clrw,
        .clrl, .clrq, .aobleq] then
      t.cc.c = s.cc.c ∧ t.ccWritten = ⟨true, true, true, s.ccWritten.c⟩
    else t.ccWritten = ⟨true, true, true, true⟩

/-! ## Hazards, unwritten state, launch -/

/-- With `STRICT_REG_HAZARD`, an instruction whose operands can all be evaluated, but that uses a register in register
mode and steps it, is refused with such a register (R134). That the lowest one is reported is the model's (log 10). -/
def Obligations.RegisterHazardRefused : Prop :=
  ∀ (i : Instr) (s : State) (k : Reg), i.opcode? ≠ none → s.Fetchable 1 → OperandsReady i.operands s.start →
    s.params.strictRegHazard = true →
    (∃ o ∈ i.operands, o.spec.steps = some k) → (∃ o ∈ i.operands, k ∈ o.spec.uses o.dt) →
    (∀ j < k, ¬ ((∃ o ∈ i.operands, o.spec.steps = some j) ∧ ∃ o ∈ i.operands, j ∈ o.spec.uses o.dt)) →
      exec i s = .refused (.registerHazard k)

/-- Reading what holds no value faults (R34): a flag of a conditional branch; the register of every mode that has one,
under every access, directly and as an index base; an index register; a register operand that is read, of any type, with
its lowest such register; the kept bits of a narrow register destination; the stack pointer of a push. A write makes the
register written. That the lowest register is reported, and that `bleq` reads `N` before `Z`, is the model's (log 10). -/
def Obligations.UnwrittenReadFaults : Prop :=
  (∀ (s : State) (d : Byte), s.Fetchable 2 →
    (s.ccWritten.z = false → exec (.beql d) s = .fault (.unwrittenRead (.flag .z)) ∧
      exec (.bneq d) s = .fault (.unwrittenRead (.flag .z)) ∧
      (s.ccWritten.n = true → exec (.bleq d) s = .fault (.unwrittenRead (.flag .z)))) ∧
    (s.ccWritten.n = false → exec (.bgeq d) s = .fault (.unwrittenRead (.flag .n)) ∧
      exec (.bleq d) s = .fault (.unwrittenRead (.flag .n)))) ∧
  (∀ (acc : Access) (dt : DType) (m : MemSpec) (n : Reg) (s : State), m.reads = some n → n ≠ pcReg →
    s.isWritten n = false → s.Fetchable (1 + m.ext) →
      exec (.alone acc dt (.mem m)) s = .fault (.unwrittenRead (.reg n))) ∧
  (∀ (acc : Access) (dt : DType) (m : MemSpec) (rx : Reg) (s : State), rx ≠ pcReg → steppedReg m ≠ some rx →
    s.Fetchable (2 + m.ext) →
      (∀ n, m.reads = some n → n ≠ pcReg → s.isWritten n = false →
        exec (.specIndex acc dt rx (.mem m)) s = .fault (.unwrittenRead (.reg n))) ∧
      (m.Ready (s.advance (2 + m.ext)) → s.isWritten rx = false →
        exec (.specIndex acc dt rx (.mem m)) s = .fault (.unwrittenRead (.reg rx)))) ∧
  (∀ (acc : Access) (dt : DType) (n k : Reg) (s : State), acc = .r ∨ acc = .m → n ≠ pcReg →
    (dt.size = 8 → n.val < 14) → (dt.size = 16 → n.val < 12) → s.Fetchable 1 → k ∈ operandRegs dt n →
    s.isWritten k = false → (∀ j ∈ operandRegs dt n, j < k → s.isWritten j = true) →
      exec (.specRegister acc dt n) s = .fault (.unwrittenRead (.reg k))) ∧
  (∀ (i : Instr) (o : Operand) (n : Reg) (s : State), i.Ready s → i.destination = some o → o.spec = .register n →
    o.dt.size < 4 → (i.operandsDone s).isWritten n = false → exec i s = .fault (.unwrittenRead (.reg n))) ∧
  (∀ (i : Instr) (s : State), i.opcode? = some .pushl ∨ i.opcode? = some .jsb → i.Ready s →
    (i.operandsDone s).isWritten spReg = false → exec i s = .fault (.unwrittenRead (.reg spReg))) ∧
  ∀ (s : State) (n : Reg), n ≠ pcReg → s.isWritten n = false → s.Fetchable 2 →
    exec (.tstl (.register n)) s = .fault (.unwrittenRead (.reg n)) ∧
    exec (.tstl (.mem (.registerDeferred n))) s = .fault (.unwrittenRead (.reg n)) ∧
    exec (.clrb (.register n)) s = .fault (.unwrittenRead (.reg n)) ∧
    exec (.clrw (.register n)) s = .fault (.unwrittenRead (.reg n)) ∧
    (n = spReg → exec (.pushl (.literal 0)) s = .fault (.unwrittenRead (.reg n))) ∧
    (∀ m : Reg, m ≠ pcReg → s.isWritten m = true → s.Fetchable 3 →
      exec (.jmp (.index n (.mem (.registerDeferred m)))) s = .fault (.unwrittenRead (.reg n))) ∧
    ∃ t, exec (.clrl (.register n)) s = .next t ∧ t.isWritten n = true ∧ t.reg n = 0

/-- The state a launch starts from (R33): each register and flag has the value the launch supplies, or none. -/
def Obligations.LaunchState : Prop :=
  ∀ l : Launch,
    let s := State.ofLaunch l
    (∀ n : Gpr, (∀ v, l.initReg n = some v → s.reg n.reg = v ∧ s.isWritten n.reg = true) ∧
      (l.initReg n = none → s.isWritten n.reg = false)) ∧
    s.pc = l.entry ∧
    (∀ b, l.initN = some b → s.cc.n = b ∧ s.ccWritten.n = true) ∧ (l.initN = none → s.ccWritten.n = false) ∧
    (∀ b, l.initZ = some b → s.cc.z = b ∧ s.ccWritten.z = true) ∧ (l.initZ = none → s.ccWritten.z = false) ∧
    (∀ b, l.initV = some b → s.cc.v = b ∧ s.ccWritten.v = true) ∧ (l.initV = none → s.ccWritten.v = false) ∧
    (∀ b, l.initC = some b → s.cc.c = b ∧ s.ccWritten.c = true) ∧ (l.initC = none → s.ccWritten.c = false) ∧
    s.iv = l.iv ∧ s.mem = l.mem0 ∧ s.params = l.params

/-! ## What instructions do together -/

/-- A subroutine entered by `jsb` and left by `jmp @(sp)+` returns: if memory and the stack pointer are then as `jsb` left
them, control goes to the instruction after the `jsb`, and the stack pointer is what it was before the push (R235). -/
def Obligations.JsbThenJmpReturns : Prop :=
  ∀ (dst : Spec) (s t u : State), s.Canonical → exec (.jsb dst) s = .next t → u.mem = t.mem →
    u.reg spReg = t.reg spReg → u.isWritten spReg = true → u.Fetchable 2 → u.ReadableFrom (u.reg spReg) 4 →
      ∃ w, exec (.jmp (.mem (.autoincrementDeferred 14))) u = .next w ∧
        w.pc = s.pc + BitVec.ofNat 32 (1 + dst.len .b) ∧ w.reg spReg = (dst.after .b s.start).reg spReg ∧
        w.mem = t.mem

/-- `pushl src` is `movl src, -(sp)`, one byte shorter (R164). -/
def Obligations.PushlIsMovlToStack : Prop :=
  ∀ (src : Spec) (s t u : State), exec (.pushl src) s = .next t →
    exec (.movl src (.mem (.autodecrement spReg))) s = .next u → u = t.setPc (t.pc + 1)

/-- After `cmp a, b`, `bleq` is taken if `a` is at most `b`, `bgeq` if it is at least `b`, as signed numbers, and `beql`
if they are equal (R184). -/
def Obligations.CompareThenBranch : Prop :=
  ∀ (x y : Spec) (d : Byte) (s t : State), exec (.cmpl x y) s = .next t → t.Fetchable 2 →
    let a := x.read .l s.start
    let b := y.read .l (x.after .l s.start)
    let goes (taken : Bool) : Host.Outcome State Fault Refusal :=
      .next (t.setPc (if taken then t.pc + 2 + d.signExtend 32 else t.pc + 2))
    exec (.bleq d) t = goes (decide (a.toInt ≤ b.toInt)) ∧ exec (.bgeq d) t = goes (decide (b.toInt ≤ a.toInt)) ∧
      exec (.beql d) t = goes (decide (a = b)) ∧ exec (.bneq d) t = goes (decide (a ≠ b))
end

