-- ==== Sys2Proof/Laws/State.lean ====
section
/-! SUPPORT. One lemma for each field and each update of the state, and what the accessors read after an update. -/

namespace Sys2Proof

/-! ## The sizes of the data types (R8, R9) -/

@[simp] theorem DType.size_b : DType.size .b = 1 := rfl
@[simp] theorem DType.size_w : DType.size .w = 2 := rfl
@[simp] theorem DType.size_l : DType.size .l = 4 := rfl
@[simp] theorem DType.size_q : DType.size .q = 8 := rfl
@[simp] theorem DType.size_o : DType.size .o = 16 := rfl
@[simp] theorem DType.size_f : DType.size .f = 4 := rfl
@[simp] theorem DType.size_d : DType.size .d = 8 := rfl
@[simp] theorem DType.size_g : DType.size .g = 8 := rfl
@[simp] theorem DType.size_h : DType.size .h = 16 := rfl

end Sys2Proof

namespace Sys2Proof.Machine

open Sys2Proof

variable (s : State) (n m : Reg) (v : Word) (x : CondCodes) (fn fz fv : Bool)

/-! ## `setReg` -/

@[simp] theorem setReg_cc : (s.setReg n v).cc = s.cc := rfl
@[simp] theorem setReg_ccWritten : (s.setReg n v).ccWritten = s.ccWritten := rfl
@[simp] theorem setReg_iv : (s.setReg n v).iv = s.iv := rfl
@[simp] theorem setReg_mem : (s.setReg n v).mem = s.mem := rfl
@[simp] theorem setReg_params : (s.setReg n v).params = s.params := rfl

theorem reg_setReg : (s.setReg n v).reg m = if m = n then v else s.reg m := by
  simp only [State.reg, State.setReg, Vector.getElem_set, Fin.ext_iff, eq_comm]

theorem isWritten_setReg : (s.setReg n v).isWritten m = (decide (m = n) || s.isWritten m) := by
  simp only [State.isWritten, State.setReg, Vector.getElem_set]
  by_cases h : n = m
  · simp [h]
  · have h' : ¬ n.val = m.val := fun e => h (Fin.ext e)
    simp [h', Ne.symm h]

@[simp] theorem reg_setReg_self : (s.setReg n v).reg n = v := by simp [reg_setReg]

theorem reg_setReg_ne {n m : Reg} (h : m ≠ n) : (s.setReg n v).reg m = s.reg m := by simp [reg_setReg, h]

@[simp] theorem isWritten_setReg_self : (s.setReg n v).isWritten n = true := by simp [isWritten_setReg]

/-! ## `setPc` -/

@[simp] theorem setPc_regWritten : (s.setPc v).regWritten = s.regWritten := rfl
@[simp] theorem setPc_cc : (s.setPc v).cc = s.cc := rfl
@[simp] theorem setPc_ccWritten : (s.setPc v).ccWritten = s.ccWritten := rfl
@[simp] theorem setPc_iv : (s.setPc v).iv = s.iv := rfl
@[simp] theorem setPc_mem : (s.setPc v).mem = s.mem := rfl
@[simp] theorem setPc_params : (s.setPc v).params = s.params := rfl
@[simp] theorem setPc_isWritten : (s.setPc v).isWritten m = s.isWritten m := rfl

theorem reg_setPc : (s.setPc v).reg m = if m = pcReg then v else s.reg m := by
  simp only [State.reg, State.setPc, Vector.getElem_set, Fin.ext_iff, eq_comm]

theorem reg_setPc_ne {m : Reg} (h : m ≠ pcReg) : (s.setPc v).reg m = s.reg m := by simp [reg_setPc, h]

@[simp] theorem pc_setPc : (s.setPc v).pc = v := by simp [State.pc, reg_setPc]

theorem pc_setReg_ne {n : Reg} (h : n ≠ pcReg) : (s.setReg n v).pc = s.pc := by
  simp [State.pc, reg_setReg, Ne.symm h]

@[simp] theorem setPc_setPc (u : Word) : (s.setPc u).setPc v = s.setPc v := by
  simp [State.setPc, Vector.set_set]

theorem setPc_self : s.setPc s.pc = s := by
  simp [State.setPc, State.pc, State.reg]

theorem setReg_setPc {n : Reg} (h : n ≠ pcReg) (u : Word) :
    (s.setPc u).setReg n v = (s.setReg n v).setPc u := by
  have : pcReg.val ≠ n.val := fun e => h (Fin.ext e.symm)
  simp only [State.setReg, State.setPc]
  rw [Vector.set_comm _ _ this]

/-! ## The condition codes -/

@[simp] theorem setNZVC_regs : (s.setNZVC x).regs = s.regs := rfl
@[simp] theorem setNZVC_regWritten : (s.setNZVC x).regWritten = s.regWritten := rfl
@[simp] theorem setNZVC_cc : (s.setNZVC x).cc = x := rfl
@[simp] theorem setNZVC_ccWritten : (s.setNZVC x).ccWritten = ⟨true, true, true, true⟩ := rfl
@[simp] theorem setNZVC_iv : (s.setNZVC x).iv = s.iv := rfl
@[simp] theorem setNZVC_mem : (s.setNZVC x).mem = s.mem := rfl
@[simp] theorem setNZVC_params : (s.setNZVC x).params = s.params := rfl
@[simp] theorem setNZVC_reg : (s.setNZVC x).reg m = s.reg m := rfl
@[simp] theorem setNZVC_isWritten : (s.setNZVC x).isWritten m = s.isWritten m := rfl
@[simp] theorem setNZVC_pc : (s.setNZVC x).pc = s.pc := rfl

@[simp] theorem setNZV_regs : (s.setNZV fn fz fv).regs = s.regs := rfl
@[simp] theorem setNZV_regWritten : (s.setNZV fn fz fv).regWritten = s.regWritten := rfl
@[simp] theorem setNZV_cc : (s.setNZV fn fz fv).cc = ⟨fn, fz, fv, s.cc.c⟩ := rfl
@[simp] theorem setNZV_ccWritten : (s.setNZV fn fz fv).ccWritten = ⟨true, true, true, s.ccWritten.c⟩ := rfl
@[simp] theorem setNZV_iv : (s.setNZV fn fz fv).iv = s.iv := rfl
@[simp] theorem setNZV_mem : (s.setNZV fn fz fv).mem = s.mem := rfl
@[simp] theorem setNZV_params : (s.setNZV fn fz fv).params = s.params := rfl
@[simp] theorem setNZV_reg : (s.setNZV fn fz fv).reg m = s.reg m := rfl
@[simp] theorem setNZV_isWritten : (s.setNZV fn fz fv).isWritten m = s.isWritten m := rfl
@[simp] theorem setNZV_pc : (s.setNZV fn fz fv).pc = s.pc := rfl

/-! ## Memory contents -/

variable (k : Memory)

@[simp] theorem withMem_reg : ({ s with mem := k } : State).reg m = s.reg m := rfl
@[simp] theorem withMem_isWritten : ({ s with mem := k } : State).isWritten m = s.isWritten m := rfl
@[simp] theorem withMem_pc : ({ s with mem := k } : State).pc = s.pc := rfl

/-! ## The predicates on addresses and the bytes of memory -/

variable (a : Word)

@[simp] theorem setReg_isReadable : (s.setReg n v).isReadable a = s.isReadable a := rfl
@[simp] theorem setReg_isWritable : (s.setReg n v).isWritable a = s.isWritable a := rfl
@[simp] theorem setReg_isCode : (s.setReg n v).isCode a = s.isCode a := rfl
@[simp] theorem setReg_byteAt : (s.setReg n v).byteAt a = s.byteAt a := rfl
@[simp] theorem setPc_isReadable : (s.setPc v).isReadable a = s.isReadable a := rfl
@[simp] theorem setPc_isWritable : (s.setPc v).isWritable a = s.isWritable a := rfl
@[simp] theorem setPc_isCode : (s.setPc v).isCode a = s.isCode a := rfl
@[simp] theorem setPc_byteAt : (s.setPc v).byteAt a = s.byteAt a := rfl
@[simp] theorem setNZVC_byteAt : (s.setNZVC x).byteAt a = s.byteAt a := rfl
@[simp] theorem setNZV_byteAt : (s.setNZV fn fz fv).byteAt a = s.byteAt a := rfl

end Sys2Proof.Machine
end

