-- ==== Sys2Proof/Laws/Memory.lean ====
section
/-! SUPPORT. Memory as data: a read after a write, and the canonical form, which every operation keeps. -/

namespace Sys2Proof.Machine

open Sys2Proof

/-- A memory whose addresses are all at least `lo` has nothing listed below `lo`. -/
theorem Memory.read_of_lt (m : Memory) (lo a : Nat) (h : Memory.wfFrom lo m = true) (ha : a < lo) :
    Memory.read m a = unlistedByte := by
  induction m generalizing lo with
  | nil => rfl
  | cons kb m ih =>
    obtain ⟨k, b⟩ := kb
    simp only [Memory.wfFrom, Bool.and_eq_true, decide_eq_true_eq] at h
    rw [Memory.read, if_neg (by omega)]
    exact ih (k + 1) h.2 (by omega)

/-- The canonical form from an address on is that from any address below. -/
theorem Memory.wfFrom_mono (m : Memory) (lo lo' : Nat) (h : Memory.wfFrom lo m = true) (hl : lo' ≤ lo) :
    Memory.wfFrom lo' m = true := by
  cases m with
  | nil => rfl
  | cons kb m =>
    obtain ⟨k, b⟩ := kb
    simp only [Memory.wfFrom, Bool.and_eq_true, decide_eq_true_eq] at h ⊢
    exact ⟨⟨⟨by omega, h.1.1.2⟩, h.1.2⟩, h.2⟩

/-- A read after a write: the written byte at its address, what stood there elsewhere. -/
theorem Memory.read_write (m : Memory) (lo a : Nat) (v : Byte) (h : Memory.wfFrom lo m = true) (x : Nat) :
    Memory.read (Memory.write m a v) x = if x = a then v else Memory.read m x := by
  induction m generalizing lo with
  | nil =>
    by_cases hv : v = unlistedByte <;> by_cases hx : x = a <;> simp [Memory.write, Memory.read, hv, hx]
  | cons kb m ih =>
    obtain ⟨k, b⟩ := kb
    simp only [Memory.wfFrom, Bool.and_eq_true, decide_eq_true_eq] at h
    rw [Memory.write]
    by_cases h1 : a < k
    · rw [if_pos h1]
      by_cases hv : v = unlistedByte
      · rw [if_pos hv]
        by_cases hx : x = a
        · subst hx
          rw [if_pos rfl, Memory.read, if_neg (by omega), hv]
          exact Memory.read_of_lt m (k + 1) x h.2 (by omega)
        · rw [if_neg hx]
      · rw [if_neg hv, Memory.read]
    · rw [if_neg h1]
      by_cases h2 : a = k
      · subst h2
        rw [if_pos rfl]
        by_cases hv : v = unlistedByte
        · rw [if_pos hv]
          by_cases hx : x = a
          · subst hx
            rw [if_pos rfl, hv]
            exact Memory.read_of_lt m (x + 1) x h.2 (by omega)
          · rw [if_neg hx, Memory.read, if_neg hx]
        · rw [if_neg hv, Memory.read, Memory.read]
          by_cases hx : x = a <;> simp [hx]
      · rw [if_neg h2, Memory.read, Memory.read, ih (k + 1) h.2]
        by_cases hx : x = k
        · subst hx
          simp [show ¬ x = a from fun e => h2 e.symm]
        · simp [hx]

/-- A write keeps the canonical form. -/
theorem Memory.wfFrom_write (m : Memory) (lo a : Nat) (v : Byte) (h : Memory.wfFrom lo m = true) (hlo : lo ≤ a)
    (ha : a < addressCount) : Memory.wfFrom lo (Memory.write m a v) = true := by
  induction m generalizing lo with
  | nil =>
    rw [Memory.write]
    by_cases hv : v = unlistedByte
    · rw [if_pos hv]; rfl
    · rw [if_neg hv]; simp [Memory.wfFrom, hv, hlo, ha]
  | cons kb m ih =>
    obtain ⟨k, b⟩ := kb
    have h0 := h
    simp only [Memory.wfFrom, Bool.and_eq_true, decide_eq_true_eq] at h
    rw [Memory.write]
    by_cases h1 : a < k
    · rw [if_pos h1]
      by_cases hv : v = unlistedByte
      · rw [if_pos hv]; exact h0
      · rw [if_neg hv]
        simp only [Memory.wfFrom, Bool.and_eq_true, decide_eq_true_eq, bne_iff_ne, ne_eq]
        exact ⟨⟨⟨hlo, ha⟩, hv⟩, ⟨⟨⟨by omega, h.1.1.2⟩, by simpa using h.1.2⟩, h.2⟩⟩
    · rw [if_neg h1]
      by_cases h2 : a = k
      · subst h2
        rw [if_pos rfl]
        by_cases hv : v = unlistedByte
        · rw [if_pos hv]; exact Memory.wfFrom_mono m (a + 1) lo h.2 (by omega)
        · rw [if_neg hv]
          simp only [Memory.wfFrom, Bool.and_eq_true, decide_eq_true_eq, bne_iff_ne, ne_eq]
          exact ⟨⟨⟨hlo, ha⟩, hv⟩, h.2⟩
      · rw [if_neg h2]
        simp only [Memory.wfFrom, Bool.and_eq_true, decide_eq_true_eq]
        exact ⟨h.1, ih (k + 1) h.2 (by omega)⟩

/-- A write keeps memory canonical. -/
theorem Memory.wf_write (m : Memory) (a : Word) (v : Byte) (h : m.wf = true) :
    (Memory.write m a.toNat v).wf = true :=
  Memory.wfFrom_write m 0 a.toNat v h (Nat.zero_le _) a.isLt

/-- In canonical memory, a read after a write. -/
theorem Memory.wf_read_write (m : Memory) (a x : Word) (v : Byte) (h : m.wf = true) :
    Memory.read (Memory.write m a.toNat v) x.toNat = if x = a then v else Memory.read m x.toNat := by
  rw [Memory.read_write m 0 a.toNat v h]
  simp only [BitVec.toNat_inj]

/-- Storing a value's bytes keeps memory canonical. -/
theorem wf_storeBytes (m : Memory) (a : Word) (n v : Nat) (h : m.wf = true) : (storeBytes m a n v).wf = true := by
  induction n generalizing m a v with
  | zero => exact h
  | succ n ih => exact ih _ _ _ (Memory.wf_write m a _ h)

/-- A byte outside the `n` bytes from `a` reads as before they are stored. -/
theorem read_storeBytes_outside (m : Memory) (a x : Word) (n v : Nat) (h : m.wf = true)
    (hx : ∀ k : Nat, k < n → x ≠ a + BitVec.ofNat 32 k) :
    (storeBytes m a n v).read x.toNat = m.read x.toNat := by
  induction n generalizing m a v with
  | zero => rfl
  | succ n ih =>
    rw [storeBytes, ih _ _ _ (Memory.wf_write m a _ h)]
    · rw [Memory.wf_read_write m a x _ h, if_neg]
      simpa using hx 0 (by omega)
    · intro k hk e
      refine hx (k + 1) (by omega) ?_
      rw [e, BitVec.add_assoc, BitVec.ofNat_add, BitVec.add_comm (BitVec.ofNat 32 k)]
      rfl

/-- Byte `k` of the bytes stored from `a` on is byte `k` of the value. -/
theorem read_storeBytes_inside (m : Memory) (a : Word) (n v k : Nat) (h : m.wf = true) (hn : n ≤ addressCount)
    (hk : k < n) :
    (storeBytes m a n v).read (a + BitVec.ofNat 32 k).toNat = BitVec.ofNat 8 (v / 256 ^ k) := by
  induction n generalizing m a v k with
  | zero => omega
  | succ n ih =>
    rw [storeBytes]
    cases k with
    | zero =>
      have hne : ∀ j : Nat, j < n → a + BitVec.ofNat 32 0 ≠ a + 1 + BitVec.ofNat 32 j := by
        intro j hj e
        have e' := congrArg BitVec.toNat e
        have one : (1 : Word).toNat = 1 := rfl
        simp only [BitVec.toNat_add, BitVec.toNat_ofNat, one] at e'
        unfold addressCount at hn
        have := a.isLt
        omega
      rw [read_storeBytes_outside _ _ _ _ _ (Memory.wf_write m a _ h) hne]
      rw [Memory.wf_read_write m a _ _ h]
      simp
    | succ k =>
      have e : a + BitVec.ofNat 32 (k + 1) = a + 1 + BitVec.ofNat 32 k := by
        rw [BitVec.add_assoc, BitVec.ofNat_add, BitVec.add_comm (BitVec.ofNat 32 k)]
        rfl
      rw [e, ih _ _ _ _ (Memory.wf_write m a _ h) (by omega) (by omega)]
      rw [Nat.div_div_eq_div_mul, Nat.pow_succ, Nat.mul_comm]

/-- Loading bytes that memory holds a value in gives the value, reduced to that many bytes. -/
theorem loadBytes_of_bytes (m : Memory) (a : Word) (n v : Nat)
    (h : ∀ k : Nat, k < n → m.read (a + BitVec.ofNat 32 k).toNat = BitVec.ofNat 8 (v / 256 ^ k)) :
    loadBytes m a n = v % 256 ^ n := by
  induction n generalizing a v with
  | zero => simp [loadBytes, Nat.mod_one]
  | succ n ih =>
    rw [loadBytes, ih (a + 1) (v / 256)]
    · have h0 := h 0 (by omega)
      simp only [BitVec.add_zero, Nat.pow_zero, Nat.div_one] at h0
      have hp : 256 ^ (n + 1) = 256 * 256 ^ n := by rw [Nat.pow_succ, Nat.mul_comm]
      rw [h0, BitVec.toNat_ofNat, hp, Nat.mod_mul]
    · intro k hk
      have hk' := h (k + 1) (by omega)
      have e : a + BitVec.ofNat 32 (k + 1) = a + 1 + BitVec.ofNat 32 k := by
        rw [BitVec.add_assoc, BitVec.ofNat_add, BitVec.add_comm (BitVec.ofNat 32 k)]
        rfl
      rw [e] at hk'
      rw [hk', Nat.div_div_eq_div_mul, Nat.pow_succ, Nat.mul_comm]

/-- Loading what was just stored. -/
theorem loadBytes_storeBytes (m : Memory) (a : Word) (n v : Nat) (h : m.wf = true) (hn : n ≤ addressCount) :
    loadBytes (storeBytes m a n v) a n = v % 256 ^ n :=
  loadBytes_of_bytes _ a n v fun k hk => read_storeBytes_inside m a n v k h hn hk

/-- Loading depends on the loaded bytes only. -/
theorem loadBytes_congr (m m' : Memory) (a : Word) (n : Nat)
    (h : ∀ k : Nat, k < n → m.read (a + BitVec.ofNat 32 k).toNat = m'.read (a + BitVec.ofNat 32 k).toNat) :
    loadBytes m a n = loadBytes m' a n := by
  induction n generalizing a with
  | zero => rfl
  | succ n ih =>
    have h0 := h 0 (by omega)
    simp only [BitVec.add_zero] at h0
    rw [loadBytes, loadBytes, h0, ih (a + 1)]
    intro k hk
    have hk' := h (k + 1) (by omega)
    have e : a + BitVec.ofNat 32 (k + 1) = a + 1 + BitVec.ofNat 32 k := by
      rw [BitVec.add_assoc, BitVec.ofNat_add, BitVec.add_comm (BitVec.ofNat 32 k)]
      rfl
    rwa [e] at hk'

end Sys2Proof.Machine
end

