-- ==== Sys2Proof/Laws/Ops.lean ====
section
/-! SUPPORT. One lemma for each shared operation that says when it succeeds and with what: what a proof about an instruction
cites instead of unfolding the operation. -/

namespace Sys2Proof.Machine

open Sys2Proof

/-! ## Sequencing -/

theorem bind_ok {α β : Type} {x : Except Stop α} {f : α → Except Stop β} {b : β} :
    (x >>= f) = .ok b ↔ ∃ a, x = .ok a ∧ f a = .ok b := by
  cases x with
  | error e => simp [bind, Except.bind]
  | ok a => simp [bind, Except.bind]

@[simp] theorem raiseFault_ok {α : Type} (f : Fault) (a : α) : (raiseFault f : Except Stop α) = .ok a ↔ False := by
  simp [raiseFault]

@[simp] theorem raiseRefuse_ok {α : Type} (r : Refusal) (a : α) :
    (raiseRefuse r : Except Stop α) = .ok a ↔ False := by
  simp [raiseRefuse]

theorem outcome_next {x : Except Stop State} {t : State} : outcome x = .next t ↔ x = .ok t := by
  cases x with
  | ok s => simp [outcome]
  | error e => cases e <;> simp [outcome]

theorem outcome_fault {x : Except Stop State} {f : Fault} : outcome x = .fault f ↔ x = .error (.fault f) := by
  cases x with
  | ok s => simp [outcome]
  | error e => cases e <;> simp [outcome]

theorem outcome_refused {x : Except Stop State} {r : Refusal} : outcome x = .refused r ↔ x = .error (.refuse r) := by
  cases x with
  | ok s => simp [outcome]
  | error e => cases e <;> simp [outcome]

/-! ## Registers and condition codes -/

theorem readReg_ok {n : Reg} {s : State} {v : Word} :
    readReg n s = .ok v ↔ s.isWritten n = true ∧ v = s.reg n := by
  unfold readReg
  by_cases h : s.isWritten n = true
  · simp [h, eq_comm]
  · simp [h]

theorem readFlag_ok {f : Flag} {s : State} {b : Bool} :
    readFlag f s = .ok b ↔ s.ccWritten.get f = true ∧ b = s.cc.get f := by
  unfold readFlag
  by_cases h : s.ccWritten.get f = true
  · simp [h, eq_comm]
  · simp [h]

/-! ## Checks -/

/-- A byte range without its first byte, as the recursive checks take it. -/
theorem forall_lt_succ_addr (P : Word → Prop) (a : Word) (n : Nat) :
    (∀ k : Nat, k < n + 1 → P (a + BitVec.ofNat 32 k)) ↔ P a ∧ ∀ k : Nat, k < n → P (a + 1 + BitVec.ofNat 32 k) := by
  have e : ∀ k : Nat, a + BitVec.ofNat 32 (k + 1) = a + 1 + BitVec.ofNat 32 k := by
    intro k
    rw [BitVec.add_assoc, BitVec.ofNat_add, BitVec.add_comm (BitVec.ofNat 32 k)]
    rfl
  constructor
  · intro h
    refine ⟨by simpa using h 0 (by omega), fun k hk => ?_⟩
    rw [← e]
    exact h (k + 1) (by omega)
  · rintro ⟨h0, h1⟩ k hk
    cases k with
    | zero => simpa using h0
    | succ k =>
      rw [e]
      exact h1 k (by omega)

theorem checkRead_ok {s : State} {a : Word} {n : Nat} : checkRead s a n = .ok () ↔ s.ReadableFrom a n := by
  unfold State.ReadableFrom
  induction n generalizing a with
  | zero => simp [checkRead]
  | succ n ih =>
    rw [forall_lt_succ_addr (fun x => s.isReadable x = true), checkRead, ← ih]
    by_cases h : s.isReadable a = true <;> simp [h]

theorem checkWrite_ok {s : State} {a : Word} {n : Nat} : checkWrite s a n = .ok () ↔ s.WritableFrom a n := by
  unfold State.WritableFrom
  induction n generalizing a with
  | zero => simp [checkWrite]
  | succ n ih =>
    rw [forall_lt_succ_addr (fun x => s.isWritable x = true ∧ s.isCode x = false), checkWrite, ← ih]
    by_cases h : s.isWritable a = true <;> by_cases h' : s.isCode a = true <;> simp [h, h']

theorem checkCode_ok {s : State} {a : Word} {n : Nat} :
    checkCode s a n = .ok () ↔ ∀ k : Nat, k < n → s.isCode (a + BitVec.ofNat 32 k) = true := by
  induction n generalizing a with
  | zero => simp [checkCode]
  | succ n ih =>
    rw [forall_lt_succ_addr (fun x => s.isCode x = true), checkCode, ← ih]
    by_cases h : s.isCode a = true <;> simp [h]

/-! ## Memory, the instruction stream, the stack -/

theorem memRead_ok {a : Word} {n : Nat} {s : State} {v : BitVec (8 * n)} :
    memRead a n s = .ok v ↔ s.ReadableFrom a n ∧ v = BitVec.ofNat (8 * n) (loadBytes s.mem a n) := by
  rw [← checkRead_ok]
  unfold memRead
  split <;> rename_i h <;> simp [h, eq_comm]

theorem memWrite_ok {a : Word} {n : Nat} {v : BitVec (8 * n)} {s t : State} :
    memWrite a n v s = .ok t ↔
      s.WritableFrom a n ∧ t = { s with mem := storeBytes s.mem a n v.toNat } := by
  rw [← checkWrite_ok]
  unfold memWrite
  split <;> rename_i h <;> simp [h, eq_comm]

theorem fetch_ok {n : Nat} {s t : State} : fetch n s = .ok t ↔ s.Fetchable n ∧ t = s.advance n := by
  have hF : s.Fetchable n ↔ checkCode s s.pc n = .ok () ∧ checkRead s s.pc n = .ok () := by
    rw [checkCode_ok, checkRead_ok]
    unfold State.Fetchable State.ReadableFrom
    exact ⟨fun h => ⟨fun k hk => (h k hk).1, fun k hk => (h k hk).2⟩, fun h k hk => ⟨h.1 k hk, h.2 k hk⟩⟩
  rw [hF]
  unfold fetch
  split
  · rename_i h1
    split
    · rename_i h2
      simp [h1, h2, State.advance, eq_comm]
    · rename_i h2
      simp [h2]
  · rename_i h1
    simp [h1]

theorem Ctx.fetch_ok {n : Nat} {c c' : Ctx} :
    c.fetch n = .ok c' ↔ c.st.Fetchable n ∧ c' = { c with st := c.st.advance n } := by
  unfold Ctx.fetch
  cases h : Machine.fetch n c.st with
  | ok s =>
    obtain ⟨hf, rfl⟩ := Machine.fetch_ok.1 h
    simp [hf, eq_comm]
  | error e =>
    have : ¬ c.st.Fetchable n := fun hf => by
      rw [Machine.fetch_ok.2 ⟨hf, rfl⟩] at h
      cases h
    simp [this]

theorem branchTarget_ok {w bytes : Nat} {disp : BitVec w} {s t : State} {a : Word} :
    branchTarget bytes disp s = .ok (a, t) ↔
      s.Fetchable bytes ∧ t = s.advance bytes ∧ a = (s.advance bytes).pc + disp.signExtend 32 := by
  unfold branchTarget
  cases h : Machine.fetch bytes s with
  | ok u =>
    obtain ⟨hf, rfl⟩ := Machine.fetch_ok.1 h
    simp [hf, eq_comm, and_comm]
  | error e =>
    have : ¬ s.Fetchable bytes := fun hf => by
      rw [Machine.fetch_ok.2 ⟨hf, rfl⟩] at h
      cases h
    simp [this]

theorem pushLongword_ok {v : Word} {s t : State} :
    pushLongword v s = .ok t ↔
      s.isWritten spReg = true ∧ s.WritableFrom (s.reg spReg - 4) 4 ∧
        t = { s.setReg spReg (s.reg spReg - 4) with mem := storeBytes s.mem (s.reg spReg - 4) 4 v.toNat } := by
  unfold pushLongword
  cases h : readReg spReg s with
  | ok sp =>
    obtain ⟨hw, rfl⟩ := readReg_ok.1 h
    simp only [hw, true_and]
    rw [memWrite_ok]
    rfl
  | error e =>
    have : ¬ s.isWritten spReg = true := fun hw => by
      rw [readReg_ok.2 ⟨hw, rfl⟩] at h
      cases h
    simp [this]

theorem overflowTrap_ok {v : Bool} {s t : State} :
    overflowTrap v s = .ok t ↔ (s.iv && v) = false ∧ t = s := by
  unfold overflowTrap
  cases h : (s.iv && v)
  · simp [eq_comm]
  · simp

/-! ## The program counter past a run of bytes -/

@[simp] theorem advance_regWritten (s : State) (n : Nat) : (s.advance n).regWritten = s.regWritten := rfl
@[simp] theorem advance_cc (s : State) (n : Nat) : (s.advance n).cc = s.cc := rfl
@[simp] theorem advance_ccWritten (s : State) (n : Nat) : (s.advance n).ccWritten = s.ccWritten := rfl
@[simp] theorem advance_iv (s : State) (n : Nat) : (s.advance n).iv = s.iv := rfl
@[simp] theorem advance_mem (s : State) (n : Nat) : (s.advance n).mem = s.mem := rfl
@[simp] theorem advance_params (s : State) (n : Nat) : (s.advance n).params = s.params := rfl
@[simp] theorem advance_isWritten (s : State) (n : Nat) (m : Reg) : (s.advance n).isWritten m = s.isWritten m := rfl
@[simp] theorem advance_isCode (s : State) (n : Nat) (a : Word) : (s.advance n).isCode a = s.isCode a := rfl
@[simp] theorem advance_isReadable (s : State) (n : Nat) (a : Word) : (s.advance n).isReadable a = s.isReadable a := rfl
@[simp] theorem advance_pc (s : State) (n : Nat) : (s.advance n).pc = s.pc + BitVec.ofNat 32 n := pc_setPc _ _

@[simp] theorem start_regWritten (s : State) : s.start.regWritten = s.regWritten := rfl
@[simp] theorem start_cc (s : State) : s.start.cc = s.cc := rfl
@[simp] theorem start_ccWritten (s : State) : s.start.ccWritten = s.ccWritten := rfl
@[simp] theorem start_iv (s : State) : s.start.iv = s.iv := rfl
@[simp] theorem start_mem (s : State) : s.start.mem = s.mem := rfl
@[simp] theorem start_params (s : State) : s.start.params = s.params := rfl
@[simp] theorem start_isWritten (s : State) (m : Reg) : s.start.isWritten m = s.isWritten m := rfl
@[simp] theorem start_pc (s : State) : s.start.pc = s.pc + 1 := pc_setPc _ _

theorem advance_reg {s : State} {n : Nat} {m : Reg} (h : m ≠ pcReg) : (s.advance n).reg m = s.reg m :=
  reg_setPc_ne _ _ h

theorem Gpr.reg_ne_pc (n : Gpr) : n.reg ≠ pcReg := by
  intro e
  have := congrArg Fin.val e
  have h := n.isLt
  simp only [Gpr.reg, pcReg, Fin.val_castSucc] at this
  change n.val = 15 at this
  omega

@[simp] theorem advance_reg_gpr (s : State) (n : Nat) (m : Gpr) : (s.advance n).reg m.reg = s.reg m.reg :=
  advance_reg (Gpr.reg_ne_pc m)

theorem advance_advance (s : State) (n m : Nat) : (s.advance n).advance m = s.advance (n + m) := by
  unfold State.advance
  rw [pc_setPc, setPc_setPc, BitVec.add_assoc, BitVec.ofNat_add]

@[simp] theorem advance_zero (s : State) : s.advance 0 = s := by
  simp [State.advance, setPc_self]

/-- Fetching in two goes is fetching at once. -/
theorem Fetchable_add (s : State) (n m : Nat) :
    s.Fetchable (n + m) ↔ s.Fetchable n ∧ (s.advance n).Fetchable m := by
  unfold State.Fetchable
  simp only [advance_isCode, advance_isReadable, advance_pc]
  constructor
  · refine fun h => ⟨fun k hk => h k (by omega), fun k hk => ?_⟩
    have := h (n + k) (by omega)
    rwa [BitVec.ofNat_add, ← BitVec.add_assoc] at this
  · rintro ⟨h1, h2⟩ k hk
    by_cases hkn : k < n
    · exact h1 k hkn
    · have := h2 (k - n) (by omega)
      rwa [BitVec.add_assoc, ← BitVec.ofNat_add, show n + (k - n) = k by omega] at this

@[simp] theorem Fetchable_zero (s : State) : s.Fetchable 0 := fun _ hk => absurd hk (Nat.not_lt_zero _)

end Sys2Proof.Machine
end

