-- ==== Sys2Proof/Laws/Operands.lean ====
section
/-! SUPPORT. What the evaluation of an operand specifier can do, said once: it succeeds exactly when the specifier is
`Ready`, and then the location and the state are `Spec.loc` and `Spec.after` (R102, R119). Proofs about instructions cite
these and do not unfold the evaluation. -/

namespace Sys2Proof.Machine

open Sys2Proof

/-! ## The modes that designate memory -/

/-- The context after a mode's evaluation. -/
def Ctx.afterMem (d : Nat) (m : MemSpec) (c : Ctx) : Ctx where
  st := m.after d (c.st.advance m.ext)
  modified := (steppedReg m).toList ++ c.modified
  regUsed := c.regUsed

theorem pointerAt_ok {p a : Word} {s : State} : pointerAt p s = .ok a ↔ s.ReadableFrom p 4 ∧ a = s.longAt p :=
  memRead_ok

theorem displaced_ok {w bytes : Nat} {n : Gpr} {disp : BitVec w} {c c' : Ctx} {a : Word} :
    displaced bytes n disp c = .ok (a, c') ↔
      c.st.Fetchable bytes ∧ c.st.isWritten n.reg = true ∧ a = c.st.reg n.reg + disp.signExtend 32 ∧
        c' = { c with st := c.st.advance bytes } := by
  unfold displaced
  constructor
  · intro h
    obtain ⟨c1, h1, h⟩ := bind_ok.1 h
    obtain ⟨hf, rfl⟩ := Ctx.fetch_ok.1 h1
    obtain ⟨x, h2, h⟩ := bind_ok.1 h
    obtain ⟨hw, rfl⟩ := readReg_ok.1 h2
    cases h
    exact ⟨hf, hw, by simp, rfl⟩
  · rintro ⟨hf, hw, rfl, rfl⟩
    exact bind_ok.2 ⟨_, Ctx.fetch_ok.2 ⟨hf, rfl⟩, bind_ok.2 ⟨_, readReg_ok.2 ⟨hw, rfl⟩, by simp⟩⟩

theorem relative_ok {w bytes : Nat} {disp : BitVec w} {c c' : Ctx} {a : Word} :
    relative bytes disp c = .ok (a, c') ↔
      c.st.Fetchable bytes ∧ a = (c.st.advance bytes).pc + disp.signExtend 32 ∧
        c' = { c with st := c.st.advance bytes } := by
  unfold relative
  constructor
  · intro h
    obtain ⟨c1, h1, h⟩ := bind_ok.1 h
    obtain ⟨hf, rfl⟩ := Ctx.fetch_ok.1 h1
    cases h
    exact ⟨hf, rfl, rfl⟩
  · rintro ⟨hf, rfl, rfl⟩
    exact bind_ok.2 ⟨_, Ctx.fetch_ok.2 ⟨hf, rfl⟩, rfl⟩

theorem deferred_ok {x : Except Stop (Word × Ctx)} {c' : Ctx} {a : Word} :
    deferred x = .ok (a, c') ↔ ∃ p, x = .ok (p, c') ∧ c'.st.ReadableFrom p 4 ∧ a = c'.st.longAt p := by
  unfold deferred
  constructor
  · intro h
    obtain ⟨⟨p, c1⟩, h1, h⟩ := bind_ok.1 h
    obtain ⟨b, h2, h⟩ := bind_ok.1 h
    obtain ⟨hr, rfl⟩ := pointerAt_ok.1 h2
    cases h
    exact ⟨p, h1, hr, rfl⟩
  · rintro ⟨p, h1, hr, rfl⟩
    exact bind_ok.2 ⟨_, h1, bind_ok.2 ⟨_, pointerAt_ok.2 ⟨hr, rfl⟩, rfl⟩⟩

theorem deferred_displaced_ok {w bytes : Nat} {n : Gpr} {disp : BitVec w} {c c' : Ctx} {a : Word} :
    deferred (displaced bytes n disp c) = .ok (a, c') ↔
      c.st.Fetchable bytes ∧ c.st.isWritten n.reg = true ∧
        (c.st.advance bytes).ReadableFrom (c.st.reg n.reg + disp.signExtend 32) 4 ∧
        a = (c.st.advance bytes).longAt (c.st.reg n.reg + disp.signExtend 32) ∧
        c' = { c with st := c.st.advance bytes } := by
  rw [deferred_ok]
  constructor
  · rintro ⟨p, hp, hr, rfl⟩
    obtain ⟨hf, hw, rfl, rfl⟩ := displaced_ok.1 hp
    exact ⟨hf, hw, hr, rfl, rfl⟩
  · rintro ⟨hf, hw, hr, rfl, rfl⟩
    exact ⟨_, displaced_ok.2 ⟨hf, hw, rfl, rfl⟩, hr, rfl⟩

theorem deferred_relative_ok {w bytes : Nat} {disp : BitVec w} {c c' : Ctx} {a : Word} :
    deferred (relative bytes disp c) = .ok (a, c') ↔
      c.st.Fetchable bytes ∧
        (c.st.advance bytes).ReadableFrom ((c.st.advance bytes).pc + disp.signExtend 32) 4 ∧
        a = (c.st.advance bytes).longAt ((c.st.advance bytes).pc + disp.signExtend 32) ∧
        c' = { c with st := c.st.advance bytes } := by
  rw [deferred_ok]
  constructor
  · rintro ⟨p, hp, hr, rfl⟩
    obtain ⟨hf, rfl, rfl⟩ := relative_ok.1 hp
    exact ⟨hf, hr, rfl, rfl⟩
  · rintro ⟨hf, hr, rfl, rfl⟩
    exact ⟨_, relative_ok.2 ⟨hf, rfl, rfl⟩, hr, rfl⟩

theorem longAt_advance (s : State) (n : Nat) (p : Word) : (s.advance n).longAt p = s.longAt p := rfl

theorem MemSpec.ready_iff {m : MemSpec} {s : State} :
    m.Ready s ↔ m.Legal ∧ (m.reads.all fun n => s.isWritten n) = true ∧
      (∀ p ∈ (m.pointer s).toList, s.ReadableFrom p 4) := by
  unfold MemSpec.Ready
  cases m.reads <;> cases m.pointer s <;> simp

/-- The address of a mode that designates memory, once and for all (R109 to R118, R122 to R128, R130). -/
theorem address_ok {d : Nat} {m : MemSpec} {c c' : Ctx} {a : Word} :
    address d m c = .ok (a, c') ↔
      c.st.Fetchable m.ext ∧ m.Ready (c.st.advance m.ext) ∧ a = m.operandAddress d (c.st.advance m.ext) ∧
        c' = c.afterMem d m := by
  rw [eq_comm (a := a), eq_comm (a := c')]
  cases m with
  | registerDeferred n =>
    by_cases hn : n = pcReg
    · simp [address, hn, MemSpec.ready_iff, MemSpec.Legal]
    · simp [address, hn, bind_ok, readReg_ok, MemSpec.ready_iff, MemSpec.Legal, MemSpec.reads, MemSpec.pointer,
        MemSpec.ext, MemSpec.operandAddress, Ctx.afterMem, MemSpec.after, steppedReg]
  | autodecrement n =>
    by_cases hn : n = pcReg
    · simp [address, hn, MemSpec.ready_iff, MemSpec.Legal]
    · simp [address, hn, bind_ok, readReg_ok, MemSpec.ready_iff, MemSpec.Legal, MemSpec.reads, MemSpec.pointer,
        MemSpec.ext, MemSpec.operandAddress, Ctx.afterMem, MemSpec.after, steppedReg, MemSpec.stepBy, Ctx.stepReg,
        BitVec.sub_eq_add_neg]
  | autoincrement n =>
    simp [address, bind_ok, readReg_ok, MemSpec.ready_iff, MemSpec.Legal, MemSpec.reads, MemSpec.pointer,
      MemSpec.ext, MemSpec.operandAddress, Ctx.afterMem, MemSpec.after, steppedReg, MemSpec.stepBy, Ctx.stepReg]
  | autoincrementDeferred n =>
    simp [address, bind_ok, readReg_ok, pointerAt_ok, MemSpec.ready_iff, MemSpec.Legal, MemSpec.reads, MemSpec.pointer,
      MemSpec.ext, MemSpec.operandAddress, Ctx.afterMem, MemSpec.after, steppedReg, MemSpec.stepBy, Ctx.stepReg, and_assoc]
  | absolute addr =>
    simp [address, bind_ok, Ctx.fetch_ok, MemSpec.ready_iff, MemSpec.Legal, MemSpec.reads, MemSpec.pointer,
      MemSpec.ext, MemSpec.operandAddress, Ctx.afterMem, MemSpec.after, steppedReg, eq_comm (b := c'), and_assoc]
  | byteDisplacement n disp =>
    simp [address, displaced_ok, MemSpec.ready_iff, MemSpec.Legal, MemSpec.reads, MemSpec.pointer, MemSpec.ext,
      MemSpec.operandAddress, Ctx.afterMem, MemSpec.after, steppedReg, eq_comm (a := a), eq_comm (a := c')]
  | byteDisplacementDeferred n disp =>
    simp [address, deferred_displaced_ok, MemSpec.ready_iff, MemSpec.Legal, MemSpec.reads, MemSpec.pointer, MemSpec.ext,
      MemSpec.operandAddress, Ctx.afterMem, MemSpec.after, steppedReg, eq_comm (a := a), eq_comm (a := c'), and_assoc]
  | byteRelative disp =>
    simp [address, relative_ok, MemSpec.ready_iff, MemSpec.Legal, MemSpec.reads, MemSpec.pointer, MemSpec.ext,
      MemSpec.operandAddress, Ctx.afterMem, MemSpec.after, steppedReg, eq_comm (a := a), eq_comm (a := c')]
  | byteRelativeDeferred disp =>
    simp [address, deferred_relative_ok, MemSpec.ready_iff, MemSpec.Legal, MemSpec.reads, MemSpec.pointer, MemSpec.ext,
      MemSpec.operandAddress, Ctx.afterMem, MemSpec.after, steppedReg, eq_comm (a := a), eq_comm (a := c')]
  | wordDisplacement n disp =>
    simp [address, displaced_ok, MemSpec.ready_iff, MemSpec.Legal, MemSpec.reads, MemSpec.pointer, MemSpec.ext,
      MemSpec.operandAddress, Ctx.afterMem, MemSpec.after, steppedReg, eq_comm (a := a), eq_comm (a := c')]
  | wordDisplacementDeferred n disp =>
    simp [address, deferred_displaced_ok, MemSpec.ready_iff, MemSpec.Legal, MemSpec.reads, MemSpec.pointer, MemSpec.ext,
      MemSpec.operandAddress, Ctx.afterMem, MemSpec.after, steppedReg, eq_comm (a := a), eq_comm (a := c'), and_assoc]
  | wordRelative disp =>
    simp [address, relative_ok, MemSpec.ready_iff, MemSpec.Legal, MemSpec.reads, MemSpec.pointer, MemSpec.ext,
      MemSpec.operandAddress, Ctx.afterMem, MemSpec.after, steppedReg, eq_comm (a := a), eq_comm (a := c')]
  | wordRelativeDeferred disp =>
    simp [address, deferred_relative_ok, MemSpec.ready_iff, MemSpec.Legal, MemSpec.reads, MemSpec.pointer, MemSpec.ext,
      MemSpec.operandAddress, Ctx.afterMem, MemSpec.after, steppedReg, eq_comm (a := a), eq_comm (a := c')]
  | longwordDisplacement n disp =>
    simp [address, displaced_ok, MemSpec.ready_iff, MemSpec.Legal, MemSpec.reads, MemSpec.pointer, MemSpec.ext,
      MemSpec.operandAddress, Ctx.afterMem, MemSpec.after, steppedReg, eq_comm (a := a), eq_comm (a := c')]
  | longwordDisplacementDeferred n disp =>
    simp [address, deferred_displaced_ok, MemSpec.ready_iff, MemSpec.Legal, MemSpec.reads, MemSpec.pointer, MemSpec.ext,
      MemSpec.operandAddress, Ctx.afterMem, MemSpec.after, steppedReg, eq_comm (a := a), eq_comm (a := c'), and_assoc]
  | longwordRelative disp =>
    simp [address, relative_ok, MemSpec.ready_iff, MemSpec.Legal, MemSpec.reads, MemSpec.pointer, MemSpec.ext,
      MemSpec.operandAddress, Ctx.afterMem, MemSpec.after, steppedReg, eq_comm (a := a), eq_comm (a := c')]
  | longwordRelativeDeferred disp =>
    simp [address, deferred_relative_ok, MemSpec.ready_iff, MemSpec.Legal, MemSpec.reads, MemSpec.pointer, MemSpec.ext,
      MemSpec.operandAddress, Ctx.afterMem, MemSpec.after, steppedReg, eq_comm (a := a), eq_comm (a := c')]

/-! ## Every specifier -/

/-- The context after a specifier's evaluation. -/
def Ctx.afterSpec (t : DType) (x : Spec) (c : Ctx) : Ctx where
  st := x.after t c.st
  modified := x.steps.toList ++ c.modified
  regUsed := x.uses t ++ c.regUsed

theorem MemSpec.after_isWritten {d : Nat} {m : MemSpec} {s : State} {r : Reg} (h : steppedReg m ≠ some r) :
    (m.after d s).isWritten r = s.isWritten r := by
  unfold MemSpec.after
  cases hm : steppedReg m with
  | none => rfl
  | some n =>
    have : r ≠ n := fun e => h (by rw [hm, e])
    simp [isWritten_setReg, this]

theorem MemSpec.after_reg {d : Nat} {m : MemSpec} {s : State} {r : Reg} (h : steppedReg m ≠ some r) :
    (m.after d s).reg r = s.reg r := by
  unfold MemSpec.after
  cases hm : steppedReg m with
  | none => rfl
  | some n =>
    have : r ≠ n := fun e => h (by rw [hm, e])
    simp [reg_setReg, this]

theorem literal_ok {acc : Access} {t : DType} {lit : BitVec 6} {c c' : Ctx} {loc : Loc t} :
    literal acc t lit c = .ok (loc, c') ↔
      Spec.Legal c.st.params.shortLiteralExt acc t (.literal lit) ∧
        loc = .lit (literalValue c.st.params.shortLiteralExt t lit) ∧ c' = c := by
  rw [eq_comm (a := loc), eq_comm (a := c')]
  unfold literal Spec.Legal literalValue
  by_cases ha : acc = .r
  · by_cases hf : t.isFloat = true
    · simp [ha, hf]
    · by_cases hm : lit.msb = true
      · cases c.st.params.shortLiteralExt <;> simp [ha, hf, hm]
      · simp [ha, hf, hm]
  · simp [ha]

theorem register_ok {acc : Access} {t : DType} {n : Reg} {c c' : Ctx} {loc : Loc t} (ext : ShortLiteralExt) :
    register acc t n c = .ok (loc, c') ↔
      Spec.Legal ext acc t (.register n) ∧ loc = .reg n ∧ c' = { c with regUsed := operandRegs t n ++ c.regUsed } := by
  rw [eq_comm (a := loc), eq_comm (a := c')]
  unfold register Spec.Legal
  by_cases ha : acc = .a
  · simp [ha]
  · by_cases hn : n = pcReg
    · simp [ha, hn]
    · by_cases h8 : t.size = 8 ∧ 14 ≤ n.val
      · simp [ha, hn, h8]
      · by_cases h16 : t.size = 16 ∧ 12 ≤ n.val
        · simp [ha, hn, h16]
        · have l8 : t.size = 8 → n.val < 14 := fun h => by omega
          have l16 : t.size = 16 → n.val < 12 := fun h => by omega
          simp only [ha, hn, h8, h16, if_false, ne_eq, not_false_iff, true_and, Except.ok.injEq, Prod.mk.injEq]
          exact ⟨fun h => ⟨⟨l8, l16⟩, h⟩, fun h => h.2⟩

theorem immediate_ok {acc : Access} {t : DType} {v : BitVec 128} {c c' : Ctx} {loc : Loc t} :
    immediate acc t v c = .ok (loc, c') ↔
      acc = .r ∧ c.st.Fetchable t.size ∧ loc = .lit (v.setWidth t.bits) ∧
        c' = { c with st := c.st.advance t.size } := by
  unfold immediate
  by_cases ha : acc = .r
  · simp only [ha, if_true, bind_ok, Ctx.fetch_ok, true_and]
    constructor
    · rintro ⟨c1, ⟨hf, rfl⟩, h⟩
      cases h
      exact ⟨hf, rfl, rfl⟩
    · rintro ⟨hf, rfl, rfl⟩
      exact ⟨_, ⟨hf, rfl⟩, rfl⟩
  · simp [ha]

theorem indexed_ok {d : Nat} {rx : Reg} {base : IndexBase} {c c' : Ctx} {a : Word} :
    indexed d rx base c = .ok (a, c') ↔
      ∃ m, base = .mem m ∧ rx ≠ pcReg ∧ steppedReg m ≠ some rx ∧ c.st.Fetchable (1 + m.ext) ∧
        m.Ready (c.st.advance (1 + m.ext)) ∧ c.st.isWritten rx = true ∧
        a = m.operandAddress d (c.st.advance (1 + m.ext)) + c.st.reg rx * BitVec.ofNat 32 d ∧
        c' = { st := m.after d (c.st.advance (1 + m.ext)), modified := (steppedReg m).toList ++ c.modified,
               regUsed := c.regUsed } := by
  unfold indexed
  by_cases hx : rx = pcReg
  · simp [hx]
  · simp only [hx, if_false, bind_ok, Ctx.fetch_ok]
    constructor
    · rintro ⟨c1, ⟨hf, rfl⟩, h⟩
      cases base with
      | forbidden b =>
        by_cases hb : b = 0x8F#8 <;> simp [hb] at h
      | mem m =>
        by_cases hs : steppedReg m = some rx
        · simp [hs] at h
        · simp only [hs, if_false] at h
          obtain ⟨⟨p, c2⟩, h1, h2⟩ := bind_ok.1 h
          obtain ⟨hf', hr, rfl, rfl⟩ := address_ok.1 h1
          obtain ⟨x, h3, h4⟩ := bind_ok.1 h2
          obtain ⟨hw, rfl⟩ := readReg_ok.1 h3
          cases h4
          simp only [Ctx.afterMem, advance_advance] at *
          rw [MemSpec.after_isWritten hs] at hw
          refine ⟨m, rfl, hx, hs, (Fetchable_add _ _ _).2 ⟨hf, hf'⟩, hr, hw, ?_, rfl⟩
          rw [MemSpec.after_reg hs, advance_reg hx]
    · rintro ⟨m, rfl, -, hs, hf, hr, hw, rfl, rfl⟩
      obtain ⟨hf1, hf2⟩ := (Fetchable_add _ _ _).1 hf
      refine ⟨_, ⟨hf1, rfl⟩, ?_⟩
      simp only [hs, if_false]
      refine bind_ok.2 ⟨_, address_ok.2 ⟨hf2, by simpa only [advance_advance] using hr, rfl, rfl⟩, ?_⟩
      simp only [Ctx.afterMem, advance_advance]
      refine bind_ok.2 ⟨_, readReg_ok.2 ⟨?_, rfl⟩, ?_⟩
      · rw [MemSpec.after_isWritten hs]
        exact hw
      · rw [MemSpec.after_reg hs, advance_reg hx]

/-- `EvalSpec` (R102), once and for all: when it answers, and what. -/
theorem evalSpec_ok {acc : Access} {t : DType} {x : Spec} {c c' : Ctx} {loc : Loc t} :
    evalSpec acc t x c = .ok (loc, c') ↔ x.Ready acc t c.st ∧ loc = x.loc t c.st ∧ c' = c.afterSpec t x := by
  unfold evalSpec Spec.Ready
  simp only [bind_ok, Ctx.fetch_ok]
  cases x with
  | literal lit =>
    constructor
    · rintro ⟨c1, ⟨hf, rfl⟩, h⟩
      obtain ⟨hl, rfl, rfl⟩ := literal_ok.1 h
      exact ⟨⟨hl, hf, fun m hm => by simp [Spec.memMode] at hm, fun _ _ e => by cases e⟩, rfl, rfl⟩
    · rintro ⟨⟨hl, hf, -, -⟩, rfl, rfl⟩
      exact ⟨_, ⟨hf, rfl⟩, literal_ok.2 ⟨hl, rfl, rfl⟩⟩
  | register n =>
    constructor
    · rintro ⟨c1, ⟨hf, rfl⟩, h⟩
      obtain ⟨hl, rfl, rfl⟩ := (register_ok c.st.params.shortLiteralExt).1 h
      exact ⟨⟨hl, hf, fun m hm => by simp [Spec.memMode] at hm, fun _ _ e => by cases e⟩, rfl, rfl⟩
    · rintro ⟨⟨hl, hf, -, -⟩, rfl, rfl⟩
      exact ⟨_, ⟨hf, rfl⟩, (register_ok _).2 ⟨hl, rfl, rfl⟩⟩
  | immediate v =>
    constructor
    · rintro ⟨c1, ⟨hf, rfl⟩, h⟩
      obtain ⟨hl, hf', rfl, rfl⟩ := immediate_ok.1 h
      refine ⟨⟨hl, (Fetchable_add _ _ _).2 ⟨hf, hf'⟩, fun m hm => by simp [Spec.memMode] at hm,
        fun _ _ e => by cases e⟩, rfl, ?_⟩
      simp [Ctx.afterSpec, Spec.after, Spec.memMode, Spec.steps, Spec.uses, Spec.len, advance_advance]
    · rintro ⟨⟨hl, hf, -, -⟩, rfl, rfl⟩
      obtain ⟨hf1, hf2⟩ := (Fetchable_add _ _ _).1 hf
      refine ⟨_, ⟨hf1, rfl⟩, immediate_ok.2 ⟨hl, hf2, rfl, ?_⟩⟩
      simp [Ctx.afterSpec, Spec.after, Spec.memMode, Spec.steps, Spec.uses, Spec.len, advance_advance]
  | mem m =>
    constructor
    · rintro ⟨c1, ⟨hf, rfl⟩, h⟩
      obtain ⟨⟨p, c2⟩, h1, h2⟩ := bind_ok.1 h
      obtain ⟨hf', hr, rfl, rfl⟩ := address_ok.1 h1
      cases h2
      simp only [advance_advance] at *
      refine ⟨⟨hr.1, (Fetchable_add _ _ _).2 ⟨hf, hf'⟩, fun m' hm => ?_, fun _ _ e => by cases e⟩, rfl, ?_⟩
      · cases hm
        exact hr
      · simp [Ctx.afterSpec, Ctx.afterMem, Spec.after, Spec.memMode, Spec.steps, Spec.uses, Spec.len, advance_advance]
    · rintro ⟨⟨hl, hf, hr, -⟩, rfl, rfl⟩
      obtain ⟨hf1, hf2⟩ := (Fetchable_add _ _ _).1 hf
      refine ⟨_, ⟨hf1, rfl⟩, bind_ok.2 ⟨_, address_ok.2 ⟨hf2, ?_, rfl, rfl⟩, ?_⟩⟩
      · simpa only [advance_advance, Spec.len] using hr m rfl
      · simp [Ctx.afterSpec, Ctx.afterMem, Spec.after, Spec.memMode, Spec.steps, Spec.uses, Spec.len, Spec.loc,
          advance_advance]
  | index rx base =>
    constructor
    · rintro ⟨c1, ⟨hf, rfl⟩, h⟩
      obtain ⟨⟨p, c2⟩, h1, h2⟩ := bind_ok.1 h
      obtain ⟨m, rfl, hx, hs, hf', hr, hw, rfl, rfl⟩ := indexed_ok.1 h1
      cases h2
      simp only [advance_advance, ← Nat.add_assoc] at *
      refine ⟨⟨⟨hx, hr.1, hs⟩, ?_, fun m' hm => ?_, fun _ _ e => ?_⟩, ?_, ?_⟩
      · have := (Fetchable_add c.st 1 (1 + m.ext)).2 ⟨hf, hf'⟩
        rwa [← Nat.add_assoc] at this
      · cases hm
        exact hr
      · cases e
        exact hw
      · simp [Spec.loc, Spec.len, advance_reg hx]
      · simp [Ctx.afterSpec, Spec.after, Spec.memMode, Spec.steps, Spec.uses, Spec.len]
    · rintro ⟨⟨hl, hf, hr, hw⟩, rfl, rfl⟩
      cases base with
      | forbidden b => exact absurd hl (by simp [Spec.Legal])
      | mem m =>
        obtain ⟨hx, hlm, hs⟩ := hl
        have hf' : c.st.Fetchable (1 + (1 + m.ext)) := by
          rw [← Nat.add_assoc]
          exact hf
        obtain ⟨hf1, hf2⟩ := (Fetchable_add _ _ _).1 hf'
        refine ⟨_, ⟨hf1, rfl⟩, bind_ok.2 ⟨_, indexed_ok.2 ⟨m, rfl, hx, hs, hf2, ?_, hw rx _ rfl, rfl, rfl⟩, ?_⟩⟩
        · have := hr m rfl
          simpa only [advance_advance, Spec.len, ← Nat.add_assoc] using this
        · simp [Ctx.afterSpec, Spec.after, Spec.memMode, Spec.steps, Spec.uses, Spec.len, Spec.loc, advance_advance,
            advance_reg hx, ← Nat.add_assoc]

/-! ## Reading and writing through a location -/

theorem setWidth_append_of_le {m n w : Nat} (hi : BitVec m) (lo : BitVec n) (h : w ≤ n) :
    (hi ++ lo).setWidth w = lo.setWidth w := by
  apply BitVec.eq_of_getLsbD_eq
  intro i hw
  simp only [BitVec.getLsbD_setWidth, BitVec.getLsbD_append, hw, decide_true, Bool.true_and]
  simp [show i < n by omega]

theorem readRegOperand_ok {t : DType} {n : Reg} {s : State} {v : BitVec t.bits} :
    readRegOperand t n s = .ok v ↔ (Loc.reg n : Loc t).Readable s ∧ v = (Loc.reg n : Loc t).value s := by
  unfold readRegOperand Loc.Readable Loc.value operandRegs State.regGroup
  by_cases h4 : t.size ≤ 4
  · have hb : t.bits ≤ 32 := by show 8 * t.size ≤ 32; omega
    simp only [if_pos h4, setWidth_append_of_le _ _ hb]
    constructor
    · intro h
      obtain ⟨x, h0, h⟩ := bind_ok.1 h
      obtain ⟨hw, rfl⟩ := readReg_ok.1 h0
      cases h
      exact ⟨by simpa using hw, rfl⟩
    · rintro ⟨hw, rfl⟩
      exact bind_ok.2 ⟨_, readReg_ok.2 ⟨hw n (by simp), rfl⟩, rfl⟩
  · by_cases h8 : t.size = 8
    · have hb : t.bits = 64 := by show 8 * t.size = 64; omega
      have hv : (s.reg (n + 3) ++ s.reg (n + 2) ++ s.reg (n + 1) ++ s.reg n).setWidth t.bits =
          (s.reg (n + 1) ++ s.reg n).setWidth t.bits := by
        apply BitVec.eq_of_getLsbD_eq
        intro i hw
        simp only [BitVec.getLsbD_setWidth, BitVec.getLsbD_append, hw, decide_true, Bool.true_and]
        by_cases h1 : i < 32
        · simp [h1]
        · simp [h1, show i - 32 < 32 by omega]
      simp only [if_neg h4, if_pos h8, bind_ok, readReg_ok, hv]
      constructor
      · rintro ⟨x0, ⟨h0, rfl⟩, x1, ⟨h1, rfl⟩, e⟩
        cases e
        simp [h0, h1]
      · rintro ⟨hw, rfl⟩
        exact ⟨_, ⟨hw n (by simp), rfl⟩, _, ⟨hw (n + 1) (by simp), rfl⟩, rfl⟩
    · simp only [if_neg h4, if_neg h8, bind_ok, readReg_ok]
      constructor
      · rintro ⟨x0, ⟨h0, rfl⟩, x1, ⟨h1, rfl⟩, x2, ⟨h2, rfl⟩, x3, ⟨h3, rfl⟩, e⟩
        cases e
        simp [h0, h1, h2, h3]
      · rintro ⟨hw, rfl⟩
        exact ⟨_, ⟨hw n (by simp), rfl⟩, _, ⟨hw (n + 1) (by simp), rfl⟩, _, ⟨hw (n + 2) (by simp), rfl⟩, _,
          ⟨hw (n + 3) (by simp), rfl⟩, rfl⟩

theorem readOperand_ok {t : DType} {x : Loc t} {s : State} {v : BitVec t.bits} :
    readOperand t x s = .ok v ↔ x.Readable s ∧ v = x.value s := by
  cases x with
  | lit u => simp [readOperand, Loc.Readable, Loc.value, eq_comm]
  | reg n => exact readRegOperand_ok
  | mem a => exact memRead_ok

theorem writeRegOperand_ok {t : DType} {n : Reg} {s u : State} {v : BitVec t.bits} :
    writeRegOperand t n v s = .ok u ↔ (Loc.reg n : Loc t).Writable s ∧ u = (Loc.reg n : Loc t).store s v := by
  rw [eq_comm (a := u)]
  unfold writeRegOperand Loc.Writable Loc.store
  by_cases h4 : t.size < 4
  · simp only [h4, if_true, bind_ok, readReg_ok]
    constructor
    · rintro ⟨x, ⟨hw, rfl⟩, e⟩
      cases e
      exact ⟨fun _ => hw, rfl⟩
    · rintro ⟨hw, rfl⟩
      exact ⟨_, ⟨hw trivial, rfl⟩, rfl⟩
  · by_cases he : t.size = 4
    · simp [he]
    · by_cases h8 : t.size = 8 <;> simp [h4, he, h8]

theorem writeOperand_ok {t : DType} {x : Loc t} {s u : State} {v : BitVec t.bits} :
    writeOperand t x v s = .ok u ↔ x.Writable s ∧ u = x.store s v := by
  cases x with
  | lit w => simp [writeOperand, Loc.Writable]
  | reg n => exact writeRegOperand_ok
  | mem a => exact memWrite_ok

/-! ## The operand driver -/

theorem operandR_ok {t : DType} {x : Spec} {c c' : Ctx} {v : BitVec t.bits} :
    operandR t x c = .ok (v, c') ↔
      Operand.Ready c.st ⟨.r, t, x⟩ ∧ v = (x.loc t c.st).value (x.after t c.st) ∧ c' = c.afterSpec t x := by
  unfold operandR Operand.Ready
  simp only [true_or, forall_const]
  constructor
  · intro h
    obtain ⟨⟨loc, c1⟩, h1, h⟩ := bind_ok.1 h
    obtain ⟨hr, rfl, rfl⟩ := evalSpec_ok.1 h1
    obtain ⟨u, h2, h⟩ := bind_ok.1 h
    obtain ⟨hl, rfl⟩ := readOperand_ok.1 h2
    cases h
    exact ⟨⟨hr, hl⟩, rfl, rfl⟩
  · rintro ⟨⟨hr, hl⟩, rfl, rfl⟩
    exact bind_ok.2 ⟨_, evalSpec_ok.2 ⟨hr, rfl, rfl⟩, bind_ok.2 ⟨_, readOperand_ok.2 ⟨hl, rfl⟩, rfl⟩⟩

theorem operandW_ok {t : DType} {x : Spec} {c c' : Ctx} {loc : Loc t} :
    operandW t x c = .ok (loc, c') ↔
      Operand.Ready c.st ⟨.w, t, x⟩ ∧ loc = x.loc t c.st ∧ c' = c.afterSpec t x := by
  unfold operandW Operand.Ready
  rw [evalSpec_ok]
  simp

theorem operandM_ok {t : DType} {x : Spec} {c c' : Ctx} {loc : Loc t} {v : BitVec t.bits} :
    operandM t x c = .ok (v, loc, c') ↔
      Operand.Ready c.st ⟨.m, t, x⟩ ∧ v = (x.loc t c.st).value (x.after t c.st) ∧ loc = x.loc t c.st ∧
        c' = c.afterSpec t x := by
  unfold operandM Operand.Ready
  simp only [or_true, forall_const]
  constructor
  · intro h
    obtain ⟨⟨loc, c1⟩, h1, h⟩ := bind_ok.1 h
    obtain ⟨hr, rfl, rfl⟩ := evalSpec_ok.1 h1
    obtain ⟨u, h2, h⟩ := bind_ok.1 h
    obtain ⟨hl, rfl⟩ := readOperand_ok.1 h2
    cases h
    exact ⟨⟨hr, hl⟩, rfl, rfl, rfl⟩
  · rintro ⟨⟨hr, hl⟩, rfl, rfl, rfl⟩
    exact bind_ok.2 ⟨_, evalSpec_ok.2 ⟨hr, rfl, rfl⟩, bind_ok.2 ⟨_, readOperand_ok.2 ⟨hl, rfl⟩, rfl⟩⟩

theorem addressOf_ok {t : DType} {x : Loc t} {a : Word} : addressOf t x = .ok a ↔ x = .mem a := by
  cases x <;> simp [addressOf]

/-- An operand with address access is where its address is (R132: a literal, an immediate and a register have none). -/
theorem operandA_ok {t : DType} {x : Spec} {c c' : Ctx} {a : Word} :
    operandA t x c = .ok (a, c') ↔
      Operand.Ready c.st ⟨.a, t, x⟩ ∧ x.loc t c.st = .mem a ∧ c' = c.afterSpec t x := by
  unfold operandA Operand.Ready
  constructor
  · intro h
    obtain ⟨⟨loc, c1⟩, h1, h⟩ := bind_ok.1 h
    obtain ⟨hr, rfl, rfl⟩ := evalSpec_ok.1 h1
    obtain ⟨u, h2, h⟩ := bind_ok.1 h
    cases h
    exact ⟨⟨hr, by simp⟩, addressOf_ok.1 h2, rfl⟩
  · rintro ⟨⟨hr, -⟩, hl, rfl⟩
    exact bind_ok.2 ⟨_, evalSpec_ok.2 ⟨hr, rfl, rfl⟩, bind_ok.2 ⟨_, addressOf_ok.2 hl, rfl⟩⟩

/-- A ready operand with address access does have an address. -/
theorem exists_address {t : DType} {x : Spec} {s : State} (h : Operand.Ready s ⟨.a, t, x⟩) :
    ∃ a, x.loc t s = .mem a := by
  have hl := h.1.1
  cases x with
  | literal lit => exact absurd hl.1 (by simp)
  | register n => exact absurd rfl hl.1
  | immediate v => exact absurd hl (by simp [Spec.Legal])
  | mem m => exact ⟨_, rfl⟩
  | index rx base =>
    cases base with
    | mem m => exact ⟨_, rfl⟩
    | forbidden b => exact absurd hl (by simp [Spec.Legal])

theorem beginInstr_ok {s : State} {c : Ctx} : beginInstr s = .ok c ↔ s.Fetchable 1 ∧ c = Ctx.start s.start := by
  unfold beginInstr
  constructor
  · intro h
    obtain ⟨u, h1, h⟩ := bind_ok.1 h
    obtain ⟨hf, rfl⟩ := fetch_ok.1 h1
    cases h
    exact ⟨hf, rfl⟩
  · rintro ⟨hf, rfl⟩
    exact bind_ok.2 ⟨_, fetch_ok.2 ⟨hf, rfl⟩, rfl⟩

theorem hazardReg_eq_none {c : Ctx} : hazardReg c = none ↔ ¬ ∃ k, k ∈ c.modified ∧ k ∈ c.regUsed := by
  unfold hazardReg
  rw [List.find?_eq_none]
  simp

theorem endOperands_ok {c : Ctx} {s : State} :
    endOperands c = .ok s ↔
      (c.st.params.strictRegHazard = true → ¬ ∃ k, k ∈ c.modified ∧ k ∈ c.regUsed) ∧ s = c.st := by
  rw [← hazardReg_eq_none]
  unfold endOperands
  by_cases h : c.st.params.strictRegHazard = true
  · cases hk : hazardReg c with
    | none => simp [h, eq_comm]
    | some k => simp [h]
  · simp [h, eq_comm]

/-! ## What the evaluation of a specifier leaves alone (R119) -/

section After

variable (t : DType) (x : Spec) (s : State)

theorem MemSpec.after_cases (d : Nat) (m : MemSpec) (s : State) :
    m.after d s = s ∨ ∃ n v, steppedReg m = some n ∧ m.after d s = s.setReg n v := by
  unfold MemSpec.after
  cases h : steppedReg m with
  | none => exact .inl rfl
  | some n => exact .inr ⟨n, _, rfl, rfl⟩

/-- The evaluation of a specifier moves the program counter, and may step one register. -/
theorem Spec.after_cases :
    x.after t s = s.advance (x.len t) ∨ ∃ n v, x.steps = some n ∧ x.after t s = (s.advance (x.len t)).setReg n v := by
  unfold Spec.after Spec.steps
  cases x.memMode with
  | none => exact .inl rfl
  | some m => exact MemSpec.after_cases _ m _

@[simp] theorem Spec.after_cc : (x.after t s).cc = s.cc := by
  rcases Spec.after_cases t x s with h | ⟨n, v, -, h⟩ <;> rw [h] <;> rfl

@[simp] theorem Spec.after_ccWritten : (x.after t s).ccWritten = s.ccWritten := by
  rcases Spec.after_cases t x s with h | ⟨n, v, -, h⟩ <;> rw [h] <;> rfl

@[simp] theorem Spec.after_iv : (x.after t s).iv = s.iv := by
  rcases Spec.after_cases t x s with h | ⟨n, v, -, h⟩ <;> rw [h] <;> rfl

@[simp] theorem Spec.after_mem : (x.after t s).mem = s.mem := by
  rcases Spec.after_cases t x s with h | ⟨n, v, -, h⟩ <;> rw [h] <;> rfl

@[simp] theorem Spec.after_params : (x.after t s).params = s.params := by
  rcases Spec.after_cases t x s with h | ⟨n, v, -, h⟩ <;> rw [h] <;> rfl

theorem Spec.after_reg {r : Reg} (hp : r ≠ pcReg) (h : x.steps ≠ some r) : (x.after t s).reg r = s.reg r := by
  rcases Spec.after_cases t x s with e | ⟨n, v, hn, e⟩
  · rw [e, advance_reg hp]
  · have : r ≠ n := fun e' => h (by rw [hn, e'])
    rw [e, reg_setReg_ne _ _ this, advance_reg hp]

theorem Spec.after_isWritten_of (r : Reg) (h : s.isWritten r = true) : (x.after t s).isWritten r = true := by
  rcases Spec.after_cases t x s with e | ⟨n, v, -, e⟩ <;> rw [e] <;> simp [isWritten_setReg, h]

theorem Spec.after_isWritten {r : Reg} (h : x.steps ≠ some r) : (x.after t s).isWritten r = s.isWritten r := by
  rcases Spec.after_cases t x s with e | ⟨n, v, hn, e⟩
  · rw [e]; rfl
  · have : r ≠ n := fun e' => h (by rw [hn, e'])
    rw [e, isWritten_setReg]
    simp [this]

end After

theorem steppedReg_ne_pc {m : MemSpec} {n : Reg} (h : steppedReg m = some n) : n ≠ pcReg := by
  cases m with
  | autodecrement k =>
    simp only [steppedReg] at h
    split at h
    · cases h
    · rename_i hk
      cases h
      exact hk
  | autoincrement k => cases h; exact Gpr.reg_ne_pc k
  | autoincrementDeferred k => cases h; exact Gpr.reg_ne_pc k
  | registerDeferred _ => cases h
  | absolute _ => cases h
  | byteDisplacement _ _ => cases h
  | byteRelative _ => cases h
  | byteDisplacementDeferred _ _ => cases h
  | byteRelativeDeferred _ => cases h
  | wordDisplacement _ _ => cases h
  | wordRelative _ => cases h
  | wordDisplacementDeferred _ _ => cases h
  | wordRelativeDeferred _ => cases h
  | longwordDisplacement _ _ => cases h
  | longwordRelative _ => cases h
  | longwordDisplacementDeferred _ _ => cases h
  | longwordRelativeDeferred _ => cases h

theorem Spec.steps_ne_pc {x : Spec} {n : Reg} (h : x.steps = some n) : n ≠ pcReg := by
  obtain ⟨m, -, hm⟩ := Option.bind_eq_some_iff.1 h
  exact steppedReg_ne_pc hm

@[simp] theorem Spec.after_pc (t : DType) (x : Spec) (s : State) :
    (x.after t s).pc = s.pc + BitVec.ofNat 32 (x.len t) := by
  rcases Spec.after_cases t x s with e | ⟨n, v, hn, e⟩
  · rw [e, advance_pc]
  · rw [e, pc_setReg_ne _ _ (Spec.steps_ne_pc hn), advance_pc]

/-! ## What a store leaves alone -/

section Store

variable {t : DType} (s : State) (v : BitVec t.bits) (x : Loc t)

/-- The registers a location is, or none. -/
def Loc.regs : Loc t → List Reg
  | .reg n => operandRegs t n
  | .lit _ => []
  | .mem _ => []

@[simp] theorem Loc.store_cc : (x.store s v).cc = s.cc := by
  unfold Loc.store
  split <;> (try split_ifs) <;> rfl

@[simp] theorem Loc.store_ccWritten : (x.store s v).ccWritten = s.ccWritten := by
  unfold Loc.store
  split <;> (try split_ifs) <;> rfl

@[simp] theorem Loc.store_iv : (x.store s v).iv = s.iv := by
  unfold Loc.store
  split <;> (try split_ifs) <;> rfl

@[simp] theorem Loc.store_params : (x.store s v).params = s.params := by
  unfold Loc.store
  split <;> (try split_ifs) <;> rfl

theorem Loc.store_reg {r : Reg} (h : r ∉ x.regs) : (x.store s v).reg r = s.reg r := by
  unfold Loc.store
  unfold Loc.regs operandRegs at h
  cases x with
  | lit _ => rfl
  | mem _ => rfl
  | reg n =>
    simp only at h ⊢
    by_cases h4 : t.size ≤ 4
    · rw [if_pos h4] at h
      have hr : r ≠ n := by simpa using h
      by_cases h3 : t.size < 4
      · simp [h3, reg_setReg, hr]
      · simp [show t.size = 4 by omega, reg_setReg, hr]
    · rw [if_neg h4] at h
      have h3 : ¬ t.size < 4 := by omega
      have he : ¬ t.size = 4 := by omega
      by_cases h8 : t.size = 8
      · rw [if_pos h8] at h
        simp only [List.mem_cons, List.not_mem_nil, or_false, not_or] at h
        simp [h8, reg_setReg, h]
      · rw [if_neg h8] at h
        simp only [List.mem_cons, List.not_mem_nil, or_false, not_or] at h
        simp [h3, he, h8, reg_setReg, h]

theorem Loc.store_isWritten_of (r : Reg) (h : s.isWritten r = true) : (x.store s v).isWritten r = true := by
  unfold Loc.store
  split <;> (try split_ifs) <;> simp [isWritten_setReg, h]

theorem Loc.store_isWritten {r : Reg} (h : r ∉ x.regs) : (x.store s v).isWritten r = s.isWritten r := by
  unfold Loc.store
  unfold Loc.regs operandRegs at h
  cases x with
  | lit _ => rfl
  | mem _ => rfl
  | reg n =>
    simp only at h ⊢
    by_cases h4 : t.size ≤ 4
    · rw [if_pos h4] at h
      have hr : r ≠ n := by simpa using h
      by_cases h3 : t.size < 4
      · simp [h3, isWritten_setReg, hr]
      · simp [show t.size = 4 by omega, isWritten_setReg, hr]
    · rw [if_neg h4] at h
      have h3 : ¬ t.size < 4 := by omega
      have he : ¬ t.size = 4 := by omega
      by_cases h8 : t.size = 8
      · rw [if_pos h8] at h
        simp only [List.mem_cons, List.not_mem_nil, or_false, not_or] at h
        simp [h8, isWritten_setReg, h]
      · rw [if_neg h8] at h
        simp only [List.mem_cons, List.not_mem_nil, or_false, not_or] at h
        simp [h3, he, h8, isWritten_setReg, h]

/-- A store that does not go to memory leaves memory as it is. -/
theorem Loc.store_mem_of_reg {n : Reg} : ((Loc.reg n : Loc t).store s v).mem = s.mem := by
  unfold Loc.store
  simp only
  split_ifs <;> rfl

end Store

end Sys2Proof.Machine
end

