-- ==== Sys2Proof/Laws/Instructions.lean ====
section
/-! SUPPORT. One lemma for each shared operation of the instruction families: when it answers a next state, and which. -/

namespace Sys2Proof.Machine

open Sys2Proof

/-! ## Locations after operands

The context after the operands carries the state that `operandsAfter` names, and the registers stepped and used. -/

/-- The context after operands. -/
def Ctx.afterOps : List Operand → Ctx → Ctx
  | [], c => c
  | o :: os, c => Ctx.afterOps os (c.afterSpec o.dt o.spec)

theorem Ctx.afterOps_st (os : List Operand) (c : Ctx) : (Ctx.afterOps os c).st = operandsAfter os c.st := by
  induction os generalizing c with
  | nil => rfl
  | cons o os ih => exact ih _

theorem Ctx.afterOps_modified (os : List Operand) (c : Ctx) (k : Reg) :
    k ∈ (Ctx.afterOps os c).modified ↔ (∃ o ∈ os, o.spec.steps = some k) ∨ k ∈ c.modified := by
  induction os generalizing c with
  | nil => simp [Ctx.afterOps]
  | cons o os ih =>
    simp only [Ctx.afterOps, ih, Ctx.afterSpec, List.mem_append, Option.mem_toList, List.exists_mem_cons_iff]
    exact or_left_comm.trans or_assoc.symm

theorem Ctx.afterOps_regUsed (os : List Operand) (c : Ctx) (k : Reg) :
    k ∈ (Ctx.afterOps os c).regUsed ↔ (∃ o ∈ os, k ∈ o.spec.uses o.dt) ∨ k ∈ c.regUsed := by
  induction os generalizing c with
  | nil => simp [Ctx.afterOps]
  | cons o os ih =>
    simp only [Ctx.afterOps, ih, Ctx.afterSpec, List.mem_append, List.exists_mem_cons_iff]
    exact or_left_comm.trans or_assoc.symm

@[simp] theorem operandsAfter_params (os : List Operand) (s : State) : (operandsAfter os s).params = s.params := by
  induction os generalizing s with
  | nil => rfl
  | cons o os ih => rw [operandsAfter, ih, Spec.after_params]

@[simp] theorem operandsAfter_cc (os : List Operand) (s : State) : (operandsAfter os s).cc = s.cc := by
  induction os generalizing s with
  | nil => rfl
  | cons o os ih => rw [operandsAfter, ih, Spec.after_cc]

@[simp] theorem operandsAfter_ccWritten (os : List Operand) (s : State) :
    (operandsAfter os s).ccWritten = s.ccWritten := by
  induction os generalizing s with
  | nil => rfl
  | cons o os ih => rw [operandsAfter, ih, Spec.after_ccWritten]

@[simp] theorem operandsAfter_iv (os : List Operand) (s : State) : (operandsAfter os s).iv = s.iv := by
  induction os generalizing s with
  | nil => rfl
  | cons o os ih => rw [operandsAfter, ih, Spec.after_iv]

@[simp] theorem operandsAfter_mem (os : List Operand) (s : State) : (operandsAfter os s).mem = s.mem := by
  induction os generalizing s with
  | nil => rfl
  | cons o os ih => rw [operandsAfter, ih, Spec.after_mem]

theorem operandsAfter_reg (os : List Operand) (s : State) {r : Reg} (hp : r ≠ pcReg)
    (h : ∀ o ∈ os, o.spec.steps ≠ some r) : (operandsAfter os s).reg r = s.reg r := by
  induction os generalizing s with
  | nil => rfl
  | cons o os ih =>
    rw [operandsAfter, ih _ fun o' ho => h o' (List.mem_cons_of_mem _ ho)]
    exact Spec.after_reg _ _ _ hp (h o (List.mem_cons_self ..))

theorem operandsAfter_isWritten (os : List Operand) (s : State) {r : Reg}
    (h : ∀ o ∈ os, o.spec.steps ≠ some r) : (operandsAfter os s).isWritten r = s.isWritten r := by
  induction os generalizing s with
  | nil => rfl
  | cons o os ih =>
    rw [operandsAfter, ih _ fun o' ho => h o' (List.mem_cons_of_mem _ ho)]
    exact Spec.after_isWritten _ _ _ (h o (List.mem_cons_self ..))

theorem operandsAfter_isWritten_of (os : List Operand) (s : State) (r : Reg) (h : s.isWritten r = true) :
    (operandsAfter os s).isWritten r = true := by
  induction os generalizing s with
  | nil => exact h
  | cons o os ih => exact ih _ (Spec.after_isWritten_of _ _ _ r h)

/-- The program counter after operands is past their specifiers (R119). -/
theorem operandsAfter_pc (os : List Operand) (s : State) :
    (operandsAfter os s).pc = s.pc + BitVec.ofNat 32 (os.map fun o => o.spec.len o.dt).sum := by
  induction os generalizing s with
  | nil => simp [operandsAfter]
  | cons o os ih =>
    rw [operandsAfter, ih, Spec.after_pc, BitVec.add_assoc, ← BitVec.ofNat_add, List.map_cons, List.sum_cons]

/-- The end of the operands, in the terms of `HazardFree` (R134). -/
theorem endOperands_afterOps (os : List Operand) (s t : State) :
    endOperands (Ctx.afterOps os (Ctx.start s)) = .ok t ↔ HazardFree s os ∧ t = operandsAfter os s := by
  rw [endOperands_ok]
  simp only [Ctx.afterOps_st, Ctx.start, operandsAfter_params, HazardFree, Hazardous, Ctx.afterOps_modified,
    Ctx.afterOps_regUsed, List.not_mem_nil, or_false]

/-! ## The operand driver (R135), for each list of accesses an instruction has

`OpsReady` is `Instr.Ready` without the instruction: the opcode and the operands can be evaluated. -/

/-- The opcode byte and these operands can be evaluated, without a register hazard. -/
def OpsReady (s : State) (os : List Operand) : Prop :=
  s.Fetchable 1 ∧ OperandsReady os s.start ∧ HazardFree s os

theorem Instr.ready_iff (s : State) (i : Instr) : i.Ready s ↔ OpsReady s i.operands := Iff.rfl

theorem hazardFree_start (s : State) (os : List Operand) : HazardFree s.start os ↔ HazardFree s os := Iff.rfl

/-- An instruction that reads one operand. -/
theorem driver_r {t : DType} {x : Spec} {s u : State} {k : BitVec t.bits → State → Except Stop State} :
    (do
    let c ← beginInstr s
    let (v0, c) ← operandR t x c
    let s ← endOperands c
    k v0 s) = .ok u ↔
      OpsReady s [⟨.r, t, x⟩] ∧ k ((x.loc t s.start).value (x.after t s.start)) (x.after t s.start) = .ok u := by
  constructor
  · intro h
    obtain ⟨c0, h0, h⟩ := bind_ok.1 h
    obtain ⟨hf, rfl⟩ := beginInstr_ok.1 h0
    obtain ⟨⟨v0, c⟩, h1, h⟩ := bind_ok.1 h
    obtain ⟨r0, rfl, rfl⟩ := operandR_ok.1 h1
    obtain ⟨w, h1, h⟩ := bind_ok.1 h
    obtain ⟨hz, rfl⟩ := (endOperands_afterOps [⟨.r, t, x⟩] s.start w).1 h1
    exact ⟨⟨hf, ⟨r0, trivial⟩, hz⟩, h⟩
  · rintro ⟨⟨hf, ⟨r0, -⟩, hz⟩, h⟩
    refine bind_ok.2 ⟨_, beginInstr_ok.2 ⟨hf, rfl⟩, ?_⟩
    refine bind_ok.2 ⟨_, operandR_ok.2 ⟨r0, rfl, rfl⟩, ?_⟩
    exact bind_ok.2 ⟨_, (endOperands_afterOps [⟨.r, t, x⟩] s.start _).2 ⟨hz, rfl⟩, h⟩

/-- An instruction that writes one operand. -/
theorem driver_w {t : DType} {x : Spec} {s u : State} {k : Loc t → State → Except Stop State} :
    (do
    let c ← beginInstr s
    let (d0, c) ← operandW t x c
    let s ← endOperands c
    k d0 s) = .ok u ↔
      OpsReady s [⟨.w, t, x⟩] ∧ k (x.loc t s.start) (x.after t s.start) = .ok u := by
  constructor
  · intro h
    obtain ⟨c0, h0, h⟩ := bind_ok.1 h
    obtain ⟨hf, rfl⟩ := beginInstr_ok.1 h0
    obtain ⟨⟨d0, c⟩, h1, h⟩ := bind_ok.1 h
    obtain ⟨r0, rfl, rfl⟩ := operandW_ok.1 h1
    obtain ⟨w, h1, h⟩ := bind_ok.1 h
    obtain ⟨hz, rfl⟩ := (endOperands_afterOps [⟨.w, t, x⟩] s.start w).1 h1
    exact ⟨⟨hf, ⟨r0, trivial⟩, hz⟩, h⟩
  · rintro ⟨⟨hf, ⟨r0, -⟩, hz⟩, h⟩
    refine bind_ok.2 ⟨_, beginInstr_ok.2 ⟨hf, rfl⟩, ?_⟩
    refine bind_ok.2 ⟨_, operandW_ok.2 ⟨r0, rfl, rfl⟩, ?_⟩
    exact bind_ok.2 ⟨_, (endOperands_afterOps [⟨.w, t, x⟩] s.start _).2 ⟨hz, rfl⟩, h⟩

/-- An instruction that takes one operand's address. -/
theorem driver_a {t : DType} {x : Spec} {s u : State} {k : Word → State → Except Stop State} :
    (do
    let c ← beginInstr s
    let (a0, c) ← operandA t x c
    let s ← endOperands c
    k a0 s) = .ok u ↔
      OpsReady s [⟨.a, t, x⟩] ∧ ∃ a0, x.loc t s.start = .mem a0 ∧ k a0 (x.after t s.start) = .ok u := by
  constructor
  · intro h
    obtain ⟨c0, h0, h⟩ := bind_ok.1 h
    obtain ⟨hf, rfl⟩ := beginInstr_ok.1 h0
    obtain ⟨⟨a0, c⟩, h1, h⟩ := bind_ok.1 h
    obtain ⟨r0, l0, rfl⟩ := operandA_ok.1 h1
    obtain ⟨w, h1, h⟩ := bind_ok.1 h
    obtain ⟨hz, rfl⟩ := (endOperands_afterOps [⟨.a, t, x⟩] s.start w).1 h1
    exact ⟨⟨hf, ⟨r0, trivial⟩, hz⟩, _, l0, h⟩
  · rintro ⟨⟨hf, ⟨r0, -⟩, hz⟩, a0, l0, h⟩
    refine bind_ok.2 ⟨_, beginInstr_ok.2 ⟨hf, rfl⟩, ?_⟩
    refine bind_ok.2 ⟨_, operandA_ok.2 ⟨r0, l0, rfl⟩, ?_⟩
    exact bind_ok.2 ⟨_, (endOperands_afterOps [⟨.a, t, x⟩] s.start _).2 ⟨hz, rfl⟩, h⟩

/-- An instruction that reads two operands. -/
theorem driver_rr {t : DType} {x y : Spec} {s u : State} {k : BitVec t.bits → BitVec t.bits → State → Except Stop State} :
    (do
    let c ← beginInstr s
    let (v0, c) ← operandR t x c
    let (v1, c) ← operandR t y c
    let s ← endOperands c
    k v0 v1 s) = .ok u ↔
      OpsReady s [⟨.r, t, x⟩, ⟨.r, t, y⟩] ∧ k ((x.loc t s.start).value (x.after t s.start)) ((y.loc t (x.after t s.start)).value (y.after t (x.after t s.start))) (y.after t (x.after t s.start)) = .ok u := by
  constructor
  · intro h
    obtain ⟨c0, h0, h⟩ := bind_ok.1 h
    obtain ⟨hf, rfl⟩ := beginInstr_ok.1 h0
    obtain ⟨⟨v0, c⟩, h1, h⟩ := bind_ok.1 h
    obtain ⟨r0, rfl, rfl⟩ := operandR_ok.1 h1
    obtain ⟨⟨v1, c⟩, h1, h⟩ := bind_ok.1 h
    obtain ⟨r1, rfl, rfl⟩ := operandR_ok.1 h1
    obtain ⟨w, h1, h⟩ := bind_ok.1 h
    obtain ⟨hz, rfl⟩ := (endOperands_afterOps [⟨.r, t, x⟩, ⟨.r, t, y⟩] s.start w).1 h1
    exact ⟨⟨hf, ⟨r0, r1, trivial⟩, hz⟩, h⟩
  · rintro ⟨⟨hf, ⟨r0, r1, -⟩, hz⟩, h⟩
    refine bind_ok.2 ⟨_, beginInstr_ok.2 ⟨hf, rfl⟩, ?_⟩
    refine bind_ok.2 ⟨_, operandR_ok.2 ⟨r0, rfl, rfl⟩, ?_⟩
    refine bind_ok.2 ⟨_, operandR_ok.2 ⟨r1, rfl, rfl⟩, ?_⟩
    exact bind_ok.2 ⟨_, (endOperands_afterOps [⟨.r, t, x⟩, ⟨.r, t, y⟩] s.start _).2 ⟨hz, rfl⟩, h⟩

/-- An instruction that reads one operand and writes another. -/
theorem driver_rw {t t2 : DType} {x y : Spec} {s u : State} {k : BitVec t.bits → Loc t2 → State → Except Stop State} :
    (do
    let c ← beginInstr s
    let (v0, c) ← operandR t x c
    let (d1, c) ← operandW t2 y c
    let s ← endOperands c
    k v0 d1 s) = .ok u ↔
      OpsReady s [⟨.r, t, x⟩, ⟨.w, t2, y⟩] ∧ k ((x.loc t s.start).value (x.after t s.start)) (y.loc t2 (x.after t s.start)) (y.after t2 (x.after t s.start)) = .ok u := by
  constructor
  · intro h
    obtain ⟨c0, h0, h⟩ := bind_ok.1 h
    obtain ⟨hf, rfl⟩ := beginInstr_ok.1 h0
    obtain ⟨⟨v0, c⟩, h1, h⟩ := bind_ok.1 h
    obtain ⟨r0, rfl, rfl⟩ := operandR_ok.1 h1
    obtain ⟨⟨d1, c⟩, h1, h⟩ := bind_ok.1 h
    obtain ⟨r1, rfl, rfl⟩ := operandW_ok.1 h1
    obtain ⟨w, h1, h⟩ := bind_ok.1 h
    obtain ⟨hz, rfl⟩ := (endOperands_afterOps [⟨.r, t, x⟩, ⟨.w, t2, y⟩] s.start w).1 h1
    exact ⟨⟨hf, ⟨r0, r1, trivial⟩, hz⟩, h⟩
  · rintro ⟨⟨hf, ⟨r0, r1, -⟩, hz⟩, h⟩
    refine bind_ok.2 ⟨_, beginInstr_ok.2 ⟨hf, rfl⟩, ?_⟩
    refine bind_ok.2 ⟨_, operandR_ok.2 ⟨r0, rfl, rfl⟩, ?_⟩
    refine bind_ok.2 ⟨_, operandW_ok.2 ⟨r1, rfl, rfl⟩, ?_⟩
    exact bind_ok.2 ⟨_, (endOperands_afterOps [⟨.r, t, x⟩, ⟨.w, t2, y⟩] s.start _).2 ⟨hz, rfl⟩, h⟩

/-- An instruction that takes one operand's address and writes another operand. -/
theorem driver_aw {t t2 : DType} {x y : Spec} {s u : State} {k : Word → Loc t2 → State → Except Stop State} :
    (do
    let c ← beginInstr s
    let (a0, c) ← operandA t x c
    let (d1, c) ← operandW t2 y c
    let s ← endOperands c
    k a0 d1 s) = .ok u ↔
      OpsReady s [⟨.a, t, x⟩, ⟨.w, t2, y⟩] ∧ ∃ a0, x.loc t s.start = .mem a0 ∧ k a0 (y.loc t2 (x.after t s.start)) (y.after t2 (x.after t s.start)) = .ok u := by
  constructor
  · intro h
    obtain ⟨c0, h0, h⟩ := bind_ok.1 h
    obtain ⟨hf, rfl⟩ := beginInstr_ok.1 h0
    obtain ⟨⟨a0, c⟩, h1, h⟩ := bind_ok.1 h
    obtain ⟨r0, l0, rfl⟩ := operandA_ok.1 h1
    obtain ⟨⟨d1, c⟩, h1, h⟩ := bind_ok.1 h
    obtain ⟨r1, rfl, rfl⟩ := operandW_ok.1 h1
    obtain ⟨w, h1, h⟩ := bind_ok.1 h
    obtain ⟨hz, rfl⟩ := (endOperands_afterOps [⟨.a, t, x⟩, ⟨.w, t2, y⟩] s.start w).1 h1
    exact ⟨⟨hf, ⟨r0, r1, trivial⟩, hz⟩, _, l0, h⟩
  · rintro ⟨⟨hf, ⟨r0, r1, -⟩, hz⟩, a0, l0, h⟩
    refine bind_ok.2 ⟨_, beginInstr_ok.2 ⟨hf, rfl⟩, ?_⟩
    refine bind_ok.2 ⟨_, operandA_ok.2 ⟨r0, l0, rfl⟩, ?_⟩
    refine bind_ok.2 ⟨_, operandW_ok.2 ⟨r1, rfl, rfl⟩, ?_⟩
    exact bind_ok.2 ⟨_, (endOperands_afterOps [⟨.a, t, x⟩, ⟨.w, t2, y⟩] s.start _).2 ⟨hz, rfl⟩, h⟩

/-- An instruction that reads one operand and modifies another. -/
theorem driver_rm {t : DType} {x y : Spec} {s u : State} {k : BitVec t.bits → BitVec t.bits → Loc t → State → Except Stop State} :
    (do
    let c ← beginInstr s
    let (v0, c) ← operandR t x c
    let (v1, d1, c) ← operandM t y c
    let s ← endOperands c
    k v0 v1 d1 s) = .ok u ↔
      OpsReady s [⟨.r, t, x⟩, ⟨.m, t, y⟩] ∧ k ((x.loc t s.start).value (x.after t s.start)) ((y.loc t (x.after t s.start)).value (y.after t (x.after t s.start))) (y.loc t (x.after t s.start)) (y.after t (x.after t s.start)) = .ok u := by
  constructor
  · intro h
    obtain ⟨c0, h0, h⟩ := bind_ok.1 h
    obtain ⟨hf, rfl⟩ := beginInstr_ok.1 h0
    obtain ⟨⟨v0, c⟩, h1, h⟩ := bind_ok.1 h
    obtain ⟨r0, rfl, rfl⟩ := operandR_ok.1 h1
    obtain ⟨⟨v1, d1, c⟩, h1, h⟩ := bind_ok.1 h
    obtain ⟨r1, rfl, rfl, rfl⟩ := operandM_ok.1 h1
    obtain ⟨w, h1, h⟩ := bind_ok.1 h
    obtain ⟨hz, rfl⟩ := (endOperands_afterOps [⟨.r, t, x⟩, ⟨.m, t, y⟩] s.start w).1 h1
    exact ⟨⟨hf, ⟨r0, r1, trivial⟩, hz⟩, h⟩
  · rintro ⟨⟨hf, ⟨r0, r1, -⟩, hz⟩, h⟩
    refine bind_ok.2 ⟨_, beginInstr_ok.2 ⟨hf, rfl⟩, ?_⟩
    refine bind_ok.2 ⟨_, operandR_ok.2 ⟨r0, rfl, rfl⟩, ?_⟩
    refine bind_ok.2 ⟨_, operandM_ok.2 ⟨r1, rfl, rfl, rfl⟩, ?_⟩
    exact bind_ok.2 ⟨_, (endOperands_afterOps [⟨.r, t, x⟩, ⟨.m, t, y⟩] s.start _).2 ⟨hz, rfl⟩, h⟩

/-- An instruction that reads two operands and writes a third. -/
theorem driver_rrw {t t2 t3 : DType} {x y z : Spec} {s u : State} {k : BitVec t.bits → BitVec t2.bits → Loc t3 → State → Except Stop State} :
    (do
    let c ← beginInstr s
    let (v0, c) ← operandR t x c
    let (v1, c) ← operandR t2 y c
    let (d2, c) ← operandW t3 z c
    let s ← endOperands c
    k v0 v1 d2 s) = .ok u ↔
      OpsReady s [⟨.r, t, x⟩, ⟨.r, t2, y⟩, ⟨.w, t3, z⟩] ∧ k ((x.loc t s.start).value (x.after t s.start)) ((y.loc t2 (x.after t s.start)).value (y.after t2 (x.after t s.start))) (z.loc t3 (y.after t2 (x.after t s.start))) (z.after t3 (y.after t2 (x.after t s.start))) = .ok u := by
  constructor
  · intro h
    obtain ⟨c0, h0, h⟩ := bind_ok.1 h
    obtain ⟨hf, rfl⟩ := beginInstr_ok.1 h0
    obtain ⟨⟨v0, c⟩, h1, h⟩ := bind_ok.1 h
    obtain ⟨r0, rfl, rfl⟩ := operandR_ok.1 h1
    obtain ⟨⟨v1, c⟩, h1, h⟩ := bind_ok.1 h
    obtain ⟨r1, rfl, rfl⟩ := operandR_ok.1 h1
    obtain ⟨⟨d2, c⟩, h1, h⟩ := bind_ok.1 h
    obtain ⟨r2, rfl, rfl⟩ := operandW_ok.1 h1
    obtain ⟨w, h1, h⟩ := bind_ok.1 h
    obtain ⟨hz, rfl⟩ := (endOperands_afterOps [⟨.r, t, x⟩, ⟨.r, t2, y⟩, ⟨.w, t3, z⟩] s.start w).1 h1
    exact ⟨⟨hf, ⟨r0, r1, r2, trivial⟩, hz⟩, h⟩
  · rintro ⟨⟨hf, ⟨r0, r1, r2, -⟩, hz⟩, h⟩
    refine bind_ok.2 ⟨_, beginInstr_ok.2 ⟨hf, rfl⟩, ?_⟩
    refine bind_ok.2 ⟨_, operandR_ok.2 ⟨r0, rfl, rfl⟩, ?_⟩
    refine bind_ok.2 ⟨_, operandR_ok.2 ⟨r1, rfl, rfl⟩, ?_⟩
    refine bind_ok.2 ⟨_, operandW_ok.2 ⟨r2, rfl, rfl⟩, ?_⟩
    exact bind_ok.2 ⟨_, (endOperands_afterOps [⟨.r, t, x⟩, ⟨.r, t2, y⟩, ⟨.w, t3, z⟩] s.start _).2 ⟨hz, rfl⟩, h⟩
/-! ## The same drivers as equations: what is left when the operands can be evaluated -/

theorem bind_of_ok {α β : Type} {x : Except Stop α} {f : α → Except Stop β} {a : α} (h : x = .ok a) :
    (x >>= f) = f a := by
  rw [h]
  rfl

theorem endOperands_of_hazardFree {os : List Operand} {s : State} (hz : HazardFree s os) :
    endOperands (Ctx.afterOps os (Ctx.start s)) = .ok (operandsAfter os s) :=
  (endOperands_afterOps os s _).2 ⟨hz, rfl⟩

theorem driver_r_eq {t : DType} {x : Spec} {s : State} {k : BitVec t.bits → State → Except Stop State}
    (hf : s.Fetchable 1) (hr : OperandsReady [⟨.r, t, x⟩] s.start) :
    (do
    let c ← beginInstr s
    let (v0, c) ← operandR t x c
    let s ← endOperands c
    k v0 s) =
      (do
      let s' ← endOperands (Ctx.afterOps [⟨.r, t, x⟩] (Ctx.start s.start))
      k (x.read t s.start) s') := by
  obtain ⟨r0, -⟩ := hr
  refine (bind_of_ok (beginInstr_ok.2 ⟨hf, rfl⟩)).trans ?_
  exact bind_of_ok (operandR_ok.2 ⟨r0, rfl, rfl⟩)

theorem driver_w_eq {t : DType} {x : Spec} {s : State} {k : Loc t → State → Except Stop State}
    (hf : s.Fetchable 1) (hr : OperandsReady [⟨.w, t, x⟩] s.start) :
    (do
    let c ← beginInstr s
    let (d0, c) ← operandW t x c
    let s ← endOperands c
    k d0 s) =
      (do
      let s' ← endOperands (Ctx.afterOps [⟨.w, t, x⟩] (Ctx.start s.start))
      k (x.loc t s.start) s') := by
  obtain ⟨r0, -⟩ := hr
  refine (bind_of_ok (beginInstr_ok.2 ⟨hf, rfl⟩)).trans ?_
  exact bind_of_ok (operandW_ok.2 ⟨r0, rfl, rfl⟩)

theorem driver_a_eq {t : DType} {x : Spec} {s : State} {k : Word → State → Except Stop State}
    (hf : s.Fetchable 1) (hr : OperandsReady [⟨.a, t, x⟩] s.start) {a0 : Word} (l0 : x.loc t s.start = .mem a0) :
    (do
    let c ← beginInstr s
    let (a0, c) ← operandA t x c
    let s ← endOperands c
    k a0 s) =
      (do
      let s' ← endOperands (Ctx.afterOps [⟨.a, t, x⟩] (Ctx.start s.start))
      k a0 s') := by
  obtain ⟨r0, -⟩ := hr
  refine (bind_of_ok (beginInstr_ok.2 ⟨hf, rfl⟩)).trans ?_
  exact bind_of_ok (operandA_ok.2 ⟨r0, l0, rfl⟩)

theorem driver_rr_eq {t : DType} {x y : Spec} {s : State} {k : BitVec t.bits → BitVec t.bits → State → Except Stop State}
    (hf : s.Fetchable 1) (hr : OperandsReady [⟨.r, t, x⟩, ⟨.r, t, y⟩] s.start) :
    (do
    let c ← beginInstr s
    let (v0, c) ← operandR t x c
    let (v1, c) ← operandR t y c
    let s ← endOperands c
    k v0 v1 s) =
      (do
      let s' ← endOperands (Ctx.afterOps [⟨.r, t, x⟩, ⟨.r, t, y⟩] (Ctx.start s.start))
      k (x.read t s.start) (y.read t (x.after t s.start)) s') := by
  obtain ⟨r0, r1, -⟩ := hr
  refine (bind_of_ok (beginInstr_ok.2 ⟨hf, rfl⟩)).trans ?_
  refine (bind_of_ok (operandR_ok.2 ⟨r0, rfl, rfl⟩)).trans ?_
  exact bind_of_ok (operandR_ok.2 ⟨r1, rfl, rfl⟩)

theorem driver_rw_eq {t t2 : DType} {x y : Spec} {s : State} {k : BitVec t.bits → Loc t2 → State → Except Stop State}
    (hf : s.Fetchable 1) (hr : OperandsReady [⟨.r, t, x⟩, ⟨.w, t2, y⟩] s.start) :
    (do
    let c ← beginInstr s
    let (v0, c) ← operandR t x c
    let (d1, c) ← operandW t2 y c
    let s ← endOperands c
    k v0 d1 s) =
      (do
      let s' ← endOperands (Ctx.afterOps [⟨.r, t, x⟩, ⟨.w, t2, y⟩] (Ctx.start s.start))
      k (x.read t s.start) (y.loc t2 (x.after t s.start)) s') := by
  obtain ⟨r0, r1, -⟩ := hr
  refine (bind_of_ok (beginInstr_ok.2 ⟨hf, rfl⟩)).trans ?_
  refine (bind_of_ok (operandR_ok.2 ⟨r0, rfl, rfl⟩)).trans ?_
  exact bind_of_ok (operandW_ok.2 ⟨r1, rfl, rfl⟩)

theorem driver_aw_eq {t t2 : DType} {x y : Spec} {s : State} {k : Word → Loc t2 → State → Except Stop State}
    (hf : s.Fetchable 1) (hr : OperandsReady [⟨.a, t, x⟩, ⟨.w, t2, y⟩] s.start) {a0 : Word} (l0 : x.loc t s.start = .mem a0) :
    (do
    let c ← beginInstr s
    let (a0, c) ← operandA t x c
    let (d1, c) ← operandW t2 y c
    let s ← endOperands c
    k a0 d1 s) =
      (do
      let s' ← endOperands (Ctx.afterOps [⟨.a, t, x⟩, ⟨.w, t2, y⟩] (Ctx.start s.start))
      k a0 (y.loc t2 (x.after t s.start)) s') := by
  obtain ⟨r0, r1, -⟩ := hr
  refine (bind_of_ok (beginInstr_ok.2 ⟨hf, rfl⟩)).trans ?_
  refine (bind_of_ok (operandA_ok.2 ⟨r0, l0, rfl⟩)).trans ?_
  exact bind_of_ok (operandW_ok.2 ⟨r1, rfl, rfl⟩)

theorem driver_rm_eq {t : DType} {x y : Spec} {s : State} {k : BitVec t.bits → BitVec t.bits → Loc t → State → Except Stop State}
    (hf : s.Fetchable 1) (hr : OperandsReady [⟨.r, t, x⟩, ⟨.m, t, y⟩] s.start) :
    (do
    let c ← beginInstr s
    let (v0, c) ← operandR t x c
    let (v1, d1, c) ← operandM t y c
    let s ← endOperands c
    k v0 v1 d1 s) =
      (do
      let s' ← endOperands (Ctx.afterOps [⟨.r, t, x⟩, ⟨.m, t, y⟩] (Ctx.start s.start))
      k (x.read t s.start) (y.read t (x.after t s.start)) (y.loc t (x.after t s.start)) s') := by
  obtain ⟨r0, r1, -⟩ := hr
  refine (bind_of_ok (beginInstr_ok.2 ⟨hf, rfl⟩)).trans ?_
  refine (bind_of_ok (operandR_ok.2 ⟨r0, rfl, rfl⟩)).trans ?_
  exact bind_of_ok (operandM_ok.2 ⟨r1, rfl, rfl, rfl⟩)

theorem driver_rrw_eq {t t2 t3 : DType} {x y z : Spec} {s : State} {k : BitVec t.bits → BitVec t2.bits → Loc t3 → State → Except Stop State}
    (hf : s.Fetchable 1) (hr : OperandsReady [⟨.r, t, x⟩, ⟨.r, t2, y⟩, ⟨.w, t3, z⟩] s.start) :
    (do
    let c ← beginInstr s
    let (v0, c) ← operandR t x c
    let (v1, c) ← operandR t2 y c
    let (d2, c) ← operandW t3 z c
    let s ← endOperands c
    k v0 v1 d2 s) =
      (do
      let s' ← endOperands (Ctx.afterOps [⟨.r, t, x⟩, ⟨.r, t2, y⟩, ⟨.w, t3, z⟩] (Ctx.start s.start))
      k (x.read t s.start) (y.read t2 (x.after t s.start)) (z.loc t3 (y.after t2 (x.after t s.start))) s') := by
  obtain ⟨r0, r1, r2, -⟩ := hr
  refine (bind_of_ok (beginInstr_ok.2 ⟨hf, rfl⟩)).trans ?_
  refine (bind_of_ok (operandR_ok.2 ⟨r0, rfl, rfl⟩)).trans ?_
  refine (bind_of_ok (operandR_ok.2 ⟨r1, rfl, rfl⟩)).trans ?_
  exact bind_of_ok (operandW_ok.2 ⟨r2, rfl, rfl⟩)

/-! ## The families

Each lemma says when a family's operation answers a next state, and which: the operands can be evaluated, the destination
can be written, no trap is enabled. -/

/-- `mov<t>` (R150). -/
theorem mov_ok {t : DType} {src dst : Spec} {s u : State} :
    mov t src dst s = .ok u ↔
      OpsReady s [⟨.r, t, src⟩, ⟨.w, t, dst⟩] ∧ (dst.loc t (src.after t s.start)).Writable (dst.after t (src.after t s.start)) ∧
        u = ((dst.loc t (src.after t s.start)).store (dst.after t (src.after t s.start)) (src.read t s.start)).setNZV (flagN (src.read t s.start))
          (flagZ (src.read t s.start)) false :=
  (driver_rw (t2 := t) (k := fun v d s => do
    let s ← writeOperand t d v s
    .ok (s.setNZV (flagN v) (flagZ v) false))).trans (and_congr_right fun _ => by simp [bind_ok, writeOperand_ok, Spec.read, eq_comm (a := u), and_assoc])

/-- `movzb<t>` (R155). -/
theorem movzb_ok {t : DType} {src dst : Spec} {s u : State} :
    movzb t src dst s = .ok u ↔
      OpsReady s [⟨.r, .b, src⟩, ⟨.w, t, dst⟩] ∧ (dst.loc t (src.after DType.b s.start)).Writable (dst.after t (src.after DType.b s.start)) ∧
        u = ((dst.loc t (src.after DType.b s.start)).store (dst.after t (src.after DType.b s.start)) ((src.read .b s.start).setWidth t.bits)).setNZV false
          (flagZ ((src.read .b s.start).setWidth t.bits)) false :=
  (driver_rw (t := .b) (t2 := t) (k := fun x d s => do
    let s ← writeOperand t d (x.setWidth t.bits) s
    .ok (s.setNZV false (flagZ (x.setWidth t.bits)) false))).trans (and_congr_right fun _ => by simp [bind_ok, writeOperand_ok, Spec.read, eq_comm (a := u), and_assoc])

/-- `cvtb<t>` (R200). -/
theorem cvtb_ok {t : DType} {src dst : Spec} {s u : State} :
    cvtb t src dst s = .ok u ↔
      OpsReady s [⟨.r, .b, src⟩, ⟨.w, t, dst⟩] ∧ (dst.loc t (src.after DType.b s.start)).Writable (dst.after t (src.after DType.b s.start)) ∧
        u = ((dst.loc t (src.after DType.b s.start)).store (dst.after t (src.after DType.b s.start)) ((src.read .b s.start).signExtend t.bits)).setNZVC
          (tstFlags ((src.read .b s.start).signExtend t.bits)) :=
  (driver_rw (t := .b) (t2 := t) (k := fun x d s => do
    let s ← writeOperand t d (x.signExtend t.bits) s
    .ok (s.setNZVC (tstFlags (x.signExtend t.bits))))).trans (and_congr_right fun _ => by simp [bind_ok, writeOperand_ok, Spec.read, eq_comm (a := u), and_assoc])

/-- `mova<t>` (R159). -/
theorem mova_ok {t : DType} {src dst : Spec} {s u : State} :
    mova t src dst s = .ok u ↔
      OpsReady s [⟨.a, t, src⟩, ⟨.w, .l, dst⟩] ∧ ∃ a, src.loc t s.start = .mem a ∧ (dst.loc .l (src.after t s.start)).Writable (dst.after DType.l (src.after t s.start)) ∧
        u = (Loc.store (t := .l) (dst.after .l (src.after t s.start)) a (dst.loc .l (src.after t s.start))).setNZV (flagN a)
          (flagZ a) false :=
  (driver_aw (t2 := .l) (k := fun a d s => do
    let s ← writeOperand .l d a s
    .ok (s.setNZV (flagN a) (flagZ a) false))).trans (and_congr_right fun _ => exists_congr fun a => and_congr_right fun _ => by
    constructor
    · intro h
      obtain ⟨w, h1, h⟩ := bind_ok.1 h
      obtain ⟨hw, rfl⟩ := (writeOperand_ok (t := .l)).1 h1
      cases h
      exact ⟨hw, rfl⟩
    · rintro ⟨hw, rfl⟩
      exact bind_ok.2 ⟨_, (writeOperand_ok (t := .l)).2 ⟨hw, rfl⟩, rfl⟩)

/-- `pushl` (R164). -/
theorem push_ok {src : Spec} {s u : State} :
    push src s = .ok u ↔
      OpsReady s [⟨.r, .l, src⟩] ∧ ∃ w, pushLongword (src.read .l s.start) (src.after DType.l s.start) = .ok w ∧
        u = w.setNZV (flagN (src.read .l s.start)) (flagZ (src.read .l s.start)) false :=
  (driver_r (t := .l) (k := fun v s => do
    let s ← pushLongword v s
    .ok (s.setNZV (flagN v) (flagZ v) false))).trans (and_congr_right fun _ => by simp [bind_ok, Spec.read, eq_comm (a := u)])

/-- The common part of `add` (R170). -/
theorem addInto_ok {t : DType} {a b : BitVec t.bits} {d : Loc t} {s u : State} :
    addInto t a b d s = .ok u ↔
      d.Writable s ∧ (s.iv && (addFlags a b (a + b)).v) = false ∧
        u = (d.store s (a + b)).setNZVC (addFlags a b (a + b)) := by
  simp [addInto, bind_ok, writeOperand_ok, overflowTrap_ok, and_assoc]

/-- The common part of `sub` (R177). -/
theorem subInto_ok {t : DType} {m x : BitVec t.bits} {d : Loc t} {s u : State} :
    subInto t m x d s = .ok u ↔
      d.Writable s ∧ (s.iv && (subFlags m x (m - x)).v) = false ∧
        u = (d.store s (m - x)).setNZVC (subFlags m x (m - x)) := by
  simp [subInto, bind_ok, writeOperand_ok, overflowTrap_ok, and_assoc]

/-- `add<t>2` (R170). -/
theorem add2_ok {t : DType} {x y : Spec} {s u : State} :
    add2 t x y s = .ok u ↔
      OpsReady s [⟨.r, t, x⟩, ⟨.m, t, y⟩] ∧ addInto t (x.read t s.start) (y.read t (x.after t s.start)) (y.loc t (x.after t s.start)) (y.after t (x.after t s.start)) = .ok u :=
  (driver_rm (k := fun a b d s => addInto t a b d s))

/-- `add<t>3` (R170). -/
theorem add3_ok {t : DType} {x y z : Spec} {s u : State} :
    add3 t x y z s = .ok u ↔
      OpsReady s [⟨.r, t, x⟩, ⟨.r, t, y⟩, ⟨.w, t, z⟩] ∧ addInto t (x.read t s.start) (y.read t (x.after t s.start)) (z.loc t (y.after t (x.after t s.start))) (z.after t (y.after t (x.after t s.start))) = .ok u :=
  (driver_rrw (t2 := t) (t3 := t) (k := fun a b d s => addInto t a b d s))

/-- `sub<t>2` (R177). -/
theorem sub2_ok {t : DType} {x y : Spec} {s u : State} :
    sub2 t x y s = .ok u ↔
      OpsReady s [⟨.r, t, x⟩, ⟨.m, t, y⟩] ∧ subInto t (y.read t (x.after t s.start)) (x.read t s.start) (y.loc t (x.after t s.start)) (y.after t (x.after t s.start)) = .ok u :=
  (driver_rm (k := fun x m d s => subInto t m x d s))

/-- `sub<t>3` (R177). -/
theorem sub3_ok {t : DType} {x y z : Spec} {s u : State} :
    sub3 t x y z s = .ok u ↔
      OpsReady s [⟨.r, t, x⟩, ⟨.r, t, y⟩, ⟨.w, t, z⟩] ∧ subInto t (y.read t (x.after t s.start)) (x.read t s.start) (z.loc t (y.after t (x.after t s.start))) (z.after t (y.after t (x.after t s.start))) = .ok u :=
  (driver_rrw (t2 := t) (t3 := t) (k := fun x m d s => subInto t m x d s))

/-- `cmp<t>` (R184). -/
theorem cmp_ok {t : DType} {x y : Spec} {s u : State} :
    cmp t x y s = .ok u ↔
      OpsReady s [⟨.r, t, x⟩, ⟨.r, t, y⟩] ∧ u = (y.after t (x.after t s.start)).setNZVC (cmpFlags (x.read t s.start) (y.read t (x.after t s.start))) :=
  (driver_rr (k := fun a b s => .ok (s.setNZVC (cmpFlags a b)))).trans (and_congr_right fun _ => by simp [Spec.read, eq_comm (a := u)])

/-- `tst<t>` (R188). -/
theorem tst_ok {t : DType} {x : Spec} {s u : State} :
    tst t x s = .ok u ↔
      OpsReady s [⟨.r, t, x⟩] ∧ u = (x.after t s.start).setNZVC (tstFlags (x.read t s.start)) :=
  (driver_r (k := fun a s => .ok (s.setNZVC (tstFlags a)))).trans (and_congr_right fun _ => by simp [Spec.read, eq_comm (a := u)])

/-- `ash<t>` (R192). -/
theorem ash_ok {t : DType} {cnt src dst : Spec} {s u : State} :
    ash t cnt src dst s = .ok u ↔
      OpsReady s [⟨.r, .b, cnt⟩, ⟨.r, t, src⟩, ⟨.w, t, dst⟩] ∧ (dst.loc t (src.after t (cnt.after DType.b s.start))).Writable (dst.after t (src.after t (cnt.after DType.b s.start))) ∧ (s.iv && ashOverflow (cnt.read .b s.start) (src.read t (cnt.after DType.b s.start))) = false ∧
        u = ((dst.loc t (src.after t (cnt.after DType.b s.start))).store (dst.after t (src.after t (cnt.after DType.b s.start))) (ashResult (cnt.read .b s.start) (src.read t (cnt.after DType.b s.start)))).setNZVC (ashFlags (cnt.read .b s.start) (src.read t (cnt.after DType.b s.start))) :=
  (driver_rrw (t := .b) (t2 := t) (t3 := t) (k := fun k x d s => do
    let s ← writeOperand t d (ashResult k x) s
    overflowTrap (ashOverflow k x) (s.setNZVC (ashFlags k x)))).trans (and_congr_right fun _ => by
    simp [bind_ok, writeOperand_ok, overflowTrap_ok, Spec.read, and_assoc, State.start])

/-- `clr<t>` (R195). -/
theorem clr_ok {t : DType} {dst : Spec} {s u : State} :
    clr t dst s = .ok u ↔
      OpsReady s [⟨.w, t, dst⟩] ∧ (dst.loc t s.start).Writable (dst.after t s.start) ∧ u = ((dst.loc t s.start).store (dst.after t s.start) 0).setNZV false true false :=
  (driver_w (k := fun d s => do
    let s ← writeOperand t d 0 s
    .ok (s.setNZV false true false))).trans (and_congr_right fun _ => by simp [bind_ok, writeOperand_ok, eq_comm (a := u), and_assoc])

/-- `jmp` (R217). -/
theorem jump_ok {dst : Spec} {s u : State} :
    jump dst s = .ok u ↔
      OpsReady s [⟨.a, .b, dst⟩] ∧ ∃ a, dst.loc .b s.start = .mem a ∧ u = (dst.after DType.b s.start).setPc a :=
  (driver_a (t := .b) (k := fun a s => .ok (s.setPc a))).trans (and_congr_right fun _ => by simp [eq_comm (a := u)])

/-- `jsb` (R230). -/
theorem jumpSub_ok {dst : Spec} {s u : State} :
    jumpSub dst s = .ok u ↔
      OpsReady s [⟨.a, .b, dst⟩] ∧ ∃ a, dst.loc .b s.start = .mem a ∧
        ∃ w, pushLongword (dst.after DType.b s.start).pc (dst.after DType.b s.start) = .ok w ∧ u = w.setPc a :=
  (driver_a (t := .b) (k := fun a s => do
    let s ← pushLongword s.pc s
    .ok (s.setPc a))).trans (and_congr_right fun _ => by simp [bind_ok, eq_comm (a := u)])

/-- The state `aobleq` leaves: the sum stored, its flags set, and the branch taken or not (R218). -/
def aobNext (lim i : Word) (d : Loc .l) (target : Word) (s : State) : State :=
  let r := i + 1
  let s := (Loc.store (t := .l) s r d).setNZV (flagN r) (flagZ r) (aobOverflow i)
  if r.toInt ≤ lim.toInt then s.setPc target else s

/-- `aobleq` (R218). -/
theorem addOneBranchLeq_ok {lim idx : Spec} {displ : Byte} {s u : State} :
    addOneBranchLeq lim idx displ s = .ok u ↔
      OpsReady s [⟨.r, .l, lim⟩, ⟨.m, .l, idx⟩] ∧ (idx.after DType.l (lim.after DType.l s.start)).Fetchable 1 ∧
        (idx.loc .l (lim.after DType.l s.start)).Writable ((idx.after DType.l (lim.after DType.l s.start)).advance 1) ∧ (s.iv && aobOverflow (idx.read .l (lim.after DType.l s.start))) = false ∧
        u = aobNext (lim.read .l s.start) (idx.read .l (lim.after DType.l s.start)) (idx.loc .l (lim.after DType.l s.start))
          (((idx.after DType.l (lim.after DType.l s.start)).advance 1).pc + displ.signExtend 32) ((idx.after DType.l (lim.after DType.l s.start)).advance 1) :=
  (driver_rm (t := .l) (k := fun lim i d s => do
    let (target, s) ← branchTarget 1 displ s
    let r := i + 1
    let s ← writeOperand .l d r s
    let s := s.setNZV (flagN r) (flagZ r) (aobOverflow i)
    let s := if r.toInt ≤ lim.toInt then s.setPc target else s
    overflowTrap (aobOverflow i) s)).trans (and_congr_right fun _ => by
    constructor
    · intro h
      obtain ⟨⟨target, s1⟩, h1, h⟩ := bind_ok.1 h
      obtain ⟨hf, rfl, rfl⟩ := branchTarget_ok.1 h1
      obtain ⟨s2, h2, h⟩ := bind_ok.1 h
      obtain ⟨hw, rfl⟩ := writeOperand_ok.1 h2
      obtain ⟨hv, rfl⟩ := overflowTrap_ok.1 h
      refine ⟨hf, hw, ?_, rfl⟩
      revert hv
      split_ifs <;> simp [State.setPc, State.setNZV, Spec.read, State.start]
    · rintro ⟨hf, hw, hv, rfl⟩
      refine bind_ok.2 ⟨_, branchTarget_ok.2 ⟨hf, rfl, rfl⟩, ?_⟩
      refine bind_ok.2 ⟨_, writeOperand_ok.2 ⟨hw, rfl⟩, ?_⟩
      refine overflowTrap_ok.2 ⟨?_, rfl⟩
      revert hv
      split_ifs <;> simp [State.setPc, State.setNZV, Spec.read, State.start])

/-- The conditional branches (R210). -/
theorem branchIf_ok {cond : State → Except Stop Bool} {displ : Byte} {s u : State} :
    branchIf cond displ s = .ok u ↔
      s.Fetchable 2 ∧ ∃ taken, cond (s.advance 2) = .ok taken ∧
        u = if taken then (s.advance 2).setPc ((s.advance 2).pc + displ.signExtend 32) else s.advance 2 := by
  unfold branchIf
  rw [show (2 : Nat) = 1 + 1 from rfl, Fetchable_add, ← advance_advance]
  constructor
  · intro h
    obtain ⟨c, h0, h⟩ := bind_ok.1 h
    obtain ⟨hf, rfl⟩ := beginInstr_ok.1 h0
    obtain ⟨⟨target, s1⟩, h1, h⟩ := bind_ok.1 h
    obtain ⟨hf', rfl, rfl⟩ := branchTarget_ok.1 h1
    obtain ⟨taken, h2, h⟩ := bind_ok.1 h
    cases h
    exact ⟨⟨hf, hf'⟩, taken, h2, rfl⟩
  · rintro ⟨⟨hf, hf'⟩, taken, h2, rfl⟩
    refine bind_ok.2 ⟨_, beginInstr_ok.2 ⟨hf, rfl⟩, ?_⟩
    refine bind_ok.2 ⟨_, branchTarget_ok.2 ⟨hf', rfl, rfl⟩, ?_⟩
    exact bind_ok.2 ⟨_, h2, rfl⟩

/-- The unconditional branches (R215, R216). -/
theorem branch_ok {w bytes : Nat} {displ : BitVec w} {s u : State} :
    branch bytes displ s = .ok u ↔
      s.Fetchable (1 + bytes) ∧ u = (s.advance (1 + bytes)).setPc ((s.advance (1 + bytes)).pc + displ.signExtend 32) := by
  unfold branch
  rw [Fetchable_add, ← advance_advance]
  constructor
  · intro h
    obtain ⟨c, h0, h⟩ := bind_ok.1 h
    obtain ⟨hf, rfl⟩ := beginInstr_ok.1 h0
    obtain ⟨⟨target, s1⟩, h1, h⟩ := bind_ok.1 h
    obtain ⟨hf', rfl, rfl⟩ := branchTarget_ok.1 h1
    cases h
    exact ⟨⟨hf, hf'⟩, rfl⟩
  · rintro ⟨⟨hf, hf'⟩, rfl⟩
    refine bind_ok.2 ⟨_, beginInstr_ok.2 ⟨hf, rfl⟩, ?_⟩
    exact bind_ok.2 ⟨_, branchTarget_ok.2 ⟨hf', rfl, rfl⟩, rfl⟩

/-- A named instruction never answers a next state (R74). -/
theorem unmodelled_ok {op : Opcode} {s u : State} : unmodelled op s = .ok u ↔ False := by
  unfold unmodelled
  simp [bind_ok]

/-- One specifier by itself (R102, R119, R133). -/
theorem operandAlone_ok {acc : Access} {t : DType} {x : Spec} {s u : State} :
    operandAlone acc t x s = .ok u ↔ Operand.Ready s ⟨acc, t, x⟩ ∧ u = x.after t s := by
  unfold operandAlone
  cases acc
  · simp only
    constructor
    · intro h
      obtain ⟨⟨v, c⟩, h1, h⟩ := bind_ok.1 h
      obtain ⟨hr, rfl, rfl⟩ := operandR_ok.1 h1
      cases h
      exact ⟨hr, rfl⟩
    · rintro ⟨hr, rfl⟩
      exact bind_ok.2 ⟨_, operandR_ok.2 ⟨hr, rfl, rfl⟩, rfl⟩
  · simp only
    constructor
    · intro h
      obtain ⟨⟨v, c⟩, h1, h⟩ := bind_ok.1 h
      obtain ⟨hr, rfl, rfl⟩ := operandW_ok.1 h1
      cases h
      exact ⟨hr, rfl⟩
    · rintro ⟨hr, rfl⟩
      exact bind_ok.2 ⟨_, operandW_ok.2 ⟨hr, rfl, rfl⟩, rfl⟩
  · simp only
    constructor
    · intro h
      obtain ⟨⟨v, d, c⟩, h1, h⟩ := bind_ok.1 h
      obtain ⟨hr, rfl, rfl, rfl⟩ := operandM_ok.1 h1
      cases h
      exact ⟨hr, rfl⟩
    · rintro ⟨hr, rfl⟩
      exact bind_ok.2 ⟨_, operandM_ok.2 ⟨hr, rfl, rfl, rfl⟩, rfl⟩
  · simp only
    constructor
    · intro h
      obtain ⟨⟨v, c⟩, h1, h⟩ := bind_ok.1 h
      obtain ⟨hr, -, rfl⟩ := operandA_ok.1 h1
      cases h
      exact ⟨hr, rfl⟩
    · rintro ⟨hr, rfl⟩
      obtain ⟨a, ha⟩ := exists_address hr
      exact bind_ok.2 ⟨_, operandA_ok.2 ⟨hr, ha, rfl⟩, rfl⟩

end Sys2Proof.Machine
end

