-- ==== Sys2Proof/Laws/Exec.lean ====
section
/-! SUPPORT. What an executed instruction can do to registers and memory, said once for all of them: what a proof about every
step cites, instead of unfolding 84 meanings. -/

namespace Sys2Proof.Machine

open Sys2Proof

/-- Two states that agree in memory, parameters, `IV`, which registers hold a value, and every register but the program
counter. -/
structure SameButPc (w t : State) : Prop where
  mem : t.mem = w.mem
  params : t.params = w.params
  iv : t.iv = w.iv
  regWritten : t.regWritten = w.regWritten
  reg : ∀ r, r ≠ pcReg → t.reg r = w.reg r

theorem SameButPc.refl (w : State) : SameButPc w w := ⟨rfl, rfl, rfl, rfl, fun _ _ => rfl⟩

theorem SameButPc.setPc {w t : State} (h : SameButPc w t) (v : Word) : SameButPc w (t.setPc v) :=
  ⟨h.mem, h.params, h.iv, h.regWritten, fun r hr => (reg_setPc_ne t v hr).trans (h.reg r hr)⟩

theorem SameButPc.setNZVC {w t : State} (h : SameButPc w t) (x : CondCodes) : SameButPc w (t.setNZVC x) :=
  ⟨h.mem, h.params, h.iv, h.regWritten, h.reg⟩

theorem SameButPc.setNZV {w t : State} (h : SameButPc w t) (n z v : Bool) : SameButPc w (t.setNZV n z v) :=
  ⟨h.mem, h.params, h.iv, h.regWritten, h.reg⟩

theorem SameButPc.isWritten {w t : State} (h : SameButPc w t) (r : Reg) : t.isWritten r = w.isWritten r := by
  unfold State.isWritten
  rw [h.regWritten]

/-- What an instruction leaves, up to the flags and the program counter: its operands evaluated, and its result stored
at its destination (`dest`), or nothing stored (`none`), or a longword pushed (`stack`); or, for a specifier by itself,
the specifier evaluated (`alone`). -/
inductive Effect (i : Instr) (s : State) : State → Prop where
  | dest {t : State} (o : Operand) (v : BitVec o.dt.bits) (hd : i.destination = some o)
      (hw : (o.spec.loc o.dt (i.beforeDestination s)).Writable (i.operandsDone s))
      (ht : SameButPc ((o.spec.loc o.dt (i.beforeDestination s)).store (i.operandsDone s) v) t) : Effect i s t
  | none {t : State} (hd : i.destination = Option.none) (ht : SameButPc (i.operandsDone s) t) : Effect i s t
  | stack {t : State} (w : State) (v : Word) (hd : i.destination = Option.none)
      (hi : i.opcode? = some .pushl ∨ i.opcode? = some .jsb) (hp : pushLongword v (i.operandsDone s) = .ok w)
      (ht : SameButPc w t) : Effect i s t
  | alone {t : State} (hd : i.opcode? = Option.none) (ht : t = operandsAfter i.operands s) : Effect i s t

/-- Storing at a location, and moving the program counter. -/
theorem Loc.store_advance {t : DType} (x : Loc t) (s : State) (n : Nat) (v : BitVec t.bits) :
    SameButPc (x.store s v) (x.store (s.advance n) v) := by
  have key : ∀ (s : State) (r : Reg) (u : Word) (s' : State), SameButPc s s' →
      SameButPc (s.setReg r u) (s'.setReg r u) := fun s r u s' h =>
    ⟨h.mem, h.params, h.iv, by simp only [State.setReg, h.regWritten], fun k hk => by
      rw [reg_setReg, reg_setReg, h.reg k hk]⟩
  have h0 : SameButPc s (s.advance n) := (SameButPc.refl s).setPc _
  unfold Loc.store
  cases x with
  | lit _ => exact h0
  | mem a => exact ⟨rfl, rfl, rfl, rfl, h0.reg⟩
  | reg r =>
    simp only
    by_cases hr : r = pcReg
    · subst hr
      by_cases h3 : t.size < 4
      · simp only [if_pos h3]
        exact ⟨rfl, rfl, rfl, rfl, fun k hk => by rw [reg_setReg_ne _ _ hk, reg_setReg_ne _ _ hk, advance_reg hk]⟩
      · simp only [if_neg h3]
        split_ifs
        · exact key _ _ _ _ h0
        · exact key _ _ _ _ (key _ _ _ _ h0)
        · exact key _ _ _ _ (key _ _ _ _ (key _ _ _ _ (key _ _ _ _ h0)))
    · rw [advance_reg hr]
      split_ifs
      · exact key _ _ _ _ h0
      · exact key _ _ _ _ h0
      · exact key _ _ _ _ (key _ _ _ _ h0)
      · exact key _ _ _ _ (key _ _ _ _ (key _ _ _ _ (key _ _ _ _ h0)))

/-! ## Each family -/

section

variable {i : Instr} {s u : State} {t : DType} {x y z : Spec}

theorem Effect.of_dest2 {p q : Access} {t' : DType} (ho : i.operands = [⟨p, t, x⟩, ⟨q, t', y⟩])
    (hd : i.destination = some ⟨q, t', y⟩) (v : BitVec t'.bits)
    (hw : (y.loc t' (x.after t s.start)).Writable (y.after t' (x.after t s.start)))
    (ht : SameButPc ((y.loc t' (x.after t s.start)).store (y.after t' (x.after t s.start)) v) u) : Effect i s u := by
  have e : i.beforeDestination s = x.after t s.start := by rw [Instr.beforeDestination, ho]; rfl
  have e' : i.operandsDone s = y.after t' (x.after t s.start) := by rw [Instr.operandsDone, ho]; rfl
  refine .dest ⟨q, t', y⟩ v hd ?_ ?_
  · rw [e, e']; exact hw
  · rw [e, e']; exact ht

theorem Effect.of_dest3 {p p' q : Access} {t' t'' : DType}
    (ho : i.operands = [⟨p, t, x⟩, ⟨p', t', y⟩, ⟨q, t'', z⟩]) (hd : i.destination = some ⟨q, t'', z⟩) (v : BitVec t''.bits)
    (hw : (z.loc t'' (y.after t' (x.after t s.start))).Writable (z.after t'' (y.after t' (x.after t s.start))))
    (ht : SameButPc ((z.loc t'' (y.after t' (x.after t s.start))).store (z.after t'' (y.after t' (x.after t s.start))) v) u) :
    Effect i s u := by
  have e : i.beforeDestination s = y.after t' (x.after t s.start) := by rw [Instr.beforeDestination, ho]; rfl
  have e' : i.operandsDone s = z.after t'' (y.after t' (x.after t s.start)) := by rw [Instr.operandsDone, ho]; rfl
  refine .dest ⟨q, t'', z⟩ v hd ?_ ?_
  · rw [e, e']; exact hw
  · rw [e, e']; exact ht

theorem effect_mov (ho : i.operands = [⟨.r, t, x⟩, ⟨.w, t, y⟩]) (hd : i.destination = some ⟨.w, t, y⟩)
    (h : mov t x y s = .ok u) : Effect i s u := by
  obtain ⟨-, hw, rfl⟩ := mov_ok.1 h
  exact .of_dest2 ho hd _ hw ((SameButPc.refl _).setNZV _ _ _)

theorem effect_movzb (ho : i.operands = [⟨.r, .b, x⟩, ⟨.w, t, y⟩]) (hd : i.destination = some ⟨.w, t, y⟩)
    (h : movzb t x y s = .ok u) : Effect i s u := by
  obtain ⟨-, hw, rfl⟩ := movzb_ok.1 h
  exact .of_dest2 ho hd _ hw ((SameButPc.refl _).setNZV _ _ _)

theorem effect_cvtb (ho : i.operands = [⟨.r, .b, x⟩, ⟨.w, t, y⟩]) (hd : i.destination = some ⟨.w, t, y⟩)
    (h : cvtb t x y s = .ok u) : Effect i s u := by
  obtain ⟨-, hw, rfl⟩ := cvtb_ok.1 h
  exact .of_dest2 ho hd _ hw ((SameButPc.refl _).setNZVC _)

theorem effect_mova (ho : i.operands = [⟨.a, t, x⟩, ⟨.w, .l, y⟩]) (hd : i.destination = some ⟨.w, .l, y⟩)
    (h : mova t x y s = .ok u) : Effect i s u := by
  obtain ⟨-, a, -, hw, rfl⟩ := mova_ok.1 h
  exact .of_dest2 (t' := .l) ho hd a hw ((SameButPc.refl _).setNZV _ _ _)

theorem effect_add2 (ho : i.operands = [⟨.r, t, x⟩, ⟨.m, t, y⟩]) (hd : i.destination = some ⟨.m, t, y⟩)
    (h : add2 t x y s = .ok u) : Effect i s u := by
  obtain ⟨-, h⟩ := add2_ok.1 h
  obtain ⟨hw, -, rfl⟩ := addInto_ok.1 h
  exact .of_dest2 ho hd _ hw ((SameButPc.refl _).setNZVC _)

theorem effect_add3 (ho : i.operands = [⟨.r, t, x⟩, ⟨.r, t, y⟩, ⟨.w, t, z⟩]) (hd : i.destination = some ⟨.w, t, z⟩)
    (h : add3 t x y z s = .ok u) : Effect i s u := by
  obtain ⟨-, h⟩ := add3_ok.1 h
  obtain ⟨hw, -, rfl⟩ := addInto_ok.1 h
  exact .of_dest3 ho hd _ hw ((SameButPc.refl _).setNZVC _)

theorem effect_sub2 (ho : i.operands = [⟨.r, t, x⟩, ⟨.m, t, y⟩]) (hd : i.destination = some ⟨.m, t, y⟩)
    (h : sub2 t x y s = .ok u) : Effect i s u := by
  obtain ⟨-, h⟩ := sub2_ok.1 h
  obtain ⟨hw, -, rfl⟩ := subInto_ok.1 h
  exact .of_dest2 ho hd _ hw ((SameButPc.refl _).setNZVC _)

theorem effect_sub3 (ho : i.operands = [⟨.r, t, x⟩, ⟨.r, t, y⟩, ⟨.w, t, z⟩]) (hd : i.destination = some ⟨.w, t, z⟩)
    (h : sub3 t x y z s = .ok u) : Effect i s u := by
  obtain ⟨-, h⟩ := sub3_ok.1 h
  obtain ⟨hw, -, rfl⟩ := subInto_ok.1 h
  exact .of_dest3 ho hd _ hw ((SameButPc.refl _).setNZVC _)

theorem effect_ash (ho : i.operands = [⟨.r, .b, x⟩, ⟨.r, t, y⟩, ⟨.w, t, z⟩]) (hd : i.destination = some ⟨.w, t, z⟩)
    (h : ash t x y z s = .ok u) : Effect i s u := by
  obtain ⟨-, hw, -, rfl⟩ := ash_ok.1 h
  exact .of_dest3 ho hd _ hw ((SameButPc.refl _).setNZVC _)

theorem effect_clr (ho : i.operands = [⟨.w, t, x⟩]) (hd : i.destination = some ⟨.w, t, x⟩)
    (h : clr t x s = .ok u) : Effect i s u := by
  obtain ⟨-, hw, rfl⟩ := clr_ok.1 h
  have e : i.beforeDestination s = s.start := by rw [Instr.beforeDestination, ho]; rfl
  have e' : i.operandsDone s = x.after t s.start := by rw [Instr.operandsDone, ho]; rfl
  refine .dest ⟨.w, t, x⟩ 0 hd ?_ ?_
  · rw [e, e']; exact hw
  · rw [e, e']; exact (SameButPc.refl _).setNZV _ _ _

theorem effect_aobleq {d : Byte} (ho : i.operands = [⟨.r, .l, x⟩, ⟨.m, .l, y⟩]) (hd : i.destination = some ⟨.m, .l, y⟩)
    (h : addOneBranchLeq x y d s = .ok u) : Effect i s u := by
  obtain ⟨-, -, hw, -, rfl⟩ := addOneBranchLeq_ok.1 h
  have hw' : (y.loc .l (x.after .l s.start)).Writable (y.after .l (x.after .l s.start)) := by
    revert hw
    cases y.loc .l (x.after .l s.start) <;> exact fun h => h
  have hs := Loc.store_advance (t := .l) (y.loc .l (x.after .l s.start)) (y.after .l (x.after .l s.start)) 1
    ((y.read .l (x.after .l s.start) : Word) + 1)
  refine .of_dest2 (t' := .l) ho hd ((y.read .l (x.after .l s.start) : Word) + 1) hw' ?_
  unfold aobNext
  simp only
  split_ifs
  · exact (hs.setNZV _ _ _).setPc _
  · exact hs.setNZV _ _ _

theorem effect_cmp (ho : i.operands = [⟨.r, t, x⟩, ⟨.r, t, y⟩]) (hd : i.destination = none)
    (h : cmp t x y s = .ok u) : Effect i s u := by
  obtain ⟨-, rfl⟩ := cmp_ok.1 h
  refine .none hd ?_
  rw [Instr.operandsDone, ho]
  exact (SameButPc.refl _).setNZVC _

theorem effect_tst (ho : i.operands = [⟨.r, t, x⟩]) (hd : i.destination = none)
    (h : tst t x s = .ok u) : Effect i s u := by
  obtain ⟨-, rfl⟩ := tst_ok.1 h
  refine .none hd ?_
  rw [Instr.operandsDone, ho]
  exact (SameButPc.refl _).setNZVC _

theorem effect_jump (ho : i.operands = [⟨.a, .b, x⟩]) (hd : i.destination = none)
    (h : jump x s = .ok u) : Effect i s u := by
  obtain ⟨-, a, -, rfl⟩ := jump_ok.1 h
  refine .none hd ?_
  rw [Instr.operandsDone, ho]
  exact (SameButPc.refl _).setPc _

theorem effect_branchIf {c : State → Except Stop Bool} {d : Byte} (ho : i.operands = []) (hd : i.destination = none)
    (h : branchIf c d s = .ok u) : Effect i s u := by
  obtain ⟨-, taken, -, rfl⟩ := branchIf_ok.1 h
  refine .none hd ?_
  rw [Instr.operandsDone, ho, operandsAfter, State.start, ← advance_advance s 1 1]
  split_ifs
  · exact ((SameButPc.refl _).setPc _).setPc _
  · exact (SameButPc.refl _).setPc _

theorem effect_branch {w n : Nat} {d : BitVec w} (ho : i.operands = []) (hd : i.destination = none)
    (h : branch n d s = .ok u) : Effect i s u := by
  obtain ⟨-, rfl⟩ := branch_ok.1 h
  refine .none hd ?_
  rw [Instr.operandsDone, ho, operandsAfter, State.start, ← advance_advance s 1 n]
  exact ((SameButPc.refl _).setPc _).setPc _

theorem effect_push (ho : i.operands = [⟨.r, .l, x⟩]) (hd : i.destination = none) (hi : i.opcode? = some .pushl)
    (h : push x s = .ok u) : Effect i s u := by
  obtain ⟨-, w, hp, rfl⟩ := push_ok.1 h
  refine .stack w (x.read .l s.start) hd (.inl hi) ?_ ((SameButPc.refl _).setNZV _ _ _)
  rw [Instr.operandsDone, ho]
  exact hp

theorem effect_jumpSub (ho : i.operands = [⟨.a, .b, x⟩]) (hd : i.destination = none) (hi : i.opcode? = some .jsb)
    (h : jumpSub x s = .ok u) : Effect i s u := by
  obtain ⟨-, a, -, w, hp, rfl⟩ := jumpSub_ok.1 h
  refine .stack w (x.after .b s.start).pc hd (.inr hi) ?_ ((SameButPc.refl _).setPc _)
  rw [Instr.operandsDone, ho]
  exact hp

theorem effect_unmodelled {op : Opcode} (h : unmodelled op s = .ok u) : Effect i s u :=
  (unmodelled_ok.1 h).elim

theorem effect_alone {p : Access} (ho : i.operands = [⟨p, t, x⟩]) (hi : i.opcode? = none)
    (h : operandAlone p t x s = .ok u) : Effect i s u := by
  obtain ⟨-, rfl⟩ := operandAlone_ok.1 h
  refine .alone hi ?_
  rw [ho]
  rfl

end

/-! ## Every instruction -/

/-- What an executed instruction can do to registers and memory. -/
theorem exec_effect {i : Instr} {s u : State} (h : exec i s = .next u) : Effect i s u := by
  cases i with
  | movb _ _ => exact effect_mov rfl rfl (outcome_next.1 h)
  | movw _ _ => exact effect_mov rfl rfl (outcome_next.1 h)
  | movl _ _ => exact effect_mov rfl rfl (outcome_next.1 h)
  | movq _ _ => exact effect_mov rfl rfl (outcome_next.1 h)
  | movzbw _ _ => exact effect_movzb rfl rfl (outcome_next.1 h)
  | movzbl _ _ => exact effect_movzb rfl rfl (outcome_next.1 h)
  | movab _ _ => exact effect_mova rfl rfl (outcome_next.1 h)
  | movaw _ _ => exact effect_mova rfl rfl (outcome_next.1 h)
  | moval _ _ => exact effect_mova rfl rfl (outcome_next.1 h)
  | movaq _ _ => exact effect_mova rfl rfl (outcome_next.1 h)
  | pushl _ => exact effect_push rfl rfl rfl (outcome_next.1 h)
  | addb2 _ _ => exact effect_add2 rfl rfl (outcome_next.1 h)
  | addb3 _ _ _ => exact effect_add3 rfl rfl (outcome_next.1 h)
  | addw2 _ _ => exact effect_add2 rfl rfl (outcome_next.1 h)
  | addw3 _ _ _ => exact effect_add3 rfl rfl (outcome_next.1 h)
  | addl2 _ _ => exact effect_add2 rfl rfl (outcome_next.1 h)
  | addl3 _ _ _ => exact effect_add3 rfl rfl (outcome_next.1 h)
  | subb2 _ _ => exact effect_sub2 rfl rfl (outcome_next.1 h)
  | subb3 _ _ _ => exact effect_sub3 rfl rfl (outcome_next.1 h)
  | subw2 _ _ => exact effect_sub2 rfl rfl (outcome_next.1 h)
  | subw3 _ _ _ => exact effect_sub3 rfl rfl (outcome_next.1 h)
  | subl2 _ _ => exact effect_sub2 rfl rfl (outcome_next.1 h)
  | subl3 _ _ _ => exact effect_sub3 rfl rfl (outcome_next.1 h)
  | cmpb _ _ => exact effect_cmp rfl rfl (outcome_next.1 h)
  | cmpw _ _ => exact effect_cmp rfl rfl (outcome_next.1 h)
  | cmpl _ _ => exact effect_cmp rfl rfl (outcome_next.1 h)
  | tstb _ => exact effect_tst rfl rfl (outcome_next.1 h)
  | tstw _ => exact effect_tst rfl rfl (outcome_next.1 h)
  | tstl _ => exact effect_tst rfl rfl (outcome_next.1 h)
  | ashl _ _ _ => exact effect_ash rfl rfl (outcome_next.1 h)
  | ashq _ _ _ => exact effect_ash rfl rfl (outcome_next.1 h)
  | clrb _ => exact effect_clr rfl rfl (outcome_next.1 h)
  | clrw _ => exact effect_clr rfl rfl (outcome_next.1 h)
  | clrl _ => exact effect_clr rfl rfl (outcome_next.1 h)
  | clrq _ => exact effect_clr rfl rfl (outcome_next.1 h)
  | cvtbw _ _ => exact effect_cvtb rfl rfl (outcome_next.1 h)
  | cvtbl _ _ => exact effect_cvtb rfl rfl (outcome_next.1 h)
  | beql _ => exact effect_branchIf rfl rfl (outcome_next.1 h)
  | bneq _ => exact effect_branchIf rfl rfl (outcome_next.1 h)
  | bleq _ => exact effect_branchIf rfl rfl (outcome_next.1 h)
  | bgeq _ => exact effect_branchIf rfl rfl (outcome_next.1 h)
  | brb _ => exact effect_branch rfl rfl (outcome_next.1 h)
  | brw _ => exact effect_branch rfl rfl (outcome_next.1 h)
  | jmp _ => exact effect_jump rfl rfl (outcome_next.1 h)
  | aobleq _ _ _ => exact effect_aobleq rfl rfl (outcome_next.1 h)
  | jsb _ => exact effect_jumpSub rfl rfl rfl (outcome_next.1 h)
  | caseb => exact effect_unmodelled (outcome_next.1 h)
  | casew => exact effect_unmodelled (outcome_next.1 h)
  | casel => exact effect_unmodelled (outcome_next.1 h)
  | calls => exact effect_unmodelled (outcome_next.1 h)
  | callg => exact effect_unmodelled (outcome_next.1 h)
  | ret => exact effect_unmodelled (outcome_next.1 h)
  | addf2 => exact effect_unmodelled (outcome_next.1 h)
  | addf3 => exact effect_unmodelled (outcome_next.1 h)
  | addd2 => exact effect_unmodelled (outcome_next.1 h)
  | addd3 => exact effect_unmodelled (outcome_next.1 h)
  | subd2 => exact effect_unmodelled (outcome_next.1 h)
  | subd3 => exact effect_unmodelled (outcome_next.1 h)
  | mulf2 => exact effect_unmodelled (outcome_next.1 h)
  | mulf3 => exact effect_unmodelled (outcome_next.1 h)
  | polyf => exact effect_unmodelled (outcome_next.1 h)
  | crc => exact effect_unmodelled (outcome_next.1 h)
  | insque => exact effect_unmodelled (outcome_next.1 h)
  | specLiteral _ _ _ => exact effect_alone rfl rfl (outcome_next.1 h)
  | specIndex _ _ _ _ => exact effect_alone rfl rfl (outcome_next.1 h)
  | specRegister _ _ _ => exact effect_alone rfl rfl (outcome_next.1 h)
  | specRegisterDeferred _ _ _ => exact effect_alone rfl rfl (outcome_next.1 h)
  | specAutodecrement _ _ _ => exact effect_alone rfl rfl (outcome_next.1 h)
  | specAutoincrement _ _ _ => exact effect_alone rfl rfl (outcome_next.1 h)
  | specImmediate _ _ _ => exact effect_alone rfl rfl (outcome_next.1 h)
  | specAutoincrementDeferred _ _ _ => exact effect_alone rfl rfl (outcome_next.1 h)
  | specAbsolute _ _ _ => exact effect_alone rfl rfl (outcome_next.1 h)
  | specByteDisplacement _ _ _ _ => exact effect_alone rfl rfl (outcome_next.1 h)
  | specByteRelative _ _ _ => exact effect_alone rfl rfl (outcome_next.1 h)
  | specByteDisplacementDeferred _ _ _ _ => exact effect_alone rfl rfl (outcome_next.1 h)
  | specByteRelativeDeferred _ _ _ => exact effect_alone rfl rfl (outcome_next.1 h)
  | specWordDisplacement _ _ _ _ => exact effect_alone rfl rfl (outcome_next.1 h)
  | specWordRelative _ _ _ => exact effect_alone rfl rfl (outcome_next.1 h)
  | specWordDisplacementDeferred _ _ _ _ => exact effect_alone rfl rfl (outcome_next.1 h)
  | specWordRelativeDeferred _ _ _ => exact effect_alone rfl rfl (outcome_next.1 h)
  | specLongwordDisplacement _ _ _ _ => exact effect_alone rfl rfl (outcome_next.1 h)
  | specLongwordRelative _ _ _ => exact effect_alone rfl rfl (outcome_next.1 h)
  | specLongwordDisplacementDeferred _ _ _ _ => exact effect_alone rfl rfl (outcome_next.1 h)
  | specLongwordRelativeDeferred _ _ _ => exact effect_alone rfl rfl (outcome_next.1 h)

end Sys2Proof.Machine
end

