-- ==== Sys2Proof/Laws/Step.lean ====
section
/-! SUPPORT. What a step can do: it stays at the end of the run, or it executes a decoded instruction. -/

namespace Sys2Proof.Machine

open Sys2Proof

theorem refuseOpcode_ok {op : Byte} {second : Option Byte} {s t : State} :
    refuseOpcode op second s = .ok t ↔ False := by
  unfold refuseOpcode
  cases second <;> simp [bind_ok]

/-- A step that answers a next state has found the end of the run, or has executed an instruction. -/
theorem step_next {s t : State} (h : step s = .next t) :
    t = s ∨ s.pc ≠ s.params.endPC ∧ ∃ i, decode s.params.opcodeMap s.window = .instr i ∧ exec i s = .next t := by
  unfold step at h
  split_ifs at h with hp
  · cases h
    exact .inl rfl
  · refine .inr ⟨hp, ?_⟩
    split at h
    · rename_i i hi
      exact ⟨i, hi, h⟩
    · exact (refuseOpcode_ok.1 (outcome_next.1 h)).elim
    · exact (refuseOpcode_ok.1 (outcome_next.1 h)).elim

/-- The decoder gives the instruction of an opcode that opcode. -/
theorem decodeBody_opcode (op : Opcode) (bs : List Byte) : (decodeBody op bs).1.opcode? = some op := by
  cases op <;> rfl

/-- A decoded instruction has an opcode, and the map lists it: the machine never meets a specifier by itself. -/
theorem decode_opcode {m : OpcodeMap} {bs : List Byte} {i : Instr} (h : decode m bs = .instr i) :
    ∃ op, m.lookup (takeByte bs).1 = some op ∧ i.opcode? = some op := by
  unfold decode at h
  simp only at h
  split_ifs at h
  split at h
  · rename_i op ho
    cases h
    exact ⟨op, ho, decodeBody_opcode op _⟩
  · cases h

end Sys2Proof.Machine
end

