-- ==== Sys2Proof/Laws/Frame.lean ====
section
/-! SUPPORT. What a store at a location and a push do to memory, and that both keep its canonical form. -/

namespace Sys2Proof.Machine

open Sys2Proof

theorem Loc.store_mem_eq {t : DType} (x : Loc t) (s : State) (v : BitVec t.bits) :
    (x.store s v).mem = match x.address? with
      | some a => storeBytes s.mem a t.size v.toNat
      | none => s.mem := by
  cases x with
  | lit _ => rfl
  | reg n => exact Loc.store_mem_of_reg s v
  | mem a => rfl

/-- A byte outside the location's bytes reads as before a store. -/
theorem Loc.store_byteAt {t : DType} (x : Loc t) (s : State) (v : BitVec t.bits) (hc : s.mem.wf = true) (a : Word)
    (h : ∀ p, x.address? = some p → ¬ Among a p t.size) : (x.store s v).byteAt a = s.byteAt a := by
  unfold State.byteAt
  rw [Loc.store_mem_eq]
  split
  · rename_i p hp
    exact read_storeBytes_outside _ _ _ _ _ hc fun k hk e => h p hp ⟨k, hk, e⟩
  · rfl

theorem Loc.store_wf {t : DType} (x : Loc t) (s : State) (v : BitVec t.bits) (hc : s.mem.wf = true) :
    (x.store s v).mem.wf = true := by
  rw [Loc.store_mem_eq]
  split
  · exact wf_storeBytes _ _ _ _ hc
  · exact hc

/-- Bytes that may be written are writable and not code. -/
theorem not_among_of_writable {s : State} {a p : Word} {n : Nat} (hw : s.WritableFrom p n)
    (h : s.isWritable a = false ∨ s.isCode a = true) : ¬ Among a p n := by
  rintro ⟨k, hk, rfl⟩
  have := hw k hk
  rcases h with h | h <;> simp [this] at h

@[simp] theorem operandsDone_mem (s : State) (i : Instr) : (i.operandsDone s).mem = s.mem := by
  rw [Instr.operandsDone, operandsAfter_mem]; rfl

@[simp] theorem operandsDone_params (s : State) (i : Instr) : (i.operandsDone s).params = s.params := by
  rw [Instr.operandsDone, operandsAfter_params]; rfl

@[simp] theorem operandsDone_iv (s : State) (i : Instr) : (i.operandsDone s).iv = s.iv := by
  rw [Instr.operandsDone, operandsAfter_iv]; rfl

theorem operandsDone_reg {s : State} {i : Instr} {r : Reg} (hp : r ≠ pcReg)
    (h : ∀ o ∈ i.operands, o.spec.steps ≠ some r) : (i.operandsDone s).reg r = s.reg r := by
  rw [Instr.operandsDone, operandsAfter_reg _ _ hp h]
  exact advance_reg hp

theorem operandsDone_isWritten {s : State} {i : Instr} {r : Reg}
    (h : ∀ o ∈ i.operands, o.spec.steps ≠ some r) : (i.operandsDone s).isWritten r = s.isWritten r := by
  rw [Instr.operandsDone, operandsAfter_isWritten _ _ h]; rfl

theorem operandsDone_isWritten_of {s : State} {i : Instr} {r : Reg} (h : s.isWritten r = true) :
    (i.operandsDone s).isWritten r = true := operandsAfter_isWritten_of _ _ _ h

end Sys2Proof.Machine
end

