-- ==== Sys2Proof/Laws/PerInstr.lean ====
section
/-! SUPPORT. A fact of every instruction, one lemma for each constructor: no encoding is longer than the decoder's window. -/

namespace Sys2Proof.Laws

open Sys2Proof

theorem leBytes_length_eq (n v : Nat) : (leBytes n v).length = n := by
  induction n generalizing v with
  | zero => rfl
  | succ n ih => simp [leBytes, ih]

theorem encodeMem_length_le (m : MemSpec) : (encodeMem m).length ≤ 5 := by
  cases m <;> simp [encodeMem, leBytes_length_eq]

/-- The most bytes a specifier of a data type takes: an index byte and a base of 5, or its byte and an immediate. -/
def specLengthMax (t : DType) : Nat := max 6 (1 + t.size)

theorem encodeSpec_length_le (t : DType) (x : Spec) : (encodeSpec t x).length ≤ specLengthMax t := by
  unfold specLengthMax
  cases x with
  | literal lit => simp [encodeSpec]
  | index rx base =>
    cases base with
    | mem m =>
      have := encodeMem_length_le m
      simp [encodeSpec, encodeIndexBase]
      omega
    | forbidden b => simp [encodeSpec, encodeIndexBase]
  | register n => simp [encodeSpec]
  | immediate v => simp [encodeSpec, leBytes_length_eq]
  | mem m =>
    have := encodeMem_length_le m
    simp only [encodeSpec]
    omega

/-- The most bytes a list of operands takes. -/
def operandsLengthMax (l : List Operand) : Nat := (l.map fun o => specLengthMax o.dt).sum

theorem operands_length_le (l : List Operand) :
    (l.flatMap fun o => encodeSpec o.dt o.spec).length ≤ operandsLengthMax l := by
  induction l with
  | nil => simp
  | cons o l ih =>
    have := encodeSpec_length_le o.dt o.spec
    simp only [operandsLengthMax, List.flatMap_cons, List.length_append, List.map_cons, List.sum_cons] at *
    omega

/-- The encoding of an instruction fits the bytes the machine gives its decoder. -/
def EncodeLength.Statement (i : Instr) : Prop := (encode i).length ≤ fetchWindow

/-- An instruction's encoding fits when the most its parts can take does. -/
theorem encode_fits {i : Instr}
    (h : (i.opcode?.map Opcode.byte).toList.length + operandsLengthMax i.operands + (encodeBranch i).length ≤ 32) :
    EncodeLength.Statement i := by
  have := operands_length_le i.operands
  simp only [EncodeLength.Statement, encode, List.length_append, fetchWindow]
  omega

/-- An operand specifier by itself fits: the longest immediate has 16 bytes. -/
theorem specLengthMax_le (t : DType) : 0 + (specLengthMax t + 0) + 0 ≤ 32 := by cases t <;> decide

theorem EncodeLength.movb src dst : EncodeLength.Statement (.movb src dst) := encode_fits (Nat.le_of_ble_eq_true rfl)

theorem EncodeLength.movw src dst : EncodeLength.Statement (.movw src dst) := encode_fits (Nat.le_of_ble_eq_true rfl)

theorem EncodeLength.movl src dst : EncodeLength.Statement (.movl src dst) := encode_fits (Nat.le_of_ble_eq_true rfl)

theorem EncodeLength.movq src dst : EncodeLength.Statement (.movq src dst) := encode_fits (Nat.le_of_ble_eq_true rfl)

theorem EncodeLength.movzbw src dst : EncodeLength.Statement (.movzbw src dst) := encode_fits (Nat.le_of_ble_eq_true rfl)

theorem EncodeLength.movzbl src dst : EncodeLength.Statement (.movzbl src dst) := encode_fits (Nat.le_of_ble_eq_true rfl)

theorem EncodeLength.movab src dst : EncodeLength.Statement (.movab src dst) := encode_fits (Nat.le_of_ble_eq_true rfl)

theorem EncodeLength.movaw src dst : EncodeLength.Statement (.movaw src dst) := encode_fits (Nat.le_of_ble_eq_true rfl)

theorem EncodeLength.moval src dst : EncodeLength.Statement (.moval src dst) := encode_fits (Nat.le_of_ble_eq_true rfl)

theorem EncodeLength.movaq src dst : EncodeLength.Statement (.movaq src dst) := encode_fits (Nat.le_of_ble_eq_true rfl)

theorem EncodeLength.pushl src : EncodeLength.Statement (.pushl src) := encode_fits (Nat.le_of_ble_eq_true rfl)

theorem EncodeLength.addb2 add sum : EncodeLength.Statement (.addb2 add sum) := encode_fits (Nat.le_of_ble_eq_true rfl)

theorem EncodeLength.addb3 add1 add2 sum : EncodeLength.Statement (.addb3 add1 add2 sum) := encode_fits (Nat.le_of_ble_eq_true rfl)

theorem EncodeLength.addw2 add sum : EncodeLength.Statement (.addw2 add sum) := encode_fits (Nat.le_of_ble_eq_true rfl)

theorem EncodeLength.addw3 add1 add2 sum : EncodeLength.Statement (.addw3 add1 add2 sum) := encode_fits (Nat.le_of_ble_eq_true rfl)

theorem EncodeLength.addl2 add sum : EncodeLength.Statement (.addl2 add sum) := encode_fits (Nat.le_of_ble_eq_true rfl)

theorem EncodeLength.addl3 add1 add2 sum : EncodeLength.Statement (.addl3 add1 add2 sum) := encode_fits (Nat.le_of_ble_eq_true rfl)

theorem EncodeLength.subb2 sub dif : EncodeLength.Statement (.subb2 sub dif) := encode_fits (Nat.le_of_ble_eq_true rfl)

theorem EncodeLength.subb3 sub min dif : EncodeLength.Statement (.subb3 sub min dif) := encode_fits (Nat.le_of_ble_eq_true rfl)

theorem EncodeLength.subw2 sub dif : EncodeLength.Statement (.subw2 sub dif) := encode_fits (Nat.le_of_ble_eq_true rfl)

theorem EncodeLength.subw3 sub min dif : EncodeLength.Statement (.subw3 sub min dif) := encode_fits (Nat.le_of_ble_eq_true rfl)

theorem EncodeLength.subl2 sub dif : EncodeLength.Statement (.subl2 sub dif) := encode_fits (Nat.le_of_ble_eq_true rfl)

theorem EncodeLength.subl3 sub min dif : EncodeLength.Statement (.subl3 sub min dif) := encode_fits (Nat.le_of_ble_eq_true rfl)

theorem EncodeLength.cmpb src1 src2 : EncodeLength.Statement (.cmpb src1 src2) := encode_fits (Nat.le_of_ble_eq_true rfl)

theorem EncodeLength.cmpw src1 src2 : EncodeLength.Statement (.cmpw src1 src2) := encode_fits (Nat.le_of_ble_eq_true rfl)

theorem EncodeLength.cmpl src1 src2 : EncodeLength.Statement (.cmpl src1 src2) := encode_fits (Nat.le_of_ble_eq_true rfl)

theorem EncodeLength.tstb src : EncodeLength.Statement (.tstb src) := encode_fits (Nat.le_of_ble_eq_true rfl)

theorem EncodeLength.tstw src : EncodeLength.Statement (.tstw src) := encode_fits (Nat.le_of_ble_eq_true rfl)

theorem EncodeLength.tstl src : EncodeLength.Statement (.tstl src) := encode_fits (Nat.le_of_ble_eq_true rfl)

theorem EncodeLength.ashl cnt src dst : EncodeLength.Statement (.ashl cnt src dst) := encode_fits (Nat.le_of_ble_eq_true rfl)

theorem EncodeLength.ashq cnt src dst : EncodeLength.Statement (.ashq cnt src dst) := encode_fits (Nat.le_of_ble_eq_true rfl)

theorem EncodeLength.clrb dst : EncodeLength.Statement (.clrb dst) := encode_fits (Nat.le_of_ble_eq_true rfl)

theorem EncodeLength.clrw dst : EncodeLength.Statement (.clrw dst) := encode_fits (Nat.le_of_ble_eq_true rfl)

theorem EncodeLength.clrl dst : EncodeLength.Statement (.clrl dst) := encode_fits (Nat.le_of_ble_eq_true rfl)

theorem EncodeLength.clrq dst : EncodeLength.Statement (.clrq dst) := encode_fits (Nat.le_of_ble_eq_true rfl)

theorem EncodeLength.cvtbw src dst : EncodeLength.Statement (.cvtbw src dst) := encode_fits (Nat.le_of_ble_eq_true rfl)

theorem EncodeLength.cvtbl src dst : EncodeLength.Statement (.cvtbl src dst) := encode_fits (Nat.le_of_ble_eq_true rfl)

theorem EncodeLength.beql displ : EncodeLength.Statement (.beql displ) := encode_fits (Nat.le_of_ble_eq_true rfl)

theorem EncodeLength.bneq displ : EncodeLength.Statement (.bneq displ) := encode_fits (Nat.le_of_ble_eq_true rfl)

theorem EncodeLength.bleq displ : EncodeLength.Statement (.bleq displ) := encode_fits (Nat.le_of_ble_eq_true rfl)

theorem EncodeLength.bgeq displ : EncodeLength.Statement (.bgeq displ) := encode_fits (Nat.le_of_ble_eq_true rfl)

theorem EncodeLength.brb displ : EncodeLength.Statement (.brb displ) := encode_fits (Nat.le_of_ble_eq_true rfl)

theorem EncodeLength.brw displ : EncodeLength.Statement (.brw displ) := encode_fits (Nat.le_of_ble_eq_true rfl)

theorem EncodeLength.jmp dst : EncodeLength.Statement (.jmp dst) := encode_fits (Nat.le_of_ble_eq_true rfl)

theorem EncodeLength.aobleq limit index displ : EncodeLength.Statement (.aobleq limit index displ) := encode_fits (Nat.le_of_ble_eq_true rfl)

theorem EncodeLength.jsb dst : EncodeLength.Statement (.jsb dst) := encode_fits (Nat.le_of_ble_eq_true rfl)

theorem EncodeLength.caseb : EncodeLength.Statement .caseb := encode_fits (Nat.le_of_ble_eq_true rfl)

theorem EncodeLength.casew : EncodeLength.Statement .casew := encode_fits (Nat.le_of_ble_eq_true rfl)

theorem EncodeLength.casel : EncodeLength.Statement .casel := encode_fits (Nat.le_of_ble_eq_true rfl)

theorem EncodeLength.calls : EncodeLength.Statement .calls := encode_fits (Nat.le_of_ble_eq_true rfl)

theorem EncodeLength.callg : EncodeLength.Statement .callg := encode_fits (Nat.le_of_ble_eq_true rfl)

theorem EncodeLength.ret : EncodeLength.Statement .ret := encode_fits (Nat.le_of_ble_eq_true rfl)

theorem EncodeLength.addf2 : EncodeLength.Statement .addf2 := encode_fits (Nat.le_of_ble_eq_true rfl)

theorem EncodeLength.addf3 : EncodeLength.Statement .addf3 := encode_fits (Nat.le_of_ble_eq_true rfl)

theorem EncodeLength.addd2 : EncodeLength.Statement .addd2 := encode_fits (Nat.le_of_ble_eq_true rfl)

theorem EncodeLength.addd3 : EncodeLength.Statement .addd3 := encode_fits (Nat.le_of_ble_eq_true rfl)

theorem EncodeLength.subd2 : EncodeLength.Statement .subd2 := encode_fits (Nat.le_of_ble_eq_true rfl)

theorem EncodeLength.subd3 : EncodeLength.Statement .subd3 := encode_fits (Nat.le_of_ble_eq_true rfl)

theorem EncodeLength.mulf2 : EncodeLength.Statement .mulf2 := encode_fits (Nat.le_of_ble_eq_true rfl)

theorem EncodeLength.mulf3 : EncodeLength.Statement .mulf3 := encode_fits (Nat.le_of_ble_eq_true rfl)

theorem EncodeLength.polyf : EncodeLength.Statement .polyf := encode_fits (Nat.le_of_ble_eq_true rfl)

theorem EncodeLength.crc : EncodeLength.Statement .crc := encode_fits (Nat.le_of_ble_eq_true rfl)

theorem EncodeLength.insque : EncodeLength.Statement .insque := encode_fits (Nat.le_of_ble_eq_true rfl)

theorem EncodeLength.specLiteral acc dt lit : EncodeLength.Statement (.specLiteral acc dt lit) := encode_fits (specLengthMax_le _)

theorem EncodeLength.specIndex acc dt rx base : EncodeLength.Statement (.specIndex acc dt rx base) := encode_fits (specLengthMax_le _)

theorem EncodeLength.specRegister acc dt n : EncodeLength.Statement (.specRegister acc dt n) := encode_fits (specLengthMax_le _)

theorem EncodeLength.specRegisterDeferred acc dt n : EncodeLength.Statement (.specRegisterDeferred acc dt n) := encode_fits (specLengthMax_le _)

theorem EncodeLength.specAutodecrement acc dt n : EncodeLength.Statement (.specAutodecrement acc dt n) := encode_fits (specLengthMax_le _)

theorem EncodeLength.specAutoincrement acc dt n : EncodeLength.Statement (.specAutoincrement acc dt n) := encode_fits (specLengthMax_le _)

theorem EncodeLength.specImmediate acc dt v : EncodeLength.Statement (.specImmediate acc dt v) := encode_fits (specLengthMax_le _)

theorem EncodeLength.specAutoincrementDeferred acc dt n : EncodeLength.Statement (.specAutoincrementDeferred acc dt n) := encode_fits (specLengthMax_le _)

theorem EncodeLength.specAbsolute acc dt addr : EncodeLength.Statement (.specAbsolute acc dt addr) := encode_fits (specLengthMax_le _)

theorem EncodeLength.specByteDisplacement acc dt n disp : EncodeLength.Statement (.specByteDisplacement acc dt n disp) := encode_fits (specLengthMax_le _)

theorem EncodeLength.specByteRelative acc dt disp : EncodeLength.Statement (.specByteRelative acc dt disp) := encode_fits (specLengthMax_le _)

theorem EncodeLength.specByteDisplacementDeferred acc dt n disp : EncodeLength.Statement (.specByteDisplacementDeferred acc dt n disp) := encode_fits (specLengthMax_le _)

theorem EncodeLength.specByteRelativeDeferred acc dt disp : EncodeLength.Statement (.specByteRelativeDeferred acc dt disp) := encode_fits (specLengthMax_le _)

theorem EncodeLength.specWordDisplacement acc dt n disp : EncodeLength.Statement (.specWordDisplacement acc dt n disp) := encode_fits (specLengthMax_le _)

theorem EncodeLength.specWordRelative acc dt disp : EncodeLength.Statement (.specWordRelative acc dt disp) := encode_fits (specLengthMax_le _)

theorem EncodeLength.specWordDisplacementDeferred acc dt n disp : EncodeLength.Statement (.specWordDisplacementDeferred acc dt n disp) := encode_fits (specLengthMax_le _)

theorem EncodeLength.specWordRelativeDeferred acc dt disp : EncodeLength.Statement (.specWordRelativeDeferred acc dt disp) := encode_fits (specLengthMax_le _)

theorem EncodeLength.specLongwordDisplacement acc dt n disp : EncodeLength.Statement (.specLongwordDisplacement acc dt n disp) := encode_fits (specLengthMax_le _)

theorem EncodeLength.specLongwordRelative acc dt disp : EncodeLength.Statement (.specLongwordRelative acc dt disp) := encode_fits (specLengthMax_le _)

theorem EncodeLength.specLongwordDisplacementDeferred acc dt n disp : EncodeLength.Statement (.specLongwordDisplacementDeferred acc dt n disp) := encode_fits (specLengthMax_le _)

theorem EncodeLength.specLongwordRelativeDeferred acc dt disp : EncodeLength.Statement (.specLongwordRelativeDeferred acc dt disp) := encode_fits (specLengthMax_le _)

end Sys2Proof.Laws
end

