-- ==== Sys2Proof/Laws/Stops.lean ====
section
/-! SUPPORT. How the shared operations stop, said once: which fault or refusal a read, a write, a mode or a register operand
raises (R34, R42, R43), and that an instruction whose result cannot be stored stops as its store does. -/

namespace Sys2Proof.Machine

open Sys2Proof

theorem bind_error {α β : Type} {x : Except Stop α} {f : α → Except Stop β} {e : Stop} (h : x = .error e) :
    (x >>= f) = .error e := by
  rw [h]
  rfl

/-! ## Registers and memory -/

theorem readReg_error {n : Reg} {s : State} (h : s.isWritten n = false) :
    readReg n s = .error (.fault (.unwrittenRead (.reg n))) := by
  unfold readReg
  simp [h, raiseFault]

/-- The address after the first byte's, as the recursive checks take it. -/
theorem addr_succ (a : Word) (k : Nat) : a + BitVec.ofNat 32 (k + 1) = a + 1 + BitVec.ofNat 32 k := by
  rw [BitVec.add_assoc, BitVec.ofNat_add, BitVec.add_comm (BitVec.ofNat 32 k)]
  rfl

/-- The lowest byte that may not be read is the one reported (R42). -/
theorem checkRead_error {s : State} {a : Word} {n k : Nat} (hk : k < n) (hr : s.ReadableFrom a k)
    (hb : s.isReadable (a + BitVec.ofNat 32 k) = false) :
    checkRead s a n = .error (.fault (.accessViolation (a + BitVec.ofNat 32 k) .read)) := by
  induction n generalizing a k with
  | zero => omega
  | succ n ih =>
    rw [checkRead]
    cases k with
    | zero =>
      simp only [BitVec.add_zero] at hb
      simp [hb, raiseFault]
    | succ k =>
      rw [if_pos (by simpa using hr 0 (by omega)), addr_succ]
      rw [addr_succ] at hb
      exact ih (by omega) (fun j hj => by rw [← addr_succ]; exact hr (j + 1) (by omega)) hb

theorem memRead_error {s : State} {a : Word} {n k : Nat} (hk : k < n) (hr : s.ReadableFrom a k)
    (hb : s.isReadable (a + BitVec.ofNat 32 k) = false) :
    memRead a n s = .error (.fault (.accessViolation (a + BitVec.ofNat 32 k) .read)) := by
  unfold memRead
  rw [checkRead_error hk hr hb]

/-- Why the byte at an address may not be written, if it may not (R43). -/
def writeStop (s : State) (a : Word) : Option Stop :=
  if s.isWritable a then if s.isCode a then some (.refuse (.storeIntoCode a)) else none
  else some (.fault (.accessViolation a .write))

/-- The lowest byte that may not be written is the one reported (R43). -/
theorem checkWrite_error {s : State} {a : Word} {n k : Nat} {e : Stop} (hk : k < n) (hr : s.WritableFrom a k)
    (he : writeStop s (a + BitVec.ofNat 32 k) = some e) : checkWrite s a n = .error e := by
  induction n generalizing a k with
  | zero => omega
  | succ n ih =>
    rw [checkWrite]
    cases k with
    | zero =>
      simp only [BitVec.add_zero, writeStop] at he
      revert he
      split_ifs <;> simp [raiseFault, raiseRefuse]
    | succ k =>
      have h0 := hr 0 (by omega)
      simp only [BitVec.add_zero] at h0
      rw [if_pos h0.1, h0.2]
      rw [addr_succ] at he
      exact ih (by omega) (fun j hj => by rw [← addr_succ]; exact hr (j + 1) (by omega)) he

theorem memWrite_error {s : State} {a : Word} {n k : Nat} {e : Stop} (hk : k < n) (hr : s.WritableFrom a k)
    (he : writeStop s (a + BitVec.ofNat 32 k) = some e) (v : BitVec (8 * n)) : memWrite a n v s = .error e := by
  unfold memWrite
  rw [checkWrite_error hk hr he]

/-- A push onto bytes that may not be written stops as the write does. -/
theorem pushLongword_error {s : State} {k : Nat} {e : Stop} (hsp : s.isWritten spReg = true) (hk : k < 4)
    (hr : s.WritableFrom (s.reg spReg - 4) k) (he : writeStop s (s.reg spReg - 4 + BitVec.ofNat 32 k) = some e)
    (v : Word) : pushLongword v s = .error e := by
  unfold pushLongword
  rw [readReg_ok.2 ⟨hsp, rfl⟩]
  exact memWrite_error (s := s.setReg spReg (s.reg spReg - 4)) hk hr he v

/-- A push with a stack pointer that holds no value (R34). -/
theorem pushLongword_unwritten {s : State} (h : s.isWritten spReg = false) (v : Word) :
    pushLongword v s = .error (.fault (.unwrittenRead (.reg spReg))) := by
  unfold pushLongword
  rw [readReg_error h]

/-! ## Modes and register operands (R34) -/

theorem displaced_unwritten {w bytes : Nat} {n : Gpr} {disp : BitVec w} {c : Ctx} (hf : c.st.Fetchable bytes)
    (h : c.st.isWritten n.reg = false) : displaced bytes n disp c = .error (.fault (.unwrittenRead (.reg n.reg))) :=
  (bind_of_ok (Ctx.fetch_ok.2 ⟨hf, rfl⟩)).trans (bind_error (readReg_error h))

/-- A mode whose register holds no value stops there, its displacement fetched. -/
theorem address_unwritten {d : Nat} {m : MemSpec} {n : Reg} {c : Ctx} (hm : m.reads = some n) (hn : n ≠ pcReg)
    (hf : c.st.Fetchable m.ext) (h : c.st.isWritten n = false) :
    address d m c = .error (.fault (.unwrittenRead (.reg n))) := by
  cases m <;> simp only [MemSpec.reads, Option.some.injEq, reduceCtorEq] at hm <;> subst hm <;> unfold address <;>
    simp only [if_neg hn]
  case registerDeferred => exact bind_error (readReg_error h)
  case autodecrement => exact bind_error (readReg_error h)
  case autoincrement => exact bind_error (readReg_error h)
  case autoincrementDeferred => exact bind_error (readReg_error h)
  case byteDisplacement => exact displaced_unwritten hf h
  case wordDisplacement => exact displaced_unwritten hf h
  case longwordDisplacement => exact displaced_unwritten hf h
  case byteDisplacementDeferred => exact bind_error (displaced_unwritten hf h)
  case wordDisplacementDeferred => exact bind_error (displaced_unwritten hf h)
  case longwordDisplacementDeferred => exact bind_error (displaced_unwritten hf h)

/-- The lowest register of an operand that holds no value is the one reported (log 10). -/
theorem readRegOperand_unwritten {t : DType} {n k : Reg} {s : State} (hn : n.val + (operandRegs t n).length ≤ 15)
    (hk : k ∈ operandRegs t n) (h : s.isWritten k = false)
    (hl : ∀ j ∈ operandRegs t n, j < k → s.isWritten j = true) :
    readRegOperand t n s = .error (.fault (.unwrittenRead (.reg k))) := by
  have lt : ∀ i j : Nat, i < j → n.val + j ≤ 15 → n + Fin.ofNat 16 i < n + Fin.ofNat 16 j := fun i j hij hj => by
    rw [Fin.lt_def]
    simp only [Fin.val_add, Fin.ofNat]
    omega
  have n0 : ∀ j : Nat, 0 < j → n.val + j ≤ 15 → n < n + Fin.ofNat 16 j := fun j h0 hj => by
    rw [Fin.lt_def]
    simp only [Fin.val_add, Fin.ofNat]
    omega
  unfold readRegOperand
  unfold operandRegs at hk hl hn
  split_ifs at hk hl hn ⊢
  · simp only [List.mem_singleton] at hk
    subst hk
    exact bind_error (readReg_error h)
  · simp only [List.mem_cons, List.not_mem_nil, or_false, List.length_cons, List.length_nil] at hk hl hn
    rcases hk with rfl | rfl
    · exact bind_error (readReg_error h)
    · refine (bind_of_ok (readReg_ok.2 ⟨hl n (by simp) (n0 1 (by omega) (by omega)), rfl⟩)).trans ?_
      exact bind_error (readReg_error h)
  · simp only [List.mem_cons, List.not_mem_nil, or_false, List.length_cons, List.length_nil] at hk hl hn
    have l01 : n < n + 1 := n0 1 (by omega) (by omega)
    have l02 : n < n + 2 := n0 2 (by omega) (by omega)
    have l03 : n < n + 3 := n0 3 (by omega) (by omega)
    have l12 : n + 1 < n + 2 := lt 1 2 (by omega) (by omega)
    have l13 : n + 1 < n + 3 := lt 1 3 (by omega) (by omega)
    have l23 : n + 2 < n + 3 := lt 2 3 (by omega) (by omega)
    rcases hk with rfl | rfl | rfl | rfl
    · exact bind_error (readReg_error h)
    · refine (bind_of_ok (readReg_ok.2 ⟨hl n (by simp) l01, rfl⟩)).trans ?_
      exact bind_error (readReg_error h)
    · refine (bind_of_ok (readReg_ok.2 ⟨hl n (by simp) l02, rfl⟩)).trans ?_
      refine (bind_of_ok (readReg_ok.2 ⟨hl (n + 1) (by simp) l12, rfl⟩)).trans ?_
      exact bind_error (readReg_error h)
    · refine (bind_of_ok (readReg_ok.2 ⟨hl n (by simp) l03, rfl⟩)).trans ?_
      refine (bind_of_ok (readReg_ok.2 ⟨hl (n + 1) (by simp) l13, rfl⟩)).trans ?_
      refine (bind_of_ok (readReg_ok.2 ⟨hl (n + 2) (by simp) l23, rfl⟩)).trans ?_
      exact bind_error (readReg_error h)

/-- A narrow write to a register that holds no value stops, since it keeps the register's high bits (R22, R34). -/
theorem writeRegOperand_unwritten {t : DType} {n : Reg} {s : State} (ht : t.size < 4) (h : s.isWritten n = false)
    (v : BitVec t.bits) : writeRegOperand t n v s = .error (.fault (.unwrittenRead (.reg n))) := by
  unfold writeRegOperand
  rw [if_pos ht]
  exact bind_error (readReg_error h)

/-! ## Specifiers -/

/-- What stops a specifier's evaluation stops the specifier by itself. -/
theorem operandAlone_error {acc : Access} {t : DType} {x : Spec} {s : State} {e : Stop}
    (h : evalSpec acc t x (Ctx.start s) = .error e) : operandAlone acc t x s = .error e := by
  cases acc
  · exact bind_error (bind_error h)
  · exact bind_error h
  · exact bind_error (bind_error h)
  · exact bind_error (bind_error h)

/-- A specifier by itself, as an instruction, is its evaluation. -/
theorem exec_alone (acc : Access) (t : DType) (x : Spec) (s : State) :
    exec (.alone acc t x) s = outcome (operandAlone acc t x s) := by
  cases x with
  | mem m => cases m <;> rfl
  | _ => rfl

/-! ## An instruction whose result cannot be stored -/

/-- Operands that can be evaluated without a hazard end in the state they leave. -/
theorem OpsReady.operands_done {s : State} {os : List Operand} (h : OpsReady s os) :
    endOperands (Ctx.afterOps os (Ctx.start s.start)) = .ok (operandsAfter os s.start) :=
  endOperands_of_hazardFree ((hazardFree_start s os).2 h.2.2)

section

variable {t : DType} {x y z : Spec} {s : State} {e : Stop}

theorem mov_store_error (h : OpsReady s [⟨.r, t, x⟩, ⟨.w, t, y⟩])
    (hw : ∀ v, writeOperand t (y.loc t (x.after t s.start)) v (y.after t (x.after t s.start)) = .error e) :
    mov t x y s = .error e := by
  unfold mov
  refine (bind_of_ok (beginInstr_ok.2 ⟨h.1, rfl⟩)).trans ?_
  refine (bind_of_ok (operandR_ok.2 ⟨h.2.1.1, rfl, rfl⟩)).trans ?_
  refine (bind_of_ok (operandW_ok.2 ⟨h.2.1.2.1, rfl, rfl⟩)).trans ?_
  exact (bind_of_ok h.operands_done).trans (bind_error (hw _))

theorem movzb_store_error (h : OpsReady s [⟨.r, .b, x⟩, ⟨.w, t, y⟩])
    (hw : ∀ v, writeOperand t (y.loc t (x.after .b s.start)) v (y.after t (x.after .b s.start)) = .error e) :
    movzb t x y s = .error e := by
  unfold movzb
  refine (bind_of_ok (beginInstr_ok.2 ⟨h.1, rfl⟩)).trans ?_
  refine (bind_of_ok (operandR_ok.2 ⟨h.2.1.1, rfl, rfl⟩)).trans ?_
  refine (bind_of_ok (operandW_ok.2 ⟨h.2.1.2.1, rfl, rfl⟩)).trans ?_
  exact (bind_of_ok h.operands_done).trans (bind_error (hw _))

theorem cvtb_store_error (h : OpsReady s [⟨.r, .b, x⟩, ⟨.w, t, y⟩])
    (hw : ∀ v, writeOperand t (y.loc t (x.after .b s.start)) v (y.after t (x.after .b s.start)) = .error e) :
    cvtb t x y s = .error e := by
  unfold cvtb
  refine (bind_of_ok (beginInstr_ok.2 ⟨h.1, rfl⟩)).trans ?_
  refine (bind_of_ok (operandR_ok.2 ⟨h.2.1.1, rfl, rfl⟩)).trans ?_
  refine (bind_of_ok (operandW_ok.2 ⟨h.2.1.2.1, rfl, rfl⟩)).trans ?_
  exact (bind_of_ok h.operands_done).trans (bind_error (hw _))

theorem mova_store_error (h : OpsReady s [⟨.a, t, x⟩, ⟨.w, .l, y⟩])
    (hw : ∀ v, writeOperand .l (y.loc .l (x.after t s.start)) v (y.after .l (x.after t s.start)) = .error e) :
    mova t x y s = .error e := by
  obtain ⟨a, ha⟩ := exists_address h.2.1.1
  unfold mova
  refine (bind_of_ok (beginInstr_ok.2 ⟨h.1, rfl⟩)).trans ?_
  refine (bind_of_ok (operandA_ok.2 ⟨h.2.1.1, ha, rfl⟩)).trans ?_
  refine (bind_of_ok (operandW_ok.2 ⟨h.2.1.2.1, rfl, rfl⟩)).trans ?_
  exact (bind_of_ok h.operands_done).trans (bind_error (hw _))

theorem add2_store_error (h : OpsReady s [⟨.r, t, x⟩, ⟨.m, t, y⟩])
    (hw : ∀ v, writeOperand t (y.loc t (x.after t s.start)) v (y.after t (x.after t s.start)) = .error e) :
    add2 t x y s = .error e := by
  unfold add2
  refine (bind_of_ok (beginInstr_ok.2 ⟨h.1, rfl⟩)).trans ?_
  refine (bind_of_ok (operandR_ok.2 ⟨h.2.1.1, rfl, rfl⟩)).trans ?_
  refine (bind_of_ok (operandM_ok.2 ⟨h.2.1.2.1, rfl, rfl, rfl⟩)).trans ?_
  exact (bind_of_ok h.operands_done).trans (bind_error (hw _))

theorem sub2_store_error (h : OpsReady s [⟨.r, t, x⟩, ⟨.m, t, y⟩])
    (hw : ∀ v, writeOperand t (y.loc t (x.after t s.start)) v (y.after t (x.after t s.start)) = .error e) :
    sub2 t x y s = .error e := by
  unfold sub2
  refine (bind_of_ok (beginInstr_ok.2 ⟨h.1, rfl⟩)).trans ?_
  refine (bind_of_ok (operandR_ok.2 ⟨h.2.1.1, rfl, rfl⟩)).trans ?_
  refine (bind_of_ok (operandM_ok.2 ⟨h.2.1.2.1, rfl, rfl, rfl⟩)).trans ?_
  exact (bind_of_ok h.operands_done).trans (bind_error (hw _))

theorem add3_store_error (h : OpsReady s [⟨.r, t, x⟩, ⟨.r, t, y⟩, ⟨.w, t, z⟩])
    (hw : ∀ v, writeOperand t (z.loc t (y.after t (x.after t s.start))) v (z.after t (y.after t (x.after t s.start))) =
      .error e) : add3 t x y z s = .error e := by
  unfold add3
  refine (bind_of_ok (beginInstr_ok.2 ⟨h.1, rfl⟩)).trans ?_
  refine (bind_of_ok (operandR_ok.2 ⟨h.2.1.1, rfl, rfl⟩)).trans ?_
  refine (bind_of_ok (operandR_ok.2 ⟨h.2.1.2.1, rfl, rfl⟩)).trans ?_
  refine (bind_of_ok (operandW_ok.2 ⟨h.2.1.2.2.1, rfl, rfl⟩)).trans ?_
  exact (bind_of_ok h.operands_done).trans (bind_error (hw _))

theorem sub3_store_error (h : OpsReady s [⟨.r, t, x⟩, ⟨.r, t, y⟩, ⟨.w, t, z⟩])
    (hw : ∀ v, writeOperand t (z.loc t (y.after t (x.after t s.start))) v (z.after t (y.after t (x.after t s.start))) =
      .error e) : sub3 t x y z s = .error e := by
  unfold sub3
  refine (bind_of_ok (beginInstr_ok.2 ⟨h.1, rfl⟩)).trans ?_
  refine (bind_of_ok (operandR_ok.2 ⟨h.2.1.1, rfl, rfl⟩)).trans ?_
  refine (bind_of_ok (operandR_ok.2 ⟨h.2.1.2.1, rfl, rfl⟩)).trans ?_
  refine (bind_of_ok (operandW_ok.2 ⟨h.2.1.2.2.1, rfl, rfl⟩)).trans ?_
  exact (bind_of_ok h.operands_done).trans (bind_error (hw _))

theorem ash_store_error (h : OpsReady s [⟨.r, .b, x⟩, ⟨.r, t, y⟩, ⟨.w, t, z⟩])
    (hw : ∀ v, writeOperand t (z.loc t (y.after t (x.after .b s.start))) v
      (z.after t (y.after t (x.after .b s.start))) = .error e) : ash t x y z s = .error e := by
  unfold ash
  refine (bind_of_ok (beginInstr_ok.2 ⟨h.1, rfl⟩)).trans ?_
  refine (bind_of_ok (operandR_ok.2 ⟨h.2.1.1, rfl, rfl⟩)).trans ?_
  refine (bind_of_ok (operandR_ok.2 ⟨h.2.1.2.1, rfl, rfl⟩)).trans ?_
  refine (bind_of_ok (operandW_ok.2 ⟨h.2.1.2.2.1, rfl, rfl⟩)).trans ?_
  exact (bind_of_ok h.operands_done).trans (bind_error (hw _))

theorem clr_store_error (h : OpsReady s [⟨.w, t, x⟩])
    (hw : ∀ v, writeOperand t (x.loc t s.start) v (x.after t s.start) = .error e) : clr t x s = .error e := by
  unfold clr
  refine (bind_of_ok (beginInstr_ok.2 ⟨h.1, rfl⟩)).trans ?_
  refine (bind_of_ok (operandW_ok.2 ⟨h.2.1.1, rfl, rfl⟩)).trans ?_
  exact (bind_of_ok h.operands_done).trans (bind_error (hw _))

theorem aobleq_store_error {displ : Byte} (h : OpsReady s [⟨.r, .l, x⟩, ⟨.m, .l, y⟩])
    (hf : (y.after .l (x.after .l s.start)).Fetchable 1)
    (hw : ∀ v, writeOperand .l (y.loc .l (x.after .l s.start)) v ((y.after .l (x.after .l s.start)).advance 1) =
      .error e) : addOneBranchLeq x y displ s = .error e := by
  unfold addOneBranchLeq
  refine (bind_of_ok (beginInstr_ok.2 ⟨h.1, rfl⟩)).trans ?_
  refine (bind_of_ok (operandR_ok.2 ⟨h.2.1.1, rfl, rfl⟩)).trans ?_
  refine (bind_of_ok (operandM_ok.2 ⟨h.2.1.2.1, rfl, rfl, rfl⟩)).trans ?_
  refine (bind_of_ok h.operands_done).trans ?_
  exact (bind_of_ok (branchTarget_ok.2 ⟨hf, rfl, rfl⟩)).trans (bind_error (hw _))

theorem push_stack_error (h : OpsReady s [⟨.r, .l, x⟩])
    (hp : ∀ v, pushLongword v (x.after .l s.start) = .error e) : push x s = .error e := by
  unfold push
  refine (bind_of_ok (beginInstr_ok.2 ⟨h.1, rfl⟩)).trans ?_
  refine (bind_of_ok (operandR_ok.2 ⟨h.2.1.1, rfl, rfl⟩)).trans ?_
  exact (bind_of_ok h.operands_done).trans (bind_error (hp _))

theorem jumpSub_stack_error (h : OpsReady s [⟨.a, .b, x⟩])
    (hp : ∀ v, pushLongword v (x.after .b s.start) = .error e) : jumpSub x s = .error e := by
  obtain ⟨a, ha⟩ := exists_address h.2.1.1
  unfold jumpSub
  refine (bind_of_ok (beginInstr_ok.2 ⟨h.1, rfl⟩)).trans ?_
  refine (bind_of_ok (operandA_ok.2 ⟨h.2.1.1, ha, rfl⟩)).trans ?_
  exact (bind_of_ok h.operands_done).trans (bind_error (hp _))

end

/-- An instruction whose operands can be evaluated, and its displacement fetched, stops as the write of its result
does. -/
theorem exec_store_error {i : Instr} {o : Operand} {s : State} {e : Stop} (hr : i.Ready s)
    (hf : (i.operandsDone s).Fetchable i.branchBytes) (hd : i.destination = some o)
    (hw : ∀ v, writeOperand o.dt (o.spec.loc o.dt (i.beforeDestination s)) v
      ((i.operandsDone s).advance i.branchBytes) = .error e) : exec i s = outcome (.error e) := by
  have hw0 : i.branchBytes = 0 → ∀ v, writeOperand o.dt (o.spec.loc o.dt (i.beforeDestination s)) v
      (i.operandsDone s) = .error e := fun hb v => by
    have := hw v
    rwa [hb, advance_zero] at this
  cases i with
  | movb _ _ => cases (show some _ = some o from hd); exact congrArg outcome (mov_store_error hr (hw0 rfl))
  | movw _ _ => cases (show some _ = some o from hd); exact congrArg outcome (mov_store_error hr (hw0 rfl))
  | movl _ _ => cases (show some _ = some o from hd); exact congrArg outcome (mov_store_error hr (hw0 rfl))
  | movq _ _ => cases (show some _ = some o from hd); exact congrArg outcome (mov_store_error hr (hw0 rfl))
  | movzbw _ _ => cases (show some _ = some o from hd); exact congrArg outcome (movzb_store_error hr (hw0 rfl))
  | movzbl _ _ => cases (show some _ = some o from hd); exact congrArg outcome (movzb_store_error hr (hw0 rfl))
  | movab _ _ => cases (show some _ = some o from hd); exact congrArg outcome (mova_store_error hr (hw0 rfl))
  | movaw _ _ => cases (show some _ = some o from hd); exact congrArg outcome (mova_store_error hr (hw0 rfl))
  | moval _ _ => cases (show some _ = some o from hd); exact congrArg outcome (mova_store_error hr (hw0 rfl))
  | movaq _ _ => cases (show some _ = some o from hd); exact congrArg outcome (mova_store_error hr (hw0 rfl))
  | pushl _ => cases (show none = some o from hd)
  | addb2 _ _ => cases (show some _ = some o from hd); exact congrArg outcome (add2_store_error hr (hw0 rfl))
  | addb3 _ _ _ => cases (show some _ = some o from hd); exact congrArg outcome (add3_store_error hr (hw0 rfl))
  | addw2 _ _ => cases (show some _ = some o from hd); exact congrArg outcome (add2_store_error hr (hw0 rfl))
  | addw3 _ _ _ => cases (show some _ = some o from hd); exact congrArg outcome (add3_store_error hr (hw0 rfl))
  | addl2 _ _ => cases (show some _ = some o from hd); exact congrArg outcome (add2_store_error hr (hw0 rfl))
  | addl3 _ _ _ => cases (show some _ = some o from hd); exact congrArg outcome (add3_store_error hr (hw0 rfl))
  | subb2 _ _ => cases (show some _ = some o from hd); exact congrArg outcome (sub2_store_error hr (hw0 rfl))
  | subb3 _ _ _ => cases (show some _ = some o from hd); exact congrArg outcome (sub3_store_error hr (hw0 rfl))
  | subw2 _ _ => cases (show some _ = some o from hd); exact congrArg outcome (sub2_store_error hr (hw0 rfl))
  | subw3 _ _ _ => cases (show some _ = some o from hd); exact congrArg outcome (sub3_store_error hr (hw0 rfl))
  | subl2 _ _ => cases (show some _ = some o from hd); exact congrArg outcome (sub2_store_error hr (hw0 rfl))
  | subl3 _ _ _ => cases (show some _ = some o from hd); exact congrArg outcome (sub3_store_error hr (hw0 rfl))
  | cmpb _ _ => cases (show none = some o from hd)
  | cmpw _ _ => cases (show none = some o from hd)
  | cmpl _ _ => cases (show none = some o from hd)
  | tstb _ => cases (show none = some o from hd)
  | tstw _ => cases (show none = some o from hd)
  | tstl _ => cases (show none = some o from hd)
  | ashl _ _ _ => cases (show some _ = some o from hd); exact congrArg outcome (ash_store_error hr (hw0 rfl))
  | ashq _ _ _ => cases (show some _ = some o from hd); exact congrArg outcome (ash_store_error hr (hw0 rfl))
  | clrb _ => cases (show some _ = some o from hd); exact congrArg outcome (clr_store_error hr (hw0 rfl))
  | clrw _ => cases (show some _ = some o from hd); exact congrArg outcome (clr_store_error hr (hw0 rfl))
  | clrl _ => cases (show some _ = some o from hd); exact congrArg outcome (clr_store_error hr (hw0 rfl))
  | clrq _ => cases (show some _ = some o from hd); exact congrArg outcome (clr_store_error hr (hw0 rfl))
  | cvtbw _ _ => cases (show some _ = some o from hd); exact congrArg outcome (cvtb_store_error hr (hw0 rfl))
  | cvtbl _ _ => cases (show some _ = some o from hd); exact congrArg outcome (cvtb_store_error hr (hw0 rfl))
  | beql _ => cases (show none = some o from hd)
  | bneq _ => cases (show none = some o from hd)
  | bleq _ => cases (show none = some o from hd)
  | bgeq _ => cases (show none = some o from hd)
  | brb _ => cases (show none = some o from hd)
  | brw _ => cases (show none = some o from hd)
  | jmp _ => cases (show none = some o from hd)
  | aobleq _ _ _ => cases (show some _ = some o from hd); exact congrArg outcome (aobleq_store_error hr hf hw)
  | jsb _ => cases (show none = some o from hd)
  | caseb => cases (show none = some o from hd)
  | casew => cases (show none = some o from hd)
  | casel => cases (show none = some o from hd)
  | calls => cases (show none = some o from hd)
  | callg => cases (show none = some o from hd)
  | ret => cases (show none = some o from hd)
  | addf2 => cases (show none = some o from hd)
  | addf3 => cases (show none = some o from hd)
  | addd2 => cases (show none = some o from hd)
  | addd3 => cases (show none = some o from hd)
  | subd2 => cases (show none = some o from hd)
  | subd3 => cases (show none = some o from hd)
  | mulf2 => cases (show none = some o from hd)
  | mulf3 => cases (show none = some o from hd)
  | polyf => cases (show none = some o from hd)
  | crc => cases (show none = some o from hd)
  | insque => cases (show none = some o from hd)
  | specLiteral _ _ _ => cases (show none = some o from hd)
  | specIndex _ _ _ _ => cases (show none = some o from hd)
  | specRegister _ _ _ => cases (show none = some o from hd)
  | specRegisterDeferred _ _ _ => cases (show none = some o from hd)
  | specAutodecrement _ _ _ => cases (show none = some o from hd)
  | specAutoincrement _ _ _ => cases (show none = some o from hd)
  | specImmediate _ _ _ => cases (show none = some o from hd)
  | specAutoincrementDeferred _ _ _ => cases (show none = some o from hd)
  | specAbsolute _ _ _ => cases (show none = some o from hd)
  | specByteDisplacement _ _ _ _ => cases (show none = some o from hd)
  | specByteRelative _ _ _ => cases (show none = some o from hd)
  | specByteDisplacementDeferred _ _ _ _ => cases (show none = some o from hd)
  | specByteRelativeDeferred _ _ _ => cases (show none = some o from hd)
  | specWordDisplacement _ _ _ _ => cases (show none = some o from hd)
  | specWordRelative _ _ _ => cases (show none = some o from hd)
  | specWordDisplacementDeferred _ _ _ _ => cases (show none = some o from hd)
  | specWordRelativeDeferred _ _ _ => cases (show none = some o from hd)
  | specLongwordDisplacement _ _ _ _ => cases (show none = some o from hd)
  | specLongwordRelative _ _ _ => cases (show none = some o from hd)
  | specLongwordDisplacementDeferred _ _ _ _ => cases (show none = some o from hd)
  | specLongwordRelativeDeferred _ _ _ => cases (show none = some o from hd)

/-- `pushl` or `jsb`, its operand evaluated, stops as its push does. -/
theorem exec_push_error {i : Instr} {s : State} {e : Stop} (hi : i.opcode? = some .pushl ∨ i.opcode? = some .jsb)
    (hr : i.Ready s) (hp : ∀ v, pushLongword v (i.operandsDone s) = .error e) : exec i s = outcome (.error e) := by
  cases i <;> simp [Instr.opcode?] at hi
  case pushl x => exact congrArg outcome (push_stack_error hr hp)
  case jsb x => exact congrArg outcome (jumpSub_stack_error hr hp)

end Sys2Proof.Machine
end

