-- ==== Sys2Proof/Tests/Slice0.lean ====
section
/-! SUPPORT. Tests: the checks of `WellFormed`, one word decoded for each constructor, one step for each instruction and
mode, and, for each statement that has hypotheses, a state and operands that meet them. -/

namespace Sys2Proof.Tests

open Sys2Proof Machine

/-! ## Starts of test vectors -/

/-- Memory with bytes placed from an address on. -/
def place (m : Memory) (a : Nat) : List Byte → Memory
  | [] => m
  | b :: bs => place (m.write a b) (a + 1) bs

/-- Memory with several runs of bytes placed. -/
def placeAll (m : Memory) : List (Nat × List Byte) → Memory
  | [] => m
  | (a, bs) :: xs => placeAll (place m a bs) xs

/-- Condition codes, `none` for one that holds no value. -/
structure Flags where
  n : Option Bool := none
  z : Option Bool := none
  v : Option Bool := none
  c : Option Bool := none

/-- The start of a test vector under the conventions of 95_test_vectors.md: code at 1000, data region 2000 to 2FFF,
registers and flags that are not given unwritten, the run ending after the code. -/
structure Start where
  code : List Byte
  regs : List (Gpr × Word) := []
  data : List (Nat × List Byte) := []
  flags : Flags := {}
  iv : Bool := false
  ext : ShortLiteralExt := .undecided
  strict : Bool := true
  base : Word := 0x1000

/-- The data of 95_test_vectors.md named PAT. -/
def pat : List (Nat × List Byte) :=
  [(0x2000, [0x78, 0x56, 0x34, 0x12, 0x10, 0x20, 0x00, 0x00, 0xEF, 0xBE, 0xAD, 0xDE, 0x0D, 0xF0, 0xFE, 0xCA,
    0x11, 0x22, 0x33, 0x44, 0x55, 0x66, 0x77, 0x88])]

/-- A launch in the shape of a start, with other registers, flags, program counter and memory over it. -/
def Start.over (x : Start) (regs : List (Gpr × Word)) (flags : Flags) (pc : Word) (stored : List (Nat × List Byte)) :
    State :=
  let r (n : Gpr) : Option Word := ((regs ++ x.regs).find? fun p => p.1 == n).map fun p => p.2
  let code : Region := [⟨x.base.toNat, x.base.toNat + x.code.length⟩]
  .ofLaunch {
    initRegs := #v[r 0, r 1, r 2, r 3, r 4, r 5, r 6, r 7, r 8, r 9, r 10, r 11, r 12, r 13, r 14]
    entry := pc
    initN := flags.n
    initZ := flags.z
    initV := flags.v
    initC := flags.c
    iv := x.iv
    mem0 := placeAll [] ((x.base.toNat, x.code) :: x.data ++ stored)
    params := {
      shortLiteralExt := x.ext
      strictRegHazard := x.strict
      readable := ⟨0x2000, 0x3000⟩ :: code
      writable := [⟨0x2000, 0x3000⟩]
      codeRegion := code
      endPC := x.base + BitVec.ofNat 32 x.code.length
      opcodeMap := defaultOpcodeMap } }

/-- The state a start stands for. -/
def Start.state (x : Start) : State := x.over [] x.flags x.base []

/-- The outcome is this next state. -/
def isNext (o : Host.Outcome State Fault Refusal) (t : State) : Bool :=
  match o with
  | .next u => u == t
  | .fault _ => false
  | .refused _ => false

/-- The outcome is this fault. -/
def isFault (o : Host.Outcome State Fault Refusal) (f : Fault) : Bool :=
  match o with
  | .next _ => false
  | .fault g => g == f
  | .refused _ => false

/-- The outcome is this refusal. -/
def isRefused (o : Host.Outcome State Fault Refusal) (r : Refusal) : Bool :=
  match o with
  | .next _ => false
  | .fault _ => false
  | .refused q => q == r

/-- Stepping the start gives a next state that differs from it in just these registers, flags, program counter and
memory bytes. -/
def Start.gives (x : Start) (regs : List (Gpr × Word)) (flags : Flags) (pc : Word)
    (stored : List (Nat × List Byte) := []) : Bool :=
  isNext (step x.state) (x.over regs flags pc stored)

/-! ## Well-formedness: each check refuses an ill-formed term -/

theorem test_wf_immediate_too_wide : (Instr.movb (.immediate 0x100) (.register 0)).wf = false := by decide

theorem test_wf_immediate_fits : (Instr.movb (.immediate 0xFF) (.register 0)).wf = true := by decide

theorem test_wf_base_is_no_forbidden_byte : (Instr.clrl (.index 4 (.forbidden 0x63))).wf = false := by decide

theorem test_wf_forbidden_base : (Instr.clrl (.index 4 (.forbidden 0x5F))).wf = true := by decide

/-! ## Decoding: one word for each constructor, written out from the encoding tables (R60 to R75) -/

theorem test_decode_movb :
    decode defaultOpcodeMap [0x90, 0x8F, 0x80, 0x63] =
      .instr (.movb (.immediate 0x80) (.mem (.registerDeferred 3))) := by decide

theorem test_decode_movw :
    decode defaultOpcodeMap [0xB0, 0x8F, 0x34, 0x12, 0x52] = .instr (.movw (.immediate 0x1234) (.register 2)) := by decide

theorem test_decode_movl :
    decode defaultOpcodeMap [0xD0, 0xA2, 0xFC, 0x52] =
      .instr (.movl (.mem (.byteDisplacement 2 0xFC)) (.register 2)) := by decide

theorem test_decode_movq :
    decode defaultOpcodeMap [0x7D, 0x8F, 0x08, 0x07, 0x06, 0x05, 0x04, 0x03, 0x02, 0x01, 0x7E] =
      .instr (.movq (.immediate 0x0102030405060708) (.mem (.autodecrement 14))) := by decide

theorem test_decode_movzbw :
    decode defaultOpcodeMap [0x9B, 0x8F, 0x80, 0x86] =
      .instr (.movzbw (.immediate 0x80) (.mem (.autoincrement 6))) := by decide

theorem test_decode_movzbl :
    decode defaultOpcodeMap [0x9A, 0x51, 0x9F, 0x78, 0x56, 0x34, 0x12] =
      .instr (.movzbl (.register 1) (.mem (.absolute 0x12345678))) := by decide

theorem test_decode_movab :
    decode defaultOpcodeMap [0x9E, 0x44, 0x63, 0x52] =
      .instr (.movab (.index 4 (.mem (.registerDeferred 3))) (.register 2)) := by decide

theorem test_decode_movaw :
    decode defaultOpcodeMap [0x3E, 0xC4, 0x34, 0x12, 0x7E] =
      .instr (.movaw (.mem (.wordDisplacement 4 0x1234)) (.mem (.autodecrement 14))) := by decide

theorem test_decode_moval :
    decode defaultOpcodeMap [0xDE, 0x9F, 0x78, 0x56, 0x34, 0x12, 0x5A] =
      .instr (.moval (.mem (.absolute 0x12345678)) (.register 10)) := by decide

theorem test_decode_movaq :
    decode defaultOpcodeMap [0x7E, 0xEF, 0xFA, 0x0F, 0x00, 0x00, 0x51] =
      .instr (.movaq (.mem (.longwordRelative 0x0FFA)) (.register 1)) := by decide

theorem test_decode_pushl :
    decode defaultOpcodeMap [0xDD, 0x8F, 0x78, 0x56, 0x34, 0x12] = .instr (.pushl (.immediate 0x12345678)) := by decide

theorem test_decode_addb2 :
    decode defaultOpcodeMap [0x80, 0x8F, 0x80, 0x5A] = .instr (.addb2 (.immediate 0x80) (.register 10)) := by decide

theorem test_decode_addb3 :
    decode defaultOpcodeMap [0x81, 0x2A, 0x51, 0x52] =
      .instr (.addb3 (.literal 42) (.register 1) (.register 2)) := by decide

theorem test_decode_addw2 :
    decode defaultOpcodeMap [0xA0, 0x8F, 0x34, 0x12, 0x86] =
      .instr (.addw2 (.immediate 0x1234) (.mem (.autoincrement 6))) := by decide

theorem test_decode_addw3 :
    decode defaultOpcodeMap [0xA1, 0x8F, 0x34, 0x12, 0x51, 0x63] =
      .instr (.addw3 (.immediate 0x1234) (.register 1) (.mem (.registerDeferred 3))) := by decide

theorem test_decode_addl2 :
    decode defaultOpcodeMap [0xC0, 0x86, 0x52] = .instr (.addl2 (.mem (.autoincrement 6)) (.register 2)) := by decide

theorem test_decode_addl3 :
    decode defaultOpcodeMap [0xC1, 0x8F, 0x78, 0x56, 0x34, 0x12, 0xA2, 0xFC, 0x5A] =
      .instr (.addl3 (.immediate 0x12345678) (.mem (.byteDisplacement 2 0xFC)) (.register 10)) := by decide

theorem test_decode_subb2 :
    decode defaultOpcodeMap [0x82, 0x2A, 0x63] = .instr (.subb2 (.literal 42) (.mem (.registerDeferred 3))) := by decide

theorem test_decode_subb3 :
    decode defaultOpcodeMap [0x83, 0x8F, 0x80, 0x51, 0x52] =
      .instr (.subb3 (.immediate 0x80) (.register 1) (.register 2)) := by decide

theorem test_decode_subw2 :
    decode defaultOpcodeMap [0xA2, 0x2A, 0xB3, 0x7F] =
      .instr (.subw2 (.literal 42) (.mem (.byteDisplacementDeferred 3 0x7F))) := by decide

theorem test_decode_subw3 :
    decode defaultOpcodeMap [0xA3, 0x51, 0x8F, 0x34, 0x12, 0x52] =
      .instr (.subw3 (.register 1) (.immediate 0x1234) (.register 2)) := by decide

theorem test_decode_subl2 :
    decode defaultOpcodeMap [0xC2, 0x2A, 0x7E] = .instr (.subl2 (.literal 42) (.mem (.autodecrement 14))) := by decide

theorem test_decode_subl3 :
    decode defaultOpcodeMap [0xC3, 0x51, 0x52, 0x5A] =
      .instr (.subl3 (.register 1) (.register 2) (.register 10)) := by decide

theorem test_decode_cmpb :
    decode defaultOpcodeMap [0x91, 0x8F, 0x80, 0x51] = .instr (.cmpb (.immediate 0x80) (.register 1)) := by decide

theorem test_decode_cmpw :
    decode defaultOpcodeMap [0xB1, 0x8F, 0x34, 0x12, 0xD5, 0x01, 0x80] =
      .instr (.cmpw (.immediate 0x1234) (.mem (.wordDisplacementDeferred 5 0x8001))) := by decide

theorem test_decode_cmpl :
    decode defaultOpcodeMap [0xD1, 0x51, 0x4C, 0xA2, 0x08] =
      .instr (.cmpl (.register 1) (.index 12 (.mem (.byteDisplacement 2 8)))) := by decide

theorem test_decode_tstb : decode defaultOpcodeMap [0x95, 0x8F, 0x80] = .instr (.tstb (.immediate 0x80)) := by decide

theorem test_decode_tstw :
    decode defaultOpcodeMap [0xB5, 0x8F, 0x34, 0x12] = .instr (.tstw (.immediate 0x1234)) := by decide

theorem test_decode_tstl :
    decode defaultOpcodeMap [0xD5, 0xF7, 0xEF, 0xBE, 0xAD, 0xDE] =
      .instr (.tstl (.mem (.longwordDisplacementDeferred 7 0xDEADBEEF))) := by decide

theorem test_decode_ashl :
    decode defaultOpcodeMap [0x78, 0x8F, 0x80, 0x51, 0x52] =
      .instr (.ashl (.immediate 0x80) (.register 1) (.register 2)) := by decide

theorem test_decode_ashq :
    decode defaultOpcodeMap [0x79, 0x8F, 0x80, 0x8F, 0x08, 0x07, 0x06, 0x05, 0x04, 0x03, 0x02, 0x01, 0x52] =
      .instr (.ashq (.immediate 0x80) (.immediate 0x0102030405060708) (.register 2)) := by decide

theorem test_decode_clrb :
    decode defaultOpcodeMap [0x94, 0x99] = .instr (.clrb (.mem (.autoincrementDeferred 9))) := by decide

theorem test_decode_clrw :
    decode defaultOpcodeMap [0xB4, 0xE6, 0x78, 0x56, 0x34, 0x12] =
      .instr (.clrw (.mem (.longwordDisplacement 6 0x12345678))) := by decide

theorem test_decode_clrl :
    decode defaultOpcodeMap [0xD4, 0xBF, 0x10] = .instr (.clrl (.mem (.byteRelativeDeferred 0x10))) := by decide

theorem test_decode_clrq :
    decode defaultOpcodeMap [0x7C, 0xDF, 0x00, 0x10] = .instr (.clrq (.mem (.wordRelativeDeferred 0x1000))) := by decide

theorem test_decode_cvtbw :
    decode defaultOpcodeMap [0x99, 0x8F, 0x80, 0x51] = .instr (.cvtbw (.immediate 0x80) (.register 1)) := by decide

theorem test_decode_cvtbl :
    decode defaultOpcodeMap [0x98, 0x8F, 0x80, 0xFF, 0xFE, 0x0F, 0x00, 0x00] =
      .instr (.cvtbl (.immediate 0x80) (.mem (.longwordRelativeDeferred 0x0FFE))) := by decide

theorem test_decode_beql : decode defaultOpcodeMap [0x13, 0xF9] = .instr (.beql 0xF9) := by decide

theorem test_decode_bneq : decode defaultOpcodeMap [0x12, 0xF9] = .instr (.bneq 0xF9) := by decide

theorem test_decode_bleq : decode defaultOpcodeMap [0x15, 0xF9] = .instr (.bleq 0xF9) := by decide

theorem test_decode_bgeq : decode defaultOpcodeMap [0x18, 0xF9] = .instr (.bgeq 0xF9) := by decide

theorem test_decode_brb : decode defaultOpcodeMap [0x11, 0xF9] = .instr (.brb 0xF9) := by decide

theorem test_decode_brw : decode defaultOpcodeMap [0x31, 0x34, 0x12] = .instr (.brw 0x1234) := by decide

theorem test_decode_jmp :
    decode defaultOpcodeMap [0x17, 0x99] = .instr (.jmp (.mem (.autoincrementDeferred 9))) := by decide

theorem test_decode_aobleq :
    decode defaultOpcodeMap [0xF3, 0x8F, 0x0A, 0x00, 0x00, 0x00, 0x52, 0xF9] =
      .instr (.aobleq (.immediate 10) (.register 2) 0xF9) := by decide

theorem test_decode_jsb :
    decode defaultOpcodeMap [0x16, 0xAF, 0x80] = .instr (.jsb (.mem (.byteRelative 0x80))) := by decide

theorem test_decode_caseb : decode defaultOpcodeMap [0x8F, 0x52] = .instr .caseb := by decide

theorem test_decode_casew : decode defaultOpcodeMap [0xAF, 0x52] = .instr .casew := by decide

theorem test_decode_casel : decode defaultOpcodeMap [0xCF, 0x52] = .instr .casel := by decide

theorem test_decode_calls : decode defaultOpcodeMap [0xFB, 0x52] = .instr .calls := by decide

theorem test_decode_callg : decode defaultOpcodeMap [0xFA, 0x52] = .instr .callg := by decide

theorem test_decode_ret : decode defaultOpcodeMap [0x04, 0x52] = .instr .ret := by decide

theorem test_decode_addf2 : decode defaultOpcodeMap [0x40, 0x52] = .instr .addf2 := by decide

theorem test_decode_addf3 : decode defaultOpcodeMap [0x41, 0x52] = .instr .addf3 := by decide

theorem test_decode_addd2 : decode defaultOpcodeMap [0x60, 0x52] = .instr .addd2 := by decide

theorem test_decode_addd3 : decode defaultOpcodeMap [0x61, 0x52] = .instr .addd3 := by decide

theorem test_decode_subd2 : decode defaultOpcodeMap [0x62, 0x52] = .instr .subd2 := by decide

theorem test_decode_subd3 : decode defaultOpcodeMap [0x63, 0x52] = .instr .subd3 := by decide

theorem test_decode_mulf2 : decode defaultOpcodeMap [0x44, 0x52] = .instr .mulf2 := by decide

theorem test_decode_mulf3 : decode defaultOpcodeMap [0x45, 0x52] = .instr .mulf3 := by decide

theorem test_decode_polyf : decode defaultOpcodeMap [0x55, 0x52] = .instr .polyf := by decide

theorem test_decode_crc : decode defaultOpcodeMap [0x0B, 0x52] = .instr .crc := by decide

theorem test_decode_insque : decode defaultOpcodeMap [0x0E, 0x52] = .instr .insque := by decide

theorem test_decode_specLiteral :
    decodeSpec .b [0x2A, 0x77] = (.literal 42, [0x77]) ∧
    encode (.specLiteral .r .b 42) = [0x2A] := by decide

theorem test_decode_specIndex :
    decodeSpec .l [0x4C, 0xA2, 0x08, 0x77] = (.index 12 (.mem (.byteDisplacement 2 8)), [0x77]) ∧
    encode (.specIndex .m .l 12 (.mem (.byteDisplacement 2 8))) = [0x4C, 0xA2, 0x08] := by decide

theorem test_decode_specRegister :
    decodeSpec .q [0x5A, 0x77] = (.register 10, [0x77]) ∧
    encode (.specRegister .w .q 10) = [0x5A] := by decide

theorem test_decode_specRegisterDeferred :
    decodeSpec .l [0x63, 0x77] = (.mem (.registerDeferred 3), [0x77]) ∧
    encode (.specRegisterDeferred .r .l 3) = [0x63] := by decide

theorem test_decode_specAutodecrement :
    decodeSpec .l [0x7E, 0x77] = (.mem (.autodecrement 14), [0x77]) ∧
    encode (.specAutodecrement .w .l 14) = [0x7E] := by decide

theorem test_decode_specAutoincrement :
    decodeSpec .w [0x86, 0x77] = (.mem (.autoincrement 6), [0x77]) ∧
    encode (.specAutoincrement .r .w 6) = [0x86] := by decide

theorem test_decode_specImmediate :
    decodeSpec .q [0x8F, 0x08, 0x07, 0x06, 0x05, 0x04, 0x03, 0x02, 0x01, 0x77] = (.immediate 0x0102030405060708, [0x77]) ∧
    encode (.specImmediate .r .q 0x0102030405060708) = [0x8F, 0x08, 0x07, 0x06, 0x05, 0x04, 0x03, 0x02, 0x01] := by decide

theorem test_decode_specAutoincrementDeferred :
    decodeSpec .b [0x99, 0x77] = (.mem (.autoincrementDeferred 9), [0x77]) ∧
    encode (.specAutoincrementDeferred .m .b 9) = [0x99] := by decide

theorem test_decode_specAbsolute :
    decodeSpec .l [0x9F, 0x78, 0x56, 0x34, 0x12, 0x77] = (.mem (.absolute 0x12345678), [0x77]) ∧
    encode (.specAbsolute .a .l 0x12345678) = [0x9F, 0x78, 0x56, 0x34, 0x12] := by decide

theorem test_decode_specByteDisplacement :
    decodeSpec .l [0xA2, 0xFC, 0x77] = (.mem (.byteDisplacement 2 0xFC), [0x77]) ∧
    encode (.specByteDisplacement .r .l 2 0xFC) = [0xA2, 0xFC] := by decide

theorem test_decode_specByteRelative :
    decodeSpec .b [0xAF, 0x80, 0x77] = (.mem (.byteRelative 0x80), [0x77]) ∧
    encode (.specByteRelative .a .b 0x80) = [0xAF, 0x80] := by decide

theorem test_decode_specByteDisplacementDeferred :
    decodeSpec .w [0xB3, 0x7F, 0x77] = (.mem (.byteDisplacementDeferred 3 0x7F), [0x77]) ∧
    encode (.specByteDisplacementDeferred .w .w 3 0x7F) = [0xB3, 0x7F] := by decide

theorem test_decode_specByteRelativeDeferred :
    decodeSpec .l [0xBF, 0x10, 0x77] = (.mem (.byteRelativeDeferred 0x10), [0x77]) ∧
    encode (.specByteRelativeDeferred .r .l 0x10) = [0xBF, 0x10] := by decide

theorem test_decode_specWordDisplacement :
    decodeSpec .l [0xC4, 0x34, 0x12, 0x77] = (.mem (.wordDisplacement 4 0x1234), [0x77]) ∧
    encode (.specWordDisplacement .r .l 4 0x1234) = [0xC4, 0x34, 0x12] := by decide

theorem test_decode_specWordRelative :
    decodeSpec .l [0xCF, 0xFC, 0x0F, 0x77] = (.mem (.wordRelative 0x0FFC), [0x77]) ∧
    encode (.specWordRelative .r .l 0x0FFC) = [0xCF, 0xFC, 0x0F] := by decide

theorem test_decode_specWordDisplacementDeferred :
    decodeSpec .l [0xD5, 0x01, 0x80, 0x77] = (.mem (.wordDisplacementDeferred 5 0x8001), [0x77]) ∧
    encode (.specWordDisplacementDeferred .r .l 5 0x8001) = [0xD5, 0x01, 0x80] := by decide

theorem test_decode_specWordRelativeDeferred :
    decodeSpec .q [0xDF, 0x00, 0x10, 0x77] = (.mem (.wordRelativeDeferred 0x1000), [0x77]) ∧
    encode (.specWordRelativeDeferred .r .q 0x1000) = [0xDF, 0x00, 0x10] := by decide

theorem test_decode_specLongwordDisplacement :
    decodeSpec .l [0xE6, 0x78, 0x56, 0x34, 0x12, 0x77] = (.mem (.longwordDisplacement 6 0x12345678), [0x77]) ∧
    encode (.specLongwordDisplacement .r .l 6 0x12345678) = [0xE6, 0x78, 0x56, 0x34, 0x12] := by decide

theorem test_decode_specLongwordRelative :
    decodeSpec .l [0xEF, 0xFA, 0x0F, 0x00, 0x00, 0x77] = (.mem (.longwordRelative 0x0FFA), [0x77]) ∧
    encode (.specLongwordRelative .a .l 0x0FFA) = [0xEF, 0xFA, 0x0F, 0x00, 0x00] := by decide

theorem test_decode_specLongwordDisplacementDeferred :
    decodeSpec .l [0xF7, 0xEF, 0xBE, 0xAD, 0xDE, 0x77] = (.mem (.longwordDisplacementDeferred 7 0xDEADBEEF), [0x77]) ∧
    encode (.specLongwordDisplacementDeferred .r .l 7 0xDEADBEEF) = [0xF7, 0xEF, 0xBE, 0xAD, 0xDE] := by decide

theorem test_decode_specLongwordRelativeDeferred :
    decodeSpec .l [0xFF, 0xFE, 0x0F, 0x00, 0x00, 0x77] = (.mem (.longwordRelativeDeferred 0x0FFE), [0x77]) ∧
    encode (.specLongwordRelativeDeferred .r .l 0x0FFE) = [0xFF, 0xFE, 0x0F, 0x00, 0x00] := by decide

/-! ## Steps: vectors of 95_test_vectors.md, by their names there; what each gives is what the spec says -/

theorem test_M1 :
    ({ code := [0xD0, 0x05, 0x50] } : Start).gives [(0, 0x5)]
    { n := some false, z := some false, v := some false } 0x1003 := by decide

theorem test_M2a :
    isRefused (step ({ code := [0xD0, 0x3F, 0x50] } : Start).state) (.shortLiteralHighBit 0x3F) := by decide

theorem test_M2d :
    ({ code := [0x90, 0x3F, 0x50], regs := [(0, 0x11111111)], ext := .signed } : Start).gives [(0, 0x111111ff)]
    { n := some true, z := some false, v := some false } 0x1003 := by decide

theorem test_M15 :
    ({ code := [0xD0, 0x44, 0x63, 0x50], regs := [(3, 0x2000), (4, 0x2)], data := pat } : Start).gives [(0, 0xdeadbeef)]
    { n := some true, z := some false, v := some false } 0x1004 := by decide

theorem test_M18 :
    isRefused (step ({ code := [0xD0, 0x43, 0x83, 0x50], regs := [(3, 0x2000)] } : Start).state) .unpredictableIndexBaseSame := by decide

theorem test_M19e :
    isRefused (step ({ code := [0xD0, 0x44, 0x8F, 0x00, 0x00, 0x00, 0x00, 0x50], regs := [(4, 0x0)] } : Start).state) .unpredictableIndexedImmediate := by decide

theorem test_M4 :
    ({ code := [0xD0, 0x53, 0x55], regs := [(3, 0xcafe0001)] } : Start).gives [(5, 0xcafe0001)]
    { n := some true, z := some false, v := some false } 0x1003 := by decide

theorem test_M32 :
    isRefused (step ({ code := [0x7D, 0x5E, 0x50], regs := [(14, 0x0)] } : Start).state) .unpredictableRegisterPair := by decide

theorem test_M5 :
    ({ code := [0xD0, 0x63, 0x50], regs := [(3, 0x2000)], data := pat } : Start).gives [(0, 0x12345678)]
    { n := some false, z := some false, v := some false } 0x1003 := by decide

theorem test_M6 :
    ({ code := [0xD0, 0x50, 0x73], regs := [(0, 0xa1b2c3d4), (3, 0x2008)], data := pat } : Start).gives [(3, 0x2004)]
    { n := some true, z := some false, v := some false } 0x1003 [(0x2004, [0xD4, 0xC3, 0xB2, 0xA1])] := by decide

theorem test_M8 :
    ({ code := [0x7D, 0x83, 0x50], regs := [(3, 0x2000)], data := pat } : Start).gives [(0, 0x12345678), (1, 0x2010), (3, 0x2008)]
    { n := some false, z := some false, v := some false } 0x1003 := by decide

theorem test_M9 :
    ({ code := [0x90, 0x93, 0x50], regs := [(3, 0x2004), (0, 0x0)], data := pat } : Start).gives [(0, 0x11), (3, 0x2008)]
    { n := some false, z := some false, v := some false } 0x1003 := by decide

theorem test_M20w :
    ({ code := [0xB0, 0x8F, 0x64, 0x00, 0x50], regs := [(0, 0xffffffff)] } : Start).gives [(0, 0xffff0064)]
    { n := some false, z := some false, v := some false } 0x1005 := by decide

theorem test_M28 :
    isRefused (step ({ code := [0xD0, 0x50, 0x8F, 0x00, 0x00, 0x00, 0x00], regs := [(0, 0x0)] } : Start).state) .unpredictableImmediateDestination := by decide

theorem test_M22 :
    ({ code := [0xD0, 0x9F, 0x00, 0x20, 0x00, 0x00, 0x50], data := pat } : Start).gives [(0, 0x12345678)]
    { n := some false, z := some false, v := some false } 0x1007 := by decide

theorem test_M10 :
    ({ code := [0xD0, 0xA3, 0xFC, 0x50], regs := [(3, 0x2004)], data := pat } : Start).gives [(0, 0x12345678)]
    { n := some false, z := some false, v := some false } 0x1004 := by decide

theorem test_M13 :
    ({ code := [0xD0, 0xB3, 0x04, 0x50], regs := [(3, 0x2000)], data := pat } : Start).gives [(0, 0x44332211)]
    { n := some false, z := some false, v := some false } 0x1004 := by decide

theorem test_M11n :
    ({ code := [0xD0, 0xC3, 0x00, 0xFF, 0x50], regs := [(3, 0x2100)], data := pat } : Start).gives [(0, 0x12345678)]
    { n := some false, z := some false, v := some false } 0x1005 := by decide

theorem test_M14 :
    ({ code := [0xD0, 0xD3, 0x04, 0x00, 0x50], regs := [(3, 0x2000)], data := pat } : Start).gives [(0, 0x44332211)]
    { n := some false, z := some false, v := some false } 0x1005 := by decide

theorem test_M12 :
    ({ code := [0xD0, 0xE3, 0x00, 0x10, 0x00, 0x00, 0x50], regs := [(3, 0x1000)], data := pat } : Start).gives [(0, 0x12345678)]
    { n := some false, z := some false, v := some false } 0x1007 := by decide

theorem test_M14l :
    ({ code := [0xD0, 0xF3, 0x04, 0x00, 0x00, 0x00, 0x50], regs := [(3, 0x2000)], data := pat } : Start).gives [(0, 0x44332211)]
    { n := some false, z := some false, v := some false } 0x1007 := by decide

theorem test_M23b :
    ({ code := [0xD0, 0xAF, 0x0D, 0x50], data := pat, base := 0x1ff0 } : Start).gives [(0, 0x12345678)]
    { n := some false, z := some false, v := some false } 0x1ff4 := by decide

theorem test_M24b :
    ({ code := [0xD0, 0xBF, 0x11, 0x50], data := pat, base := 0x1ff0 } : Start).gives [(0, 0x44332211)]
    { n := some false, z := some false, v := some false } 0x1ff4 := by decide

theorem test_M23w :
    ({ code := [0xD0, 0xCF, 0xFC, 0x0F, 0x50], data := pat } : Start).gives [(0, 0x12345678)]
    { n := some false, z := some false, v := some false } 0x1005 := by decide

theorem test_M24w :
    ({ code := [0xD0, 0xDF, 0x00, 0x10, 0x50], data := pat } : Start).gives [(0, 0x44332211)]
    { n := some false, z := some false, v := some false } 0x1005 := by decide

theorem test_M23l :
    ({ code := [0xD0, 0xEF, 0xFA, 0x0F, 0x00, 0x00, 0x50], data := pat } : Start).gives [(0, 0x12345678)]
    { n := some false, z := some false, v := some false } 0x1007 := by decide

theorem test_M24l :
    ({ code := [0xD0, 0xFF, 0xFE, 0x0F, 0x00, 0x00, 0x50], data := pat } : Start).gives [(0, 0x44332211)]
    { n := some false, z := some false, v := some false } 0x1007 := by decide

theorem test_M29 :
    isRefused (step ({ code := [0xD0, 0x53, 0x83], regs := [(3, 0x2000)], data := pat } : Start).state) (.registerHazard 3) := by decide

theorem test_M29m :
    ({ code := [0xD0, 0x53, 0x73], regs := [(3, 0x2004)], strict := false } : Start).gives [(3, 0x2000)]
    { n := some false, z := some false, v := some false } 0x1003 [(0x2000, [0x04, 0x20, 0x00, 0x00])] := by decide

theorem test_M34c :
    isFault (step ({ code := [0xD0, 0x50, 0x9F, 0x00, 0x40, 0x00, 0x00], regs := [(0, 0x0)] } : Start).state) (.accessViolation 0x4000 .write) := by decide

theorem test_M36a :
    isRefused (step ({ code := [0x01] } : Start).state) (.opcodeNotInMap 0x01 none) := by decide

theorem test_M36b :
    isRefused (step ({ code := [0xFD, 0x32] } : Start).state) (.opcodeNotInMap 0xFD (some 0x32)) := by decide

theorem test_M41 :
    isRefused (step ({ code := [0xD0, 0x8F] } : Start).state) (.fetchOutsideCode 0x1002) := by decide

theorem test_M26a :
    isRefused (step ({ code := [0xD0, 0x5F, 0x50] } : Start).state) .unpredictablePCRegisterMode := by decide

theorem test_T3 :
    ({ code := [0x90, 0x51, 0x50], regs := [(1, 0x1280), (0, 0x0)] } : Start).gives [(0, 0x80)]
    { n := some true, z := some false, v := some false } 0x1003 := by decide

theorem test_T4 :
    ({ code := [0xB0, 0x51, 0x9F, 0x04, 0x20, 0x00, 0x00], regs := [(1, 0xaabbccdd)], data := pat } : Start).gives []
    { n := some true, z := some false, v := some false } 0x1007 [(0x2004, [0xDD, 0xCC])] := by decide

theorem test_T1 :
    ({ code := [0xD0, 0x51, 0x50], regs := [(1, 0x80000000)], flags := { c := some true } } : Start).gives [(0, 0x80000000)]
    { n := some true, z := some false, v := some false, c := some true } 0x1003 := by decide

theorem test_T5 :
    ({ code := [0x7D, 0x50, 0x52], regs := [(0, 0x0), (1, 0x80000000)] } : Start).gives [(2, 0x0), (3, 0x80000000)]
    { n := some true, z := some false, v := some false } 0x1003 := by decide

theorem test_T6 :
    ({ code := [0x7D, 0x81, 0x62], regs := [(1, 0x2000), (2, 0x2010)], data := pat } : Start).gives [(1, 0x2008)]
    { n := some false, z := some false, v := some false } 0x1003 [(0x2010, [0x78, 0x56, 0x34, 0x12, 0x10, 0x20, 0x00, 0x00])] := by decide

theorem test_T8 :
    ({ code := [0x9B, 0x8F, 0x80, 0x50], regs := [(0, 0xffffffff)] } : Start).gives [(0, 0xffff0080)]
    { n := some false, z := some false, v := some false } 0x1004 := by decide

theorem test_T7 :
    ({ code := [0x9A, 0x51, 0x50], regs := [(1, 0xffffff00)] } : Start).gives [(0, 0x0)]
    { n := some false, z := some true, v := some false } 0x1003 := by decide

theorem test_T9 :
    ({ code := [0x9E, 0xAF, 0x00, 0x50] } : Start).gives [(0, 0x1003)]
    { n := some false, z := some false, v := some false } 0x1004 := by decide

theorem test_T12 :
    ({ code := [0xDE, 0x7E, 0x50], regs := [(14, 0x3000)] } : Start).gives [(14, 0x2ffc), (0, 0x2ffc)]
    { n := some false, z := some false, v := some false } 0x1003 := by decide

theorem test_T13 :
    ({ code := [0xDD, 0x5E], regs := [(14, 0x3000)] } : Start).gives [(14, 0x2ffc)]
    { n := some false, z := some false, v := some false } 0x1002 [(0x2ffc, [0x00, 0x30, 0x00, 0x00])] := by decide

theorem test_T15 :
    isFault (step ({ code := [0xDD, 0x50], regs := [(0, 0x1), (14, 0x2002)] } : Start).state) (.accessViolation 0x1FFE .write) := by decide

theorem test_A5 :
    ({ code := [0x80, 0x8F, 0x80, 0x50], regs := [(0, 0x80)] } : Start).gives [(0, 0x0)]
    { n := some false, z := some true, v := some true, c := some true } 0x1004 := by decide

theorem test_A1 :
    ({ code := [0xC0, 0x51, 0x50], regs := [(0, 0x7fffffff), (1, 0x1)] } : Start).gives [(0, 0x80000000)]
    { n := some true, z := some false, v := some true, c := some false } 0x1003 := by decide

theorem test_A1v :
    isFault (step ({ code := [0xC0, 0x51, 0x50], regs := [(0, 0x7fffffff), (1, 0x1)], iv := true } : Start).state) .integerOverflow := by decide

theorem test_A6 :
    ({ code := [0xC1, 0x01, 0x02, 0x50] } : Start).gives [(0, 0x3)]
    { n := some false, z := some false, v := some false, c := some false } 0x1004 := by decide

theorem test_A10 :
    ({ code := [0x82, 0x01, 0x63], regs := [(3, 0x2003)], data := pat } : Start).gives []
    { n := some false, z := some false, v := some false, c := some false } 0x1003 [(0x2003, [0x11])] := by decide

theorem test_A7 :
    ({ code := [0xC2, 0x51, 0x50], regs := [(0, 0x80000000), (1, 0x1)] } : Start).gives [(0, 0x7fffffff)]
    { n := some false, z := some false, v := some true, c := some false } 0x1003 := by decide

theorem test_A9 :
    ({ code := [0xC3, 0x51, 0x52, 0x53], regs := [(1, 0xa), (2, 0x3)] } : Start).gives [(3, 0xfffffff9)]
    { n := some true, z := some false, v := some false, c := some true } 0x1004 := by decide

theorem test_A13 :
    ({ code := [0xB1, 0x51, 0x50], regs := [(0, 0x18000), (1, 0x27fff)] } : Start).gives []
    { n := some false, z := some false, v := some false, c := some true } 0x1003 := by decide

theorem test_A12 :
    ({ code := [0xD1, 0x01, 0x8F, 0xFF, 0xFF, 0xFF, 0xFF] } : Start).gives []
    { n := some false, z := some false, v := some false, c := some true } 0x1007 := by decide

theorem test_A14 :
    ({ code := [0x95, 0x8F, 0x80] } : Start).gives []
    { n := some true, z := some false, v := some false, c := some false } 0x1003 := by decide

theorem test_A15 :
    ({ code := [0xD5, 0x50], regs := [(0, 0x80000000)] } : Start).gives []
    { n := some true, z := some false, v := some false, c := some false } 0x1002 := by decide

theorem test_H1 :
    ({ code := [0x78, 0x8F, 0x20, 0x51, 0x52], regs := [(1, 0x1)] } : Start).gives [(2, 0x0)]
    { n := some false, z := some true, v := some true, c := some false } 0x1005 := by decide

theorem test_H3 :
    ({ code := [0x78, 0x8F, 0xE1, 0x51, 0x52], regs := [(1, 0x80000000)] } : Start).gives [(2, 0xffffffff)]
    { n := some true, z := some false, v := some false, c := some false } 0x1005 := by decide

theorem test_H10 :
    ({ code := [0x79, 0x8F, 0xFC, 0x52, 0x54], regs := [(2, 0x0), (3, 0x80000000)] } : Start).gives [(4, 0x0), (5, 0xf8000000)]
    { n := some true, z := some false, v := some false, c := some false } 0x1005 := by decide

theorem test_H12 :
    ({ code := [0x79, 0x8F, 0x20, 0x52, 0x54], regs := [(2, 0x1), (3, 0x0)] } : Start).gives [(4, 0x0), (5, 0x1)]
    { n := some false, z := some false, v := some false, c := some false } 0x1005 := by decide

theorem test_K3 :
    isFault (step ({ code := [0x94, 0x50] } : Start).state) (.unwrittenRead (.reg 0)) := by decide

theorem test_K1 :
    ({ code := [0xD4, 0x61], regs := [(1, 0x2000)], data := pat, flags := { c := some true } } : Start).gives []
    { n := some false, z := some true, v := some false, c := some true } 0x1002 [(0x2000, [0x00, 0x00, 0x00, 0x00])] := by decide

theorem test_K2 :
    ({ code := [0x7C, 0x61], regs := [(1, 0x2004)], data := pat } : Start).gives []
    { n := some false, z := some true, v := some false } 0x1002 [(0x2004, [0x00, 0x00, 0x00, 0x00, 0x00, 0x00, 0x00, 0x00])] := by decide

theorem test_V1 :
    ({ code := [0x99, 0x61, 0x50], regs := [(1, 0x2008), (0, 0x0)], data := pat } : Start).gives [(0, 0xffef)]
    { n := some true, z := some false, v := some false, c := some false } 0x1003 := by decide

theorem test_V2 :
    ({ code := [0x98, 0x8F, 0xFF, 0x50] } : Start).gives [(0, 0xffffffff)]
    { n := some true, z := some false, v := some false, c := some false } 0x1004 := by decide

theorem test_B1 :
    ({ code := [0x13, 0x05], flags := { z := some true } } : Start).gives [] { z := some true }
    0x1007 := by decide

theorem test_B3 :
    isFault (step ({ code := [0x13, 0x05] } : Start).state) (.unwrittenRead (.flag .z)) := by decide

theorem test_B4 :
    ({ code := [0x12, 0xFC], flags := { z := some false } } : Start).gives [] { z := some false }
    0xffe := by decide

theorem test_B7 :
    ({ code := [0x15, 0x10], flags := { n := some false, z := some true } } : Start).gives []
    { n := some false, z := some true } 0x1012 := by decide

theorem test_B8 :
    ({ code := [0x15, 0x10], flags := { n := some false, z := some false } } : Start).gives []
    { n := some false, z := some false } 0x1002 := by decide

theorem test_B9 :
    ({ code := [0x18, 0x80], flags := { n := some false } } : Start).gives [] { n := some false }
    0xf82 := by decide

theorem test_B14 :
    ({ code := [0x11, 0x80] } : Start).gives [] {}
    0xf82 := by decide

theorem test_B17 :
    ({ code := [0x31, 0x00, 0x80] } : Start).gives [] {}
    0xffff9003 := by decide

theorem test_G5 :
    ({ code := [0x17, 0x9E], regs := [(14, 0x2004)], data := pat } : Start).gives [(14, 0x2008)] {}
    0x2010 := by decide

theorem test_G8 :
    ({ code := [0x17, 0x41, 0x62], regs := [(1, 0x3), (2, 0x1000)] } : Start).gives [] {}
    0x1003 := by decide

theorem test_L1 :
    ({ code := [0xF3, 0x0A, 0x50, 0xFB], regs := [(0, 0x3)], flags := { c := some true }, base := 0x1010 } : Start).gives [(0, 0x4)]
    { n := some false, z := some false, v := some false, c := some true } 0x100f := by decide

theorem test_L5v :
    isFault (step ({ code := [0xF3, 0x00, 0x50, 0xFB], regs := [(0, 0x7fffffff)], iv := true, base := 0x1010 } : Start).state) .integerOverflow := by decide

theorem test_J3 :
    ({ code := [0x16, 0x9E], regs := [(14, 0x2004)], data := pat } : Start).gives [(14, 0x2004)] {}
    0x2010 [(0x2004, [0x02, 0x10, 0x00, 0x00])] := by decide

theorem test_J4 :
    isFault (step ({ code := [0x16, 0x50], regs := [(0, 0x0), (14, 0x3000)] } : Start).state) (.reservedAddressingMode 0x50) := by decide

theorem test_M36c :
    isRefused (step ({ code := [0xFB, 0x00, 0x5F] } : Start).state) (.unmodelled .calls) := by decide

theorem test_X1 :
    isRefused (step ({ code := [0x8F, 0x50, 0x00, 0x03] } : Start).state) (.unmodelled .caseb) := by decide

theorem test_X2 :
    isRefused (step ({ code := [0x04] } : Start).state) (.unmodelled .ret) := by decide

theorem test_X3 :
    isRefused (step ({ code := [0x40, 0x51, 0x52] } : Start).state) (.unmodelled .addf2) := by decide

theorem test_X4 :
    isRefused (step ({ code := [0x55] } : Start).state) (.unmodelled .polyf) := by decide

/-! ## Steps of the instructions that have no vector: expected results by hand from the rules named -/

/-- R101, R105, R161. -/
theorem test_movaw_scales_index :
    ({ code := [0x3E, 0x44, 0x63, 0x50], regs := [(3, 0x2000), (4, 2)] } : Start).gives [(0, 0x2004)]
    { n := some false, z := some false, v := some false } 0x1004 := by decide

/-- R101, R105, R163. -/
theorem test_movaq_scales_index :
    ({ code := [0x7E, 0x44, 0x63, 0x50], regs := [(3, 0x2000), (4, 2)] } : Start).gives [(0, 0x2010)]
    { n := some false, z := some false, v := some false } 0x1004 := by decide

/-- R22, R170, R172. -/
theorem test_addb3_keeps_high_bits :
    ({ code := [0x81, 0x51, 0x52, 0x53], regs := [(1, 0x1FF), (2, 0x302), (3, 0xAABBCCDD)] } : Start).gives [(3, 0xAABBCC01)]
    { n := some false, z := some false, v := some false, c := some true } 0x1004 := by decide

/-- R170, R173. -/
theorem test_addw2_overflow :
    ({ code := [0xA0, 0x01, 0x50], regs := [(0, 0x7FFF)] } : Start).gives [(0, 0x8000)]
    { n := some true, z := some false, v := some true, c := some false } 0x1003 := by decide

/-- R170, R174. -/
theorem test_addw3_carry :
    ({ code := [0xA1, 0x51, 0x52, 0x53], regs := [(1, 0xFFFF), (2, 1), (3, 0x12345678)] } : Start).gives [(3, 0x12340000)]
    { n := some false, z := some true, v := some false, c := some true } 0x1004 := by decide

/-- R177, R179. -/
theorem test_subb3_subtrahend_first :
    ({ code := [0x83, 0x51, 0x52, 0x53], regs := [(1, 1), (2, 0x80), (3, 0)] } : Start).gives [(3, 0x7F)]
    { n := some false, z := some false, v := some true, c := some false } 0x1004 := by decide

/-- R22, R177, R180. -/
theorem test_subw2_borrow :
    ({ code := [0xA2, 0x01, 0x50], regs := [(0, 0xFFFF0000)] } : Start).gives [(0, 0xFFFFFFFF)]
    { n := some true, z := some false, v := some false, c := some true } 0x1003 := by decide

/-- R177, R181. -/
theorem test_subw3_no_borrow :
    ({ code := [0xA3, 0x51, 0x52, 0x53], regs := [(1, 3), (2, 10), (3, 0)] } : Start).gives [(3, 7)]
    { n := some false, z := some false, v := some false, c := some false } 0x1004 := by decide

/-- R184, R185. -/
theorem test_cmpb_low_byte_only :
    ({ code := [0x91, 0x51, 0x52], regs := [(1, 0x180), (2, 0x27F)] } : Start).gives []
    { n := some true, z := some false, v := some false, c := some false } 0x1003 := by decide

/-- R188, R190. -/
theorem test_tstw_zero_low_word :
    ({ code := [0xB5, 0x51], regs := [(1, 0x10000)] } : Start).gives []
    { n := some false, z := some true, v := some false, c := some false } 0x1002 := by decide

/-- R22, R195, R197. -/
theorem test_clrw_keeps_high_word :
    ({ code := [0xB4, 0x51], regs := [(1, 0x12345678)], flags := { c := some true } } : Start).gives [(1, 0x12340000)]
    { n := some false, z := some true, v := some false, c := some true } 0x1002 := by decide

/-! ## Witnesses: a state and operands that meet each statement's hypotheses -/

/-- A state for the witnesses: every register and flag holds a value, 32 bytes of code at the program counter. -/
def ready : State :=
  ({ code := List.replicate 32 0, data := pat,
     regs := [(0, 0x2000), (1, 0x2004), (2, 0x2008), (3, 0x7F), (4, 2), (5, 0x7FFF), (6, 0x7FFFFFFF), (7, 0x80),
       (8, 0x8000), (9, 0x80000000), (10, 0x2FFE), (11, 0x2010), (12, 0x2FFF), (13, 0x2018), (14, 0x2800)],
     flags := { n := some false, z := some false, v := some false, c := some false } } : Start).state

/-- The same with the overflow trap enabled. -/
def readyIV : State := { ready with iv := true }

/-- The same with a setting of `SHORT_LITERAL_EXT`. -/
def readyExt (e : ShortLiteralExt) : State := { ready with params := { ready.params with shortLiteralExt := e } }

/-- A state in which only `r0` and `r14` hold values, and no flag. -/
def bare : State := ({ code := List.replicate 32 0, regs := [(0, 0x2000), (14, 0x2800)] } : Start).state

theorem fetchable_of {s : State} {n : Nat} (h : ((List.range n).all fun k =>
    s.isCode (s.pc + BitVec.ofNat 32 k) && s.isReadable (s.pc + BitVec.ofNat 32 k)) = true) : s.Fetchable n := by
  simp only [List.all_eq_true, List.mem_range, Bool.and_eq_true] at h
  exact h

theorem readable_of {s : State} {a : Word} {n : Nat}
    (h : ((List.range n).all fun k => s.isReadable (a + BitVec.ofNat 32 k)) = true) : s.ReadableFrom a n := by
  simp only [List.all_eq_true, List.mem_range] at h
  exact h

theorem writable_of {s : State} {a : Word} {n : Nat} (h : ((List.range n).all fun k =>
    s.isWritable (a + BitVec.ofNat 32 k) && !s.isCode (a + BitVec.ofNat 32 k)) = true) : s.WritableFrom a n := by
  simp only [List.all_eq_true, List.mem_range, Bool.and_eq_true, Bool.not_eq_true'] at h
  exact h

theorem ok_of {x : Except Stop State} (h : x.isOk = true) : ∃ u, x = .ok u := by
  cases x with
  | ok u => exact ⟨u, rfl⟩
  | error e => cases h

/-- The outcome is a next state. -/
def goesOn (o : Host.Outcome State Fault Refusal) : Bool :=
  match o with
  | .next _ => true
  | .fault _ => false
  | .refused _ => false

theorem next_of {o : Host.Outcome State Fault Refusal} (h : goesOn o = true) : ∃ t, o = .next t := by
  cases o with
  | next t => exact ⟨t, rfl⟩
  | fault f => cases h
  | refused r => cases h

/-- A source in memory that steps its register, and a destination in memory that steps another. -/
abbrev src : Spec := .mem (.autoincrement 0)

/-- See `src`. -/
abbrev dst : Spec := .mem (.autodecrement 14)

/-! ### Encoding and the step -/

theorem witness_DecodeEncode :
    (Instr.movq (.immediate 0xFFFFFFFFFFFFFFFF) (.index 4 (.forbidden 0x8F))).opcode? ≠ none ∧
      (Instr.movq (.immediate 0xFFFFFFFFFFFFFFFF) (.index 4 (.forbidden 0x8F))).wf = true := by decide

theorem witness_SpecifierBytesAreItsEncoding : 17 ≤ (List.replicate 17 (0x8F : Byte)).length := by decide

theorem witness_InstructionLength :
    (∀ rx b, Spec.index 4 (.mem (.absolute 0x2000)) ≠ .index rx (.forbidden b)) ∧ (Instr.tstl dst).opcode? ≠ none :=
  ⟨nofun, by decide⟩

theorem witness_StepRunsDecodedInstruction :
    let i := Instr.movl (.literal 5) (.register 0)
    let s := ({ code := [0xD0, 0x05, 0x50] } : Start).state
    i.opcode? = some .movl ∧ i.wf = true ∧ isEscape 0xD0 = false ∧ s.params.opcodeMap.lookup 0xD0 = some .movl ∧
      s.pc ≠ s.params.endPC ∧ windowFrom s.mem s.pc (encode i).length = 0xD0 :: (encode i).tail := by decide

theorem witness_StepAtEndStays : (({ code := [] } : Start).state).pc = (({ code := [] } : Start).state).params.endPC := by
  decide

theorem witness_UnknownOpcodeRefused :
    (let s := ({ code := [0x01] } : Start).state
     s.pc ≠ s.params.endPC ∧ s.Fetchable 1 ∧ isEscape (s.byteAt s.pc) = false ∧
       s.params.opcodeMap.lookup (s.byteAt s.pc) = none) ∧
    ∀ b ∈ [(0xFD : Byte), 0xFE, 0xFF],
      let s := ({ code := [b, 0x32] } : Start).state
      s.pc ≠ s.params.endPC ∧ s.Fetchable 2 ∧ s.byteAt s.pc = b := by
  refine ⟨⟨by decide, fetchable_of (by decide), by decide, by decide⟩, fun b hb => ⟨?_, fetchable_of ?_, ?_⟩⟩ <;>
    revert b <;> decide

theorem witness_OpcodeFetchChecked :
    (let s := ({ code := [0x01] } : Start).state.setPc 0x2000
     s.pc ≠ s.params.endPC ∧ s.isCode s.pc = false) ∧
    let s := { ready with params := { ready.params with readable := [] } }
    s.pc ≠ s.params.endPC ∧ s.isCode s.pc = true ∧ s.isReadable s.pc = false := by decide

theorem witness_named : ∀ op ∈ [Opcode.caseb, .casew, .casel, .calls, .callg, .ret, .addf2, .addf3, .addd2, .addd3, .subd2,
    .subd3, .mulf2, .mulf3, .polyf, .crc, .insque],
    let s := ({ code := [op.byte] } : Start).state
    s.Fetchable 1 ∧ s.params.opcodeMap = defaultOpcodeMap ∧ s.pc ≠ s.params.endPC ∧ s.byteAt s.pc = op.byte := by
  intro op h
  refine ⟨fetchable_of ?_, rfl, ?_, ?_⟩ <;> revert op <;> decide

/-! ### Invariants -/

/-- A start whose step stores, and steps a register. -/
def storing : State := ({ code := [0xD0, 0x50, 0x73], regs := [(0, 0xA1B2C3D4), (3, 0x2008)], data := pat } : Start).state

theorem witness_step_keeps : storing.Canonical ∧ (∃ t, step storing = .next t) ∧
    storing.isWritable 0x1000 = false ∧ storing.isCode 0x1000 = true :=
  ⟨rfl, next_of (by decide), by decide, by decide⟩

theorem witness_NoUnwrittenReadWhenAllWritten :
    State.reset.AllWritten ∧ (∃ t, step (State.reset.withFetchWord 24 0x5005D0) = .next t) ∧
      (State.reset.withFetchWord 24 0x5005D0).AllWritten ∧
      State.reset.isWritten 0 = true ∧ State.reset.ccWritten.get .c = true := by
  refine ⟨⟨by decide, fun f => by cases f <;> rfl⟩, next_of (by decide), ⟨?_, fun f => by cases f <;> rfl⟩, by decide, by decide⟩
  decide

theorem witness_WhatMayBeRaised :
    isFault (exec (.addl2 (.literal 1) (.register 6)) readyIV) .integerOverflow = true ∧ ready.iv = false ∧
      isFault (exec (.beql 5) bare) (.unwrittenRead (.flag .z)) = true ∧
      isRefused (exec (.brw 5) (ready.setPc 0x101E)) (.fetchOutsideCode 0x1020) = true := by decide

/-! ### Memory and registers -/

theorem witness_MemReadRule : ready.ReadableFrom 0x2000 4 ∧
    ready.ReadableFrom 0x2FFE 2 ∧ ready.isReadable (0x2FFE + BitVec.ofNat 32 2) = false :=
  ⟨readable_of (by decide), readable_of (by decide), by decide⟩

theorem witness_MemWriteRule : ready.Canonical ∧ ready.WritableFrom 0x2000 16 ∧
    (ready.WritableFrom 0x2FFE 2 ∧ ready.isWritable (0x2FFE + BitVec.ofNat 32 2) = false) ∧
    (let s := { ready with params := { ready.params with writable := [⟨0x0FFE, 0x2000⟩] } }
     s.WritableFrom 0x0FFE 2 ∧ s.isWritable (0x0FFE + BitVec.ofNat 32 2) = true ∧
       s.isCode (0x0FFE + BitVec.ofNat 32 2) = true) ∧
    ¬ Among 0x2004 0x2000 4 := by
  refine ⟨rfl, writable_of (by decide), ⟨writable_of (by decide), by decide⟩,
    ⟨writable_of (by decide), by decide, by decide⟩, ?_⟩
  rintro ⟨k, hk, h⟩
  have : k = 0 ∨ k = 1 ∨ k = 2 ∨ k = 3 := by omega
  rcases this with rfl | rfl | rfl | rfl <;> revert h <;> decide

theorem witness_LittleEndianReadBack : ready.Canonical ∧
    ∃ t, memWrite 0x2002 4 0xA1B2C3D4#32 ready = .ok t ∧ t.ReadableFrom 0x2002 4 := by
  refine ⟨rfl, _, memWrite_ok.2 ⟨writable_of (by decide), rfl⟩, readable_of (by decide)⟩

theorem witness_RegisterOperands : ready.isWritten 13 = true ∧ (13 : Reg).val < 14 ∧ ready.isWritten (13 + 1) = true ∧
    (11 : Reg).val < 12 ∧ ready.isWritten 11 = true ∧ ready.isWritten (11 + 1) = true ∧ ready.isWritten (11 + 2) = true ∧
    ready.isWritten (11 + 3) = true := by decide

/-! ### The addressing modes -/

theorem witness_LiteralMode : (∀ e, (readyExt e).Fetchable 1 ∧ (readyExt e).params.shortLiteralExt = e) ∧
    Access.w ≠ .r ∧ DType.isFloat .h = true ∧ DType.isFloat .b = false ∧ (31 : BitVec 6).toNat < 32 ∧
    32 ≤ (32 : BitVec 6).toNat :=
  ⟨fun e => ⟨fetchable_of (by cases e <;> decide), rfl⟩, by decide, by decide, by decide, by decide, by decide⟩

theorem witness_IndexMode : ready.Fetchable 2 ∧ (4 : Reg) ≠ pcReg ∧ (0x5F : Byte) ≠ 0x8F#8 ∧ Gpr.reg 4 = 4 ∧
    ready.isWritten 4 = true ∧ (MemSpec.registerDeferred 11 ≠ .autodecrement 4) ∧
    (∀ n : Gpr, n.reg = 4 → MemSpec.registerDeferred 11 ≠ .autoincrement n ∧
      MemSpec.registerDeferred 11 ≠ .autoincrementDeferred n) ∧
    ∃ a c, evalSpec .r .l (.mem (.registerDeferred 11)) (Ctx.start (ready.advance 1)) = .ok (.mem a, c) ∧
      c.st.ReadableFrom (a + ready.reg 4 * BitVec.ofNat 32 4) 4 :=
  ⟨fetchable_of (by decide), by decide, by decide, by decide, by decide, nofun, fun _ _ => ⟨nofun, nofun⟩,
    0x2010, Ctx.start (ready.advance 2), by rfl, readable_of (by decide)⟩

theorem witness_IndexMode_completes : Operand.Ready ready ⟨.r, .l, .index 4 (.mem (.registerDeferred 11))⟩ :=
  ⟨⟨⟨by decide, ⟨nofun, nofun⟩, nofun⟩, fetchable_of (by decide), fun m e => by
      cases e
      exact ⟨⟨nofun, nofun⟩, fun n e => by cases e; decide, nofun⟩, fun rx b e => by cases e; decide⟩,
    fun _ => readable_of (by decide)⟩

theorem witness_RegisterMode : ready.Fetchable 1 ∧ (13 : Reg) ≠ pcReg ∧ (DType.size .q = 8 ∧ 14 ≤ (14 : Reg).val) ∧
    (DType.size .o = 16 ∧ 12 ≤ (12 : Reg).val) ∧ (DType.size .q = 8 → (13 : Reg).val < 14) ∧
    (DType.size .o = 16 → (11 : Reg).val < 12) ∧
    ∀ k ∈ (List.range ((DType.size .o + 3) / 4)).map (fun k => (11 : Reg) + Fin.ofNat 16 k), ready.isWritten k = true :=
  ⟨fetchable_of (by decide), by decide, by decide, by decide, by decide, by decide, by decide⟩

/-- The hypotheses of a mode that designates memory: the operand can be read, or its byte `k` is the first that cannot. -/
def ModeMet (t : State) (a b : Word) (n k : Nat) : Prop :=
  t.ReadableFrom a n ∧ k < n ∧ t.ReadableFrom b k ∧ t.isReadable (b + BitVec.ofNat 32 k) = false

theorem modeMet_of {t : State} {a b : Word} {n k : Nat}
    (h1 : ((List.range n).all fun k => t.isReadable (a + BitVec.ofNat 32 k)) = true) (hk : k < n)
    (h2 : ((List.range k).all fun k => t.isReadable (b + BitVec.ofNat 32 k)) = true)
    (h3 : t.isReadable (b + BitVec.ofNat 32 k) = false) : ModeMet t a b n k :=
  ⟨readable_of h1, hk, readable_of h2, h3⟩

/-- `r1` points at data, `r10` two bytes before the end of the readable region; a byte and a longword that straddles it. -/
theorem witness_register_modes : ready.Fetchable 1 ∧ (1 : Reg) ≠ pcReg ∧ ready.isWritten 1 = true ∧
    ready.isWritten 10 = true ∧ ModeMet (ready.advance 1) (ready.reg 1) (ready.reg 10) 4 2 ∧
    ModeMet (ready.advance 1) (ready.reg 11 - 8) 0x2FFC 8 4 :=
  ⟨fetchable_of (by decide), by decide, by decide, by decide,
    modeMet_of (by decide) (by decide) (by decide) (by decide),
    modeMet_of (by decide) (by decide) (by decide) (by decide)⟩

/-- Pointers: the longword at 2004 is 2010, which is readable; that at 2FFE cannot be read whole. -/
theorem witness_deferred_modes : ready.Fetchable 5 ∧ ready.isWritten (Gpr.reg 1) = true ∧
    memRead (ready.reg 1) 4 ready = .ok 0x2010 ∧ ModeMet ready 0x2010 0x2FFF 4 1 ∧
    ready.ReadableFrom 0x2FFE 2 ∧ ready.isReadable (0x2FFE + BitVec.ofNat 32 2) = false :=
  ⟨fetchable_of (by decide), by decide, by rfl, modeMet_of (by decide) (by decide) (by decide) (by decide),
    readable_of (by decide), by decide⟩

theorem witness_ImmediateMode : ready.Fetchable (1 + DType.size .o) ∧ ready.Fetchable 1 ∧ Access.m ≠ .r :=
  ⟨fetchable_of (by decide), fetchable_of (by decide), by decide⟩

/-! ### The instructions -/

/-- An instruction's operands can be evaluated and its destination written: two operands. -/
def Met2 (t u : DType) (mk : Spec → Spec → Instr) (x y : Spec) (s : State) : Prop :=
  (mk x y).Ready s ∧ (y.loc u (x.after t s.start)).Writable (y.after u (x.after t s.start))

/-- The same for three operands. -/
def Met3 (t u : DType) (mk : Spec → Spec → Spec → Instr) (x y z : Spec) (s : State) : Prop :=
  (mk x y z).Ready s ∧ (z.loc u (y.after u (x.after t s.start))).Writable (z.after u (y.after u (x.after t s.start)))

theorem met_mov {t : DType} {x y : Spec} {s : State} (h : (mov t x y s).isOk = true) :
    OpsReady s [⟨.r, t, x⟩, ⟨.w, t, y⟩] ∧ (y.loc t (x.after t s.start)).Writable (y.after t (x.after t s.start)) := by
  obtain ⟨u, hu⟩ := ok_of h
  exact ⟨(mov_ok.1 hu).1, (mov_ok.1 hu).2.1⟩

theorem met_movzb {t : DType} {x y : Spec} {s : State} (h : (movzb t x y s).isOk = true) :
    OpsReady s [⟨.r, .b, x⟩, ⟨.w, t, y⟩] ∧ (y.loc t (x.after .b s.start)).Writable (y.after t (x.after .b s.start)) := by
  obtain ⟨u, hu⟩ := ok_of h
  exact ⟨(movzb_ok.1 hu).1, (movzb_ok.1 hu).2.1⟩

theorem met_mova {t : DType} {x y : Spec} {s : State} (h : (mova t x y s).isOk = true) :
    OpsReady s [⟨.a, t, x⟩, ⟨.w, .l, y⟩] ∧ (y.loc .l (x.after t s.start)).Writable (y.after .l (x.after t s.start)) := by
  obtain ⟨u, hu⟩ := ok_of h
  obtain ⟨hr, a, -, hw, -⟩ := mova_ok.1 hu
  exact ⟨hr, hw⟩

theorem met_add2 {t : DType} {x y : Spec} {s : State} (h : (add2 t x y s).isOk = true) :
    OpsReady s [⟨.r, t, x⟩, ⟨.m, t, y⟩] ∧ (y.loc t (x.after t s.start)).Writable (y.after t (x.after t s.start)) := by
  obtain ⟨u, hu⟩ := ok_of h
  exact ⟨(add2_ok.1 hu).1, (addInto_ok.1 (add2_ok.1 hu).2).1⟩

theorem met_add3 {t : DType} {x y z : Spec} {s : State} (h : (add3 t x y z s).isOk = true) :
    OpsReady s [⟨.r, t, x⟩, ⟨.r, t, y⟩, ⟨.w, t, z⟩] ∧
      (z.loc t (y.after t (x.after t s.start))).Writable (z.after t (y.after t (x.after t s.start))) := by
  obtain ⟨u, hu⟩ := ok_of h
  exact ⟨(add3_ok.1 hu).1, (addInto_ok.1 (add3_ok.1 hu).2).1⟩

theorem met_ash {t : DType} {x y z : Spec} {s : State} (h : (ash t x y z s).isOk = true) :
    OpsReady s [⟨.r, .b, x⟩, ⟨.r, t, y⟩, ⟨.w, t, z⟩] ∧
      (z.loc t (y.after t (x.after .b s.start))).Writable (z.after t (y.after t (x.after .b s.start))) := by
  obtain ⟨u, hu⟩ := ok_of h
  exact ⟨(ash_ok.1 hu).1, (ash_ok.1 hu).2.1⟩

theorem witness_MovCompletes : Met2 .b .b .movb src dst ready ∧ Met2 .w .w .movw src dst ready ∧
    Met2 .l .l .movl src dst ready ∧ Met2 .q .q .movq src dst ready :=
  ⟨met_mov (by decide), met_mov (by decide), met_mov (by decide), met_mov (by decide)⟩

theorem witness_ByteExtensionsComplete : Met2 .b .w .movzbw src dst ready ∧ Met2 .b .l .movzbl src dst ready ∧
    Met2 .b .w .cvtbw src dst ready ∧ Met2 .b .l .cvtbl src dst ready :=
  ⟨met_movzb (by decide), met_movzb (by decide), met_movzb (by decide), met_movzb (by decide)⟩

/-- `r9` is 80000000, where nothing is readable. -/
theorem witness_MovaCompletes : Met2 .b .l .movab (.mem (.registerDeferred 9)) dst ready ∧
    Met2 .w .l .movaw (.mem (.registerDeferred 9)) dst ready ∧ Met2 .l .l .moval (.mem (.registerDeferred 9)) dst ready ∧
    Met2 .q .l .movaq (.mem (.registerDeferred 9)) dst ready :=
  ⟨met_mova (by decide), met_mova (by decide), met_mova (by decide), met_mova (by decide)⟩

theorem witness_PushlCompletes : (Instr.pushl (.mem (.autoincrement 14))).Ready ready ∧
    let done := (Spec.mem (.autoincrement 14)).after .l ready.start
    done.isWritten spReg = true ∧ done.WritableFrom (done.reg spReg - 4) 4 := by
  obtain ⟨u, hu⟩ := ok_of (x := push (.mem (.autoincrement 14)) ready) (by decide)
  obtain ⟨hr, w, hp, -⟩ := push_ok.1 hu
  exact ⟨hr, (pushLongword_ok.1 hp).1, (pushLongword_ok.1 hp).2.1⟩

/-- `Met2`, and the operands do not overflow. The hypotheses of `Combines2`, with the trap enabled. -/
theorem witness_AddCompletes :
    (Met2 .b .b .addb2 src dst readyIV ∧ Claims.sumOverflows (src.read .b readyIV.start)
      (dst.read .b (src.after .b readyIV.start)) = false) ∧
    (Met2 .w .w .addw2 src dst readyIV ∧ Claims.sumOverflows (src.read .w readyIV.start)
      (dst.read .w (src.after .w readyIV.start)) = false) ∧
    (Met2 .l .l .addl2 src dst readyIV ∧ Claims.sumOverflows (src.read .l readyIV.start)
      (dst.read .l (src.after .l readyIV.start)) = false) ∧
    (Met3 .b .b .addb3 src (.literal 5) dst readyIV ∧ Claims.sumOverflows (src.read .b readyIV.start) 5#8 = false) ∧
    (Met3 .w .w .addw3 src (.literal 5) dst readyIV ∧ Claims.sumOverflows (src.read .w readyIV.start) 5#16 = false) ∧
    Met3 .l .l .addl3 src (.literal 5) dst readyIV ∧ Claims.sumOverflows (src.read .l readyIV.start) 5#32 = false :=
  ⟨⟨met_add2 (by decide), by decide⟩, ⟨met_add2 (by decide), by decide⟩, ⟨met_add2 (by decide), by decide⟩,
    ⟨met_add3 (by decide), by decide⟩, ⟨met_add3 (by decide), by decide⟩, met_add3 (by decide), by decide⟩

/-- With `IV` clear the third hypothesis of `Combines2` and `Combines3` holds of itself. -/
theorem witness_SubCompletes : ready.iv = false ∧ Met2 .b .b .subb2 src dst ready ∧ Met2 .w .w .subw2 src dst ready ∧
    Met2 .l .l .subl2 src dst ready ∧ Met3 .b .b .subb3 src (.register 3) dst ready ∧
    Met3 .w .w .subw3 src (.register 3) dst ready ∧ Met3 .l .l .subl3 src (.register 3) dst ready :=
  ⟨rfl, met_add2 (x := src) (by decide), met_add2 (x := src) (by decide), met_add2 (x := src) (by decide),
    met_add3 (x := src) (by decide), met_add3 (x := src) (by decide), met_add3 (x := src) (by decide)⟩

theorem met_rr {t : DType} {x y : Spec} {s : State} (h : (Machine.cmp t x y s).isOk = true) :
    OpsReady s [⟨.r, t, x⟩, ⟨.r, t, y⟩] := by
  obtain ⟨u, hu⟩ := ok_of h
  exact (cmp_ok.1 hu).1

theorem witness_CmpCompletes : (Instr.cmpb src dst).Ready ready ∧ (Instr.cmpw src dst).Ready ready ∧
    (Instr.cmpl src dst).Ready ready :=
  ⟨met_rr (t := .b) (by decide), met_rr (t := .w) (by decide), met_rr (t := .l) (by decide)⟩

theorem met_tst {t : DType} {x : Spec} {s : State} (h : (tst t x s).isOk = true) : OpsReady s [⟨.r, t, x⟩] := by
  obtain ⟨u, hu⟩ := ok_of h
  exact (tst_ok.1 hu).1

theorem witness_TstCompletes : (Instr.tstb src).Ready ready ∧ (Instr.tstw src).Ready ready ∧ (Instr.tstl src).Ready ready :=
  ⟨met_tst (by decide), met_tst (by decide), met_tst (by decide)⟩

theorem witness_AshCompletes : ready.iv = false ∧
    ((Instr.ashl (.register 3) src dst).Ready ready ∧
      (dst.loc .l (src.after .l ((Spec.register 3).after .b ready.start))).Writable
        (dst.after .l (src.after .l ((Spec.register 3).after .b ready.start)))) ∧
    (Instr.ashq (.register 3) src dst).Ready ready ∧
      (dst.loc .q (src.after .q ((Spec.register 3).after .b ready.start))).Writable
        (dst.after .q (src.after .q ((Spec.register 3).after .b ready.start))) :=
  ⟨rfl, met_ash (by decide), met_ash (by decide)⟩

theorem met_clr {t : DType} {x : Spec} {s : State} (h : (clr t x s).isOk = true) :
    OpsReady s [⟨.w, t, x⟩] ∧ (x.loc t s.start).Writable (x.after t s.start) := by
  obtain ⟨u, hu⟩ := ok_of h
  exact ⟨(clr_ok.1 hu).1, (clr_ok.1 hu).2.1⟩

theorem witness_ClrCompletes :
    ((Instr.clrb dst).Ready ready ∧ (dst.loc .b ready.start).Writable (dst.after .b ready.start)) ∧
    ((Instr.clrw dst).Ready ready ∧ (dst.loc .w ready.start).Writable (dst.after .w ready.start)) ∧
    ((Instr.clrl (.register 13)).Ready bare ∧
      (Spec.loc .l bare.start (.register 13)).Writable (Spec.after .l bare.start (.register 13))) ∧
    (Instr.clrq dst).Ready ready ∧ (dst.loc .q ready.start).Writable (dst.after .q ready.start) :=
  ⟨met_clr (by decide), met_clr (by decide), met_clr (t := .l) (by decide), met_clr (by decide)⟩

theorem witness_BranchesComplete : ready.Fetchable 3 ∧ ready.Fetchable 2 ∧
    ∀ f ∈ [Flag.n, .z], ready.ccWritten.get f = true :=
  ⟨fetchable_of (by decide), fetchable_of (by decide), by decide⟩

theorem met_jump {x : Spec} {s : State} (h : (jump x s).isOk = true) : OpsReady s [⟨.a, .b, x⟩] := by
  obtain ⟨u, hu⟩ := ok_of h
  exact (jump_ok.1 hu).1

theorem witness_JmpCompletes : (Instr.jmp (.mem (.registerDeferred 9))).Ready ready := met_jump (by decide)

theorem witness_AobleqCompletes : (Instr.aobleq src (.register 6) 0x80).Ready ready ∧
    let done := (Spec.register 6).after .l (src.after .l ready.start)
    done.Fetchable 1 ∧ ((Spec.register 6).loc .l (src.after .l ready.start)).Writable done ∧ ready.iv = false := by
  obtain ⟨u, hu⟩ := ok_of (x := addOneBranchLeq src (.register 6) 0x80 ready) (by decide)
  obtain ⟨hr, hf, -⟩ := addOneBranchLeq_ok.1 hu
  exact ⟨hr, hf, fun h => absurd h (by decide), rfl⟩

theorem witness_JsbCompletes : (Instr.jsb (.mem (.autoincrementDeferred 1))).Ready ready ∧
    let done := (Spec.mem (.autoincrementDeferred 1)).after .b ready.start
    done.isWritten spReg = true ∧ done.WritableFrom (done.reg spReg - 4) 4 :=
  ⟨met_jump (by decide), by decide, writable_of (by decide)⟩

/-- Operands that overflow, for each instruction that traps, with the trap enabled. -/
theorem witness_OverflowTraps : readyIV.iv = true ∧
    (∀ p ∈ [(DType.b, (3 : Reg), (7 : Reg)), (.w, 5, 8), (.l, 6, 9)],
      Claims.sumOverflows (Spec.read p.1 readyIV.start (.literal 1))
        (Spec.read p.1 (Spec.after p.1 readyIV.start (.literal 1)) (.register p.2.1)) = true ∧
      Claims.differenceOverflows (Spec.read p.1 (Spec.after p.1 readyIV.start (.literal 1)) (.register p.2.2))
        (Spec.read p.1 readyIV.start (.literal 1)) = true) ∧
    Claims.shiftOverflows (Spec.read .b readyIV.start (.literal 1))
      (Spec.read .l (Spec.after .b readyIV.start (.literal 1)) (.register 9)) = true ∧
    Claims.shiftOverflows (Spec.read .b readyIV.start (.literal 31))
      (Spec.read .q (Spec.after .b readyIV.start (.literal 31)) (.register 9)) = true ∧
    (Spec.read .l (Spec.after .l readyIV.start (.literal 1)) (.register 6) : Word) = 0x7FFFFFFF := by decide

theorem met_sub2 {t : DType} {x y : Spec} {s : State} (h : (sub2 t x y s).isOk = true) :
    OpsReady s [⟨.r, t, x⟩, ⟨.m, t, y⟩] := by
  obtain ⟨u, hu⟩ := ok_of h
  exact (sub2_ok.1 hu).1

theorem met_sub3 {t : DType} {x y z : Spec} {s : State} (h : (sub3 t x y z s).isOk = true) :
    OpsReady s [⟨.r, t, x⟩, ⟨.r, t, y⟩, ⟨.w, t, z⟩] := by
  obtain ⟨u, hu⟩ := ok_of h
  exact (sub3_ok.1 hu).1

/-- Those operands can be evaluated: `1` from the greatest number does not overflow, nor does `1` to the least. -/
theorem witness_OverflowTraps_sum :
    ((Instr.addb2 (.literal 1) (.register 3)).Ready readyIV ∧ (Instr.addw2 (.literal 1) (.register 5)).Ready readyIV ∧
      (Instr.addl2 (.literal 1) (.register 6)).Ready readyIV) ∧
    (Instr.addb3 (.literal 1) (.register 3) dst).Ready readyIV ∧ (Instr.addw3 (.literal 1) (.register 5) dst).Ready readyIV ∧
      (Instr.addl3 (.literal 1) (.register 6) dst).Ready readyIV :=
  ⟨⟨met_sub2 (t := .b) (by decide), met_sub2 (t := .w) (by decide), met_sub2 (t := .l) (by decide)⟩,
    met_sub3 (t := .b) (by decide), met_sub3 (t := .w) (by decide), met_sub3 (t := .l) (by decide)⟩

theorem witness_OverflowTraps_difference :
    ((Instr.subb2 (.literal 1) (.register 7)).Ready readyIV ∧ (Instr.subw2 (.literal 1) (.register 8)).Ready readyIV ∧
      (Instr.subl2 (.literal 1) (.register 9)).Ready readyIV) ∧
    (Instr.subb3 (.literal 1) (.register 7) dst).Ready readyIV ∧ (Instr.subw3 (.literal 1) (.register 8) dst).Ready readyIV ∧
      (Instr.subl3 (.literal 1) (.register 9) dst).Ready readyIV :=
  ⟨⟨(met_add2 (t := .b) (by decide)).1, (met_add2 (t := .w) (by decide)).1, (met_add2 (t := .l) (by decide)).1⟩,
    (met_add3 (t := .b) (by decide)).1, (met_add3 (t := .w) (by decide)).1, (met_add3 (t := .l) (by decide)).1⟩

/-- The rest of those hypotheses: the shifts and `aobleq` with `IV` set, and the destinations. -/
theorem witness_OverflowTraps_others :
    (Instr.ashl (.literal 1) (.register 9) dst).Ready readyIV ∧ (Instr.ashq (.literal 31) (.register 9) dst).Ready readyIV ∧
    (Instr.aobleq (.literal 1) (.register 6) 0).Ready readyIV ∧
    ((Spec.register 6).after .l ((Spec.literal 1).after .l readyIV.start)).Fetchable 1 ∧
    (dst.loc .l readyIV.start).Writable (dst.after .l readyIV.start) :=
  have h1 : (Instr.ashl (.literal 1) (.register 9) dst).Ready ready := (met_ash (by decide)).1
  have h2 : (Instr.ashq (.literal 31) (.register 9) dst).Ready ready := (met_ash (by decide)).1
  ⟨h1, h2, met_sub2 (t := .l) (by decide), fetchable_of (by decide), (met_clr (t := .l) (by decide)).2⟩

/-! ### Frames, hazards, unwritten state -/

/-- `addl3 (r0)+, r3, r2` changes `r0`, `r2` and the program counter; `r4` is one of the others. -/
theorem witness_DestinationFrame :
    let i := Instr.addl3 src (.register 3) (.register 2)
    i.destination = some ⟨.w, .l, .register 2⟩ ∧ (∃ t, exec i ready = .next t) ∧ (4 : Reg) ≠ pcReg ∧
      (∀ x ∈ i.operands, x.spec.steps ≠ some 4) ∧ (4 : Reg) ∉ (Spec.register 2).uses .l ∧ ready.Canonical ∧
      ∀ a, i.storeAddress ready ≠ some a :=
  ⟨by decide, next_of (by decide), by decide, by decide, by decide, rfl, nofun⟩

/-- `clrl -(sp)` stores at 27FC; 2800 is not among its bytes. -/
theorem witness_DestinationFrameMemory :
    (Instr.clrl dst).destination = some ⟨.w, .l, dst⟩ ∧ (∃ t, exec (.clrl dst) ready = .next t) ∧
      ∀ a, (Instr.clrl dst).storeAddress ready = some a → ¬ Among 0x2800 a 4 := by
  refine ⟨by decide, next_of (by decide), fun a ha => ?_⟩
  have h : (Instr.clrl dst).storeAddress ready = some 0x27FC := by decide
  rw [h] at ha
  cases ha
  rintro ⟨k, hk, h⟩
  have : k = 0 ∨ k = 1 ∨ k = 2 ∨ k = 3 := by omega
  rcases this with rfl | rfl | rfl | rfl <;> revert h <;> decide

theorem witness_FrameWithoutDestination :
    (Instr.cmpl src dst).opcode? = some .cmpl ∧ (∃ t, exec (.cmpl src dst) ready = .next t) ∧
      ∀ x ∈ (Instr.cmpl src dst).operands, x.spec.steps ≠ some 4 :=
  ⟨rfl, next_of (by decide), by decide⟩

/-- The four bytes of the push are 27FC to 27FF; 2800 is not one of them. -/
theorem witness_StackFrame : (∃ t, exec (.pushl src) ready = .next t) ∧ (∃ t, exec (.jsb src) ready = .next t) ∧
    ready.Canonical ∧ ((Instr.pushl src).operandsDone ready).reg spReg - 4 = 0x27FC ∧ (4 : Reg) ≠ spReg ∧
    ∀ x ∈ (Instr.jsb src).operands, x.spec.steps ≠ some 4 :=
  ⟨next_of (by decide), next_of (by decide), rfl, by decide, by decide, by decide⟩

theorem witness_SpecifierFrame : (Instr.specAutoincrement .m .l 1).opcode? = none ∧
    (∃ t, exec (.specAutoincrement .m .l 1) ready = .next t) ∧
    ∀ x ∈ (Instr.specAutoincrement .m .l 1).operands, x.spec.steps ≠ some 4 :=
  ⟨rfl, next_of (by decide), by decide⟩

theorem witness_FlagFrame : (∃ t, exec (.jmp dst) ready = .next t) ∧ (∃ t, exec (.aobleq src (.register 4) 0) ready = .next t) ∧
    ∃ t, exec (.tstl src) ready = .next t :=
  ⟨next_of (by decide), next_of (by decide), next_of (by decide)⟩

/-- `movl r0, (r0)+`: its operands can be evaluated, and `r0` is used and stepped. -/
theorem witness_RegisterHazardRefused :
    let i := Instr.movl (.register 0) src
    i.opcode? ≠ none ∧ ready.Fetchable 1 ∧ OperandsReady i.operands ready.start ∧ ready.params.strictRegHazard = true ∧
      (∃ o ∈ i.operands, o.spec.steps = some 0) ∧ (∃ o ∈ i.operands, (0 : Reg) ∈ o.spec.uses o.dt) ∧
      ∀ j < (0 : Reg), ¬ ((∃ o ∈ i.operands, o.spec.steps = some j) ∧ ∃ o ∈ i.operands, j ∈ o.spec.uses o.dt) := by
  obtain ⟨u, hu⟩ := ok_of (x := mov .l (.register 0) src { ready with params := { ready.params with strictRegHazard := false } })
    (by decide)
  exact ⟨by decide, fetchable_of (by decide), (mov_ok.1 hu).1.2.1, rfl, by decide, by decide, by decide⟩

theorem witness_UnwrittenReadFaults : bare.Fetchable 3 ∧ bare.ccWritten.z = false ∧ bare.ccWritten.n = false ∧
    (13 : Reg) ≠ pcReg ∧ bare.isWritten 13 = false ∧ bare.isWritten 0 = true ∧
    ({ bare with ccWritten := ⟨true, false, false, false⟩ } : State).ccWritten.n = true ∧
    (({ code := [0xDD, 0x00] } : Start).state).isWritten spReg = false :=
  ⟨fetchable_of (by decide), by decide, by decide, by decide, by decide, by decide, by decide, by decide⟩

/-- A state without a stack pointer, in which `r11`, `r12` and `r13` hold values. -/
def noStack : State :=
  ({ code := List.replicate 32 0, regs := [(11, 0x2000), (12, 0x2004), (13, 0x2008)] } : Start).state

theorem witness_UnwrittenReadFaults_modes : MemSpec.reads (.longwordDisplacementDeferred 13 8) = some 13 ∧
    bare.Fetchable (1 + MemSpec.ext (.longwordDisplacementDeferred 13 8)) ∧
    bare.Fetchable (2 + MemSpec.ext (.longwordDisplacementDeferred 13 8)) ∧
    steppedReg (.longwordDisplacementDeferred 13 8) ≠ some 0 ∧
    steppedReg (.autoincrement 0) ≠ some 13 ∧ MemSpec.Ready (bare.advance 2) (.autoincrement 0) :=
  ⟨rfl, fetchable_of (by decide), fetchable_of (by decide), by decide, by decide,
    ⟨⟨nofun, nofun⟩, fun n e => by cases e; decide, nofun⟩⟩

theorem witness_UnwrittenReadFaults_group : (11 : Reg) ≠ pcReg ∧ (11 : Reg).val < 12 ∧ noStack.Fetchable 1 ∧
    (14 : Reg) ∈ operandRegs .o 11 ∧ noStack.isWritten 14 = false ∧
    ∀ j ∈ operandRegs .o 11, j < (14 : Reg) → noStack.isWritten j = true :=
  ⟨by decide, by decide, fetchable_of (by decide), by decide, by decide, by decide⟩

theorem witness_UnwrittenReadFaults_narrow : (Instr.clrw (.register 13)).Ready bare ∧
    ((Instr.clrw (.register 13)).operandsDone bare).isWritten 13 = false :=
  ⟨⟨fetchable_of (by decide), ⟨⟨⟨⟨by decide, by decide, nofun, nofun⟩, fetchable_of (by decide), nofun, nofun⟩, by simp⟩,
    trivial⟩, fun _ ⟨k, ⟨o, ho, hk⟩, _⟩ => by
      rw [List.mem_singleton.1 ho] at hk
      cases hk⟩, by decide⟩

theorem witness_UnwrittenReadFaults_push : (Instr.pushl (.literal 5)).Ready noStack ∧
    (Instr.jsb (.mem (.absolute 0x2000))).Ready noStack ∧
    ((Instr.pushl (.literal 5)).operandsDone noStack).isWritten spReg = false ∧
    ((Instr.jsb (.mem (.absolute 0x2000))).operandsDone noStack).isWritten spReg = false :=
  ⟨met_tst (by decide), met_jump (by decide), by decide, by decide⟩

/-- `ready` with the bytes before the code writable too, and a stack pointer. -/
def codeWritable (sp : Word) : State :=
  { ready.setReg spReg sp with params := { ready.params with writable := [⟨0x0FFE, 0x3000⟩] } }

/-- `movl` to an address, its operands evaluated. -/
theorem ready_movl_absolute (a : Word) (s : State) (h1 : s.Fetchable 1) (h2 : s.start.Fetchable 1)
    (h3 : (s.start.advance 1).Fetchable 5) : (Instr.movl (.literal 5) (.mem (.absolute a))).Ready s :=
  ⟨h1, ⟨⟨⟨⟨rfl, rfl, fun h => absurd h (by decide)⟩, h2, nofun, nofun⟩, fun _ => trivial⟩,
    ⟨⟨⟨nofun, nofun⟩, h3, fun m e => by cases e; exact ⟨⟨nofun, nofun⟩, nofun, nofun⟩, nofun⟩, by simp⟩, trivial⟩,
    fun _ ⟨k, ⟨o, ho, hk⟩, _⟩ => by
      simp only [Instr.operands, List.mem_cons, List.not_mem_nil, or_false] at ho
      rcases ho with rfl | rfl <;> cases hk⟩

theorem witness_MemWriteRule_destination :
    (let i := Instr.movl (.literal 5) (.mem (.absolute 0x2FFE))
     i.Ready ready ∧ (i.operandsDone ready).Fetchable i.branchBytes ∧ i.storeAddress ready = some 0x2FFE ∧
       ready.WritableFrom 0x2FFE 2 ∧ ready.isWritable (0x2FFE + BitVec.ofNat 32 2) = false) ∧
    let i := Instr.movl (.literal 5) (.mem (.absolute 0x0FFE))
    let s := codeWritable 0
    i.Ready s ∧ i.storeAddress s = some 0x0FFE ∧ s.WritableFrom 0x0FFE 2 ∧
      s.isWritable (0x0FFE + BitVec.ofNat 32 2) = true ∧ s.isCode (0x0FFE + BitVec.ofNat 32 2) = true :=
  ⟨⟨ready_movl_absolute _ _ (fetchable_of (by decide)) (fetchable_of (by decide)) (fetchable_of (by decide)),
      Fetchable_zero _, by decide, writable_of (by decide), by decide⟩,
    ready_movl_absolute _ _ (fetchable_of (by decide)) (fetchable_of (by decide)) (fetchable_of (by decide)),
    by decide, writable_of (by decide), by decide, by decide⟩

theorem witness_MemWriteRule_push :
    (let i := Instr.pushl (.literal 5)
     let s := ready.setReg spReg 0x3002
     i.Ready s ∧ (i.operandsDone s).isWritten spReg = true ∧ (i.operandsDone s).reg spReg - 4 = 0x2FFE ∧
       s.WritableFrom 0x2FFE 2 ∧ s.isWritable (0x2FFE + BitVec.ofNat 32 2) = false) ∧
    let i := Instr.jsb (.mem (.absolute 0x2000))
    let s := codeWritable 0x1002
    i.Ready s ∧ (i.operandsDone s).isWritten spReg = true ∧ (i.operandsDone s).reg spReg - 4 = 0x0FFE ∧
      s.WritableFrom 0x0FFE 2 ∧ s.isWritable (0x0FFE + BitVec.ofNat 32 2) = true ∧
      s.isCode (0x0FFE + BitVec.ofNat 32 2) = true :=
  ⟨⟨met_tst (by decide), by decide, by decide, writable_of (by decide), by decide⟩,
    met_jump (by decide), by decide, by decide, writable_of (by decide), by decide, by decide⟩

/-- Some registers and flags supplied, some not. -/
theorem witness_LaunchState :
    let l : Launch := { resetLaunch with initRegs := resetLaunch.initRegs.set 3 none, initV := none }
    l.initReg 3 = none ∧ l.initReg 14 = some 0 ∧ l.initN = some false ∧ l.initV = none := by decide

/-! ### What instructions do together -/

theorem witness_JsbThenJmpReturns : ready.Canonical ∧ ∃ t, exec (.jsb (.mem (.registerDeferred 1))) ready = .next t ∧
    let u := { t with regs := ready.regs.set 14 0x27FC, params := ready.params }
    u.mem = t.mem ∧ u.reg spReg = t.reg spReg ∧ u.isWritten spReg = true ∧ u.Fetchable 2 ∧
      u.ReadableFrom (u.reg spReg) 4 := by
  refine ⟨rfl, _, rfl, rfl, ?_, ?_, fetchable_of ?_, readable_of ?_⟩ <;> decide

theorem witness_PushlIsMovlToStack : (∃ t, exec (.pushl src) ready = .next t) ∧ ∃ u, exec (.movl src dst) ready = .next u :=
  ⟨next_of (by decide), next_of (by decide)⟩

theorem witness_CompareThenBranch : ∃ t, exec (.cmpl src (.register 6)) ready = .next t ∧ t.Fetchable 2 :=
  ⟨_, rfl, fetchable_of (by decide)⟩

end Sys2Proof.Tests
end

section
/-! PROOFS. The opcode fetch comes first in every step (R14, R74, R266): what stops it stops the step. -/

namespace Sys2Proof.Machine

open Sys2Proof

/-! ## How the opcode fetch stops -/

/-- A fetch looks at `CodeRegion` before anything else (R14). -/
theorem fetch_outsideCode {s : State} (n : Nat) (h : s.isCode s.pc = false) :
    fetch (n + 1) s = .error (.refuse (.fetchOutsideCode s.pc)) := by
  simp [fetch, checkCode, h, raiseRefuse]

/-- A byte of code that may not be read (R14, R42). -/
theorem fetch_one_unreadable {s : State} (hc : s.isCode s.pc = true) (hr : s.isReadable s.pc = false) :
    fetch 1 s = .error (.fault (.accessViolation s.pc .read)) := by
  simp [fetch, checkCode, checkRead, hc, hr, raiseFault]

/-! ## What begins with the opcode fetch stops with it -/

section Stopped

variable {s : State} {e : Stop} (h : fetch 1 s = .error e)

include h

theorem fetch_bind_error {α : Type} (f : State → Except Stop α) : (fetch 1 s >>= f) = .error e := by
  rw [h]
  rfl

theorem beginInstr_bind_error {α : Type} (f : Ctx → Except Stop α) : (beginInstr s >>= f) = .error e := by
  have hb : beginInstr s = .error e := fetch_bind_error h _
  rw [hb]
  rfl

/-- A named instruction is refused after its opcode is fetched (R74), every other one evaluates its operands then (R135);
a specifier by itself has no opcode to fetch. -/
theorem exec_of_fetch_error {i : Instr} {op : Opcode} (hi : i.opcode? = some op) : exec i s = outcome (.error e) := by
  cases i with
  | caseb | casew | casel | calls | callg | ret | addf2 | addf3 | addd2 | addd3 | subd2 | subd3 | mulf2 | mulf3 | polyf
  | crc | insque => exact congrArg outcome (fetch_bind_error h _)
  | specLiteral | specIndex | specRegister | specRegisterDeferred | specAutodecrement | specAutoincrement
  | specImmediate | specAutoincrementDeferred | specAbsolute | specByteDisplacement | specByteRelative
  | specByteDisplacementDeferred | specByteRelativeDeferred | specWordDisplacement | specWordRelative
  | specWordDisplacementDeferred | specWordRelativeDeferred | specLongwordDisplacement | specLongwordRelative
  | specLongwordDisplacementDeferred | specLongwordRelativeDeferred => cases hi
  | _ => exact congrArg outcome (beginInstr_bind_error h _)

/-- Whatever the decoder finds, a step before the end of the run begins with the opcode fetch (R266, R294). -/
theorem step_of_fetch_error (hp : s.pc ≠ s.params.endPC) : step s = outcome (.error e) := by
  rw [step, if_neg hp]
  split
  next i hd =>
    obtain ⟨op, -, hi⟩ := decode_opcode hd
    exact exec_of_fetch_error h hi
  next => exact congrArg outcome (fetch_bind_error h _)
  next => exact congrArg outcome (fetch_bind_error h _)

end Stopped

/-- Settles O8: each check of the opcode fetch fails by a stop of `fetch`, which is the stop of the step. -/
theorem opcodeFetchChecked : Obligations.OpcodeFetchChecked := by
  unfold Obligations.OpcodeFetchChecked
  intro s hp
  constructor
  · intro hc
    exact step_of_fetch_error (fetch_outsideCode 0 hc) hp
  · intro hc hr
    exact step_of_fetch_error (fetch_one_unreadable hc hr) hp

end Sys2Proof.Machine
end

section
/-! PROOFS. What an instruction and a step leave as they were: the launch's parameters, the flags an instruction does not
write, and everything a specifier by itself does not touch (R27, R29, R32, R119). -/

namespace Sys2Proof.Machine

open Sys2Proof

/-! ## The launch's parameters and `IV` (R29, R32) -/

/-- No instruction changes the launch's parameters or `IV`. -/
theorem exec_params_iv {i : Instr} {s t : State} (h : exec i s = .next t) : t.params = s.params ∧ t.iv = s.iv := by
  cases exec_effect h with
  | dest o v hd hw ht => exact ⟨by simp [ht.params], by simp [ht.iv]⟩
  | none hd ht => exact ⟨by simp [ht.params], by simp [ht.iv]⟩
  | stack w v hd hi hp ht =>
    obtain ⟨-, -, rfl⟩ := pushLongword_ok.1 hp
    exact ⟨by simp [ht.params], by simp [ht.iv]⟩
  | alone hd ht => exact ⟨by simp [ht], by simp [ht]⟩

/-- Settles O13: a step stays at the end of the run or executes an instruction, and no instruction changes them. -/
theorem stepKeepsParameters : Obligations.StepKeepsParameters := by
  unfold Obligations.StepKeepsParameters
  intro s t h
  obtain rfl | ⟨-, i, -, hi⟩ := step_next h
  · exact ⟨rfl, rfl⟩
  · exact exec_params_iv hi

/-! ## A specifier by itself (R27, R119) -/

/-- The instructions without an opcode are the specifiers by themselves. -/
theorem eq_alone_of_opcode_none {i : Instr} (h : i.opcode? = none) : ∃ acc t x, i = .alone acc t x := by
  cases i with
  | specLiteral acc t lit => exact ⟨acc, t, .literal lit, rfl⟩
  | specIndex acc t rx base => exact ⟨acc, t, .index rx base, rfl⟩
  | specRegister acc t n => exact ⟨acc, t, .register n, rfl⟩
  | specImmediate acc t v => exact ⟨acc, t, .immediate v, rfl⟩
  | specRegisterDeferred acc t n => exact ⟨acc, t, .mem (.registerDeferred n), rfl⟩
  | specAutodecrement acc t n => exact ⟨acc, t, .mem (.autodecrement n), rfl⟩
  | specAutoincrement acc t n => exact ⟨acc, t, .mem (.autoincrement n), rfl⟩
  | specAutoincrementDeferred acc t n => exact ⟨acc, t, .mem (.autoincrementDeferred n), rfl⟩
  | specAbsolute acc t a => exact ⟨acc, t, .mem (.absolute a), rfl⟩
  | specByteDisplacement acc t n d => exact ⟨acc, t, .mem (.byteDisplacement n d), rfl⟩
  | specByteRelative acc t d => exact ⟨acc, t, .mem (.byteRelative d), rfl⟩
  | specByteDisplacementDeferred acc t n d => exact ⟨acc, t, .mem (.byteDisplacementDeferred n d), rfl⟩
  | specByteRelativeDeferred acc t d => exact ⟨acc, t, .mem (.byteRelativeDeferred d), rfl⟩
  | specWordDisplacement acc t n d => exact ⟨acc, t, .mem (.wordDisplacement n d), rfl⟩
  | specWordRelative acc t d => exact ⟨acc, t, .mem (.wordRelative d), rfl⟩
  | specWordDisplacementDeferred acc t n d => exact ⟨acc, t, .mem (.wordDisplacementDeferred n d), rfl⟩
  | specWordRelativeDeferred acc t d => exact ⟨acc, t, .mem (.wordRelativeDeferred d), rfl⟩
  | specLongwordDisplacement acc t n d => exact ⟨acc, t, .mem (.longwordDisplacement n d), rfl⟩
  | specLongwordRelative acc t d => exact ⟨acc, t, .mem (.longwordRelative d), rfl⟩
  | specLongwordDisplacementDeferred acc t n d => exact ⟨acc, t, .mem (.longwordDisplacementDeferred n d), rfl⟩
  | specLongwordRelativeDeferred acc t d => exact ⟨acc, t, .mem (.longwordRelativeDeferred d), rfl⟩
  | _ => cases h

theorem operands_alone (acc : Access) (t : DType) (x : Spec) : (Instr.alone acc t x).operands = [⟨acc, t, x⟩] := by
  cases x with
  | mem m => cases m <;> rfl
  | _ => rfl

/-- A specifier by itself that completes leaves the state of its evaluation (R119). -/
theorem exec_alone_next {acc : Access} {t : DType} {x : Spec} {s u : State} (h : exec (.alone acc t x) s = .next u) :
    u = x.after t s := by
  rw [exec_alone] at h
  exact (operandAlone_ok.1 (outcome_next.1 h)).2

/-- Settles O53: the evaluation of a specifier moves the program counter and may step one register. -/
theorem specifierFrame : Obligations.SpecifierFrame := by
  unfold Obligations.SpecifierFrame
  intro i s t hi h
  obtain ⟨acc, dt, x, rfl⟩ := eq_alone_of_opcode_none hi
  obtain rfl := exec_alone_next h
  refine ⟨Spec.after_cc .., Spec.after_ccWritten .., fun a => ?_, fun r hr hs => ?_⟩
  · rw [State.byteAt, Spec.after_mem, State.byteAt]
  · have hx : x.steps ≠ some r := hs ⟨acc, dt, x⟩ (by simp [operands_alone])
    exact ⟨Spec.after_reg _ _ _ hr hx, Spec.after_isWritten _ _ _ hx⟩

/-! ## The flags an instruction writes (R27)

One lemma for each family: it changes no flag, or writes `N`, `Z` and `V`, or writes all four. -/

/-- No flag is changed, and none begins or ceases to hold a value. -/
def KeepsFlags (s u : State) : Prop := u.cc = s.cc ∧ u.ccWritten = s.ccWritten

/-- `N`, `Z` and `V` are written, and `C` is as it was, written or not. -/
def WritesNZV (s u : State) : Prop := u.cc.c = s.cc.c ∧ u.ccWritten = ⟨true, true, true, s.ccWritten.c⟩

/-- All four flags are written. -/
def WritesNZVC (u : State) : Prop := u.ccWritten = ⟨true, true, true, true⟩

section

variable {t : DType} {x y z : Spec} {s u : State}

theorem mov_flags (h : mov t x y s = .ok u) : WritesNZV s u := by
  obtain ⟨-, -, rfl⟩ := mov_ok.1 h
  simp [WritesNZV]

theorem movzb_flags (h : movzb t x y s = .ok u) : WritesNZV s u := by
  obtain ⟨-, -, rfl⟩ := movzb_ok.1 h
  simp [WritesNZV]

theorem mova_flags (h : mova t x y s = .ok u) : WritesNZV s u := by
  obtain ⟨-, a, -, -, rfl⟩ := mova_ok.1 h
  simp [WritesNZV]

theorem clr_flags (h : clr t x s = .ok u) : WritesNZV s u := by
  obtain ⟨-, -, rfl⟩ := clr_ok.1 h
  simp [WritesNZV]

theorem pushLongword_flags {v : Word} (h : pushLongword v s = .ok u) : KeepsFlags s u := by
  obtain ⟨-, -, rfl⟩ := pushLongword_ok.1 h
  exact ⟨rfl, rfl⟩

theorem push_flags (h : push x s = .ok u) : WritesNZV s u := by
  obtain ⟨-, w, hp, rfl⟩ := push_ok.1 h
  obtain ⟨hcc, hwr⟩ := pushLongword_flags hp
  simp [WritesNZV, hcc, hwr]

theorem addOneBranchLeq_flags {d : Byte} (h : addOneBranchLeq x y d s = .ok u) : WritesNZV s u := by
  obtain ⟨-, -, -, -, rfl⟩ := addOneBranchLeq_ok.1 h
  unfold aobNext
  simp only
  split_ifs <;> simp [WritesNZV]

theorem add2_flags (h : add2 t x y s = .ok u) : WritesNZVC u := by
  obtain ⟨-, -, rfl⟩ := addInto_ok.1 (add2_ok.1 h).2
  rfl

theorem add3_flags (h : add3 t x y z s = .ok u) : WritesNZVC u := by
  obtain ⟨-, -, rfl⟩ := addInto_ok.1 (add3_ok.1 h).2
  rfl

theorem sub2_flags (h : sub2 t x y s = .ok u) : WritesNZVC u := by
  obtain ⟨-, -, rfl⟩ := subInto_ok.1 (sub2_ok.1 h).2
  rfl

theorem sub3_flags (h : sub3 t x y z s = .ok u) : WritesNZVC u := by
  obtain ⟨-, -, rfl⟩ := subInto_ok.1 (sub3_ok.1 h).2
  rfl

theorem ash_flags (h : ash t x y z s = .ok u) : WritesNZVC u := by
  obtain ⟨-, -, -, rfl⟩ := ash_ok.1 h
  rfl

theorem cvtb_flags (h : cvtb t x y s = .ok u) : WritesNZVC u := by
  obtain ⟨-, -, rfl⟩ := cvtb_ok.1 h
  rfl

theorem cmp_flags (h : cmp t x y s = .ok u) : WritesNZVC u := by
  obtain ⟨-, rfl⟩ := cmp_ok.1 h
  rfl

theorem tst_flags (h : tst t x s = .ok u) : WritesNZVC u := by
  obtain ⟨-, rfl⟩ := tst_ok.1 h
  rfl

theorem jump_flags (h : jump x s = .ok u) : KeepsFlags s u := by
  obtain ⟨-, a, -, rfl⟩ := jump_ok.1 h
  simp [KeepsFlags]

theorem jumpSub_flags (h : jumpSub x s = .ok u) : KeepsFlags s u := by
  obtain ⟨-, a, -, w, hp, rfl⟩ := jumpSub_ok.1 h
  obtain ⟨hcc, hwr⟩ := pushLongword_flags hp
  simp [KeepsFlags, hcc, hwr]

theorem branchIf_flags {c : State → Except Stop Bool} {d : Byte} (h : branchIf c d s = .ok u) : KeepsFlags s u := by
  obtain ⟨-, taken, -, rfl⟩ := branchIf_ok.1 h
  cases taken <;> exact ⟨rfl, rfl⟩

theorem branch_flags {w n : Nat} {d : BitVec w} (h : branch n d s = .ok u) : KeepsFlags s u := by
  obtain ⟨-, rfl⟩ := branch_ok.1 h
  exact ⟨rfl, rfl⟩

end

/-- The opcodes that change no flag: the branches, `jmp` and `jsb`. -/
def flaglessOps : List Opcode := [.beql, .bneq, .bleq, .bgeq, .brb, .brw, .jmp, .jsb]

/-- The opcodes that write `N`, `Z` and `V` and leave `C`. -/
def nzvOps : List Opcode :=
  [.movb, .movw, .movl, .movq, .movzbw, .movzbl, .movab, .movaw, .moval, .movaq, .pushl, .clrb, .clrw, .clrl, .clrq,
    .aobleq]

/-- Which flags an instruction with this opcode writes (R27). -/
def FlagRule (op : Opcode) (s u : State) : Prop :=
  if op ∈ flaglessOps then KeepsFlags s u else if op ∈ nzvOps then WritesNZV s u else WritesNZVC u

section

variable {op : Opcode} {s u : State}

theorem FlagRule.of_keeps (h : KeepsFlags s u) (ho : op ∈ flaglessOps) : FlagRule op s u := by
  rwa [FlagRule, if_pos ho]

theorem FlagRule.of_nzv (h : WritesNZV s u) (h0 : op ∉ flaglessOps) (ho : op ∈ nzvOps) : FlagRule op s u := by
  rwa [FlagRule, if_neg h0, if_pos ho]

theorem FlagRule.of_nzvc (h : WritesNZVC u) (h0 : op ∉ flaglessOps) (ho : op ∉ nzvOps) : FlagRule op s u := by
  rwa [FlagRule, if_neg h0, if_neg ho]

/-- Whatever its opcode, an instruction leaves every flag that held a value holding one. -/
theorem FlagRule.written (h : FlagRule op s u) (f : Flag) (hf : s.ccWritten.get f = true) :
    u.ccWritten.get f = true := by
  unfold FlagRule at h
  split_ifs at h
  · rwa [h.2]
  · rw [h.2]
    cases f with
    | c => exact hf
    | _ => rfl
  · rw [h]
    cases f <;> rfl

end

/-- Which flags an executed instruction writes, by its opcode. -/
theorem exec_flags {i : Instr} {op : Opcode} {s u : State} (hi : i.opcode? = some op) (h : exec i s = .next u) :
    FlagRule op s u := by
  cases i <;> cases hi
  case movb | movw | movl | movq => exact .of_nzv (mov_flags (outcome_next.1 h)) (by decide) (by decide)
  case movzbw | movzbl => exact .of_nzv (movzb_flags (outcome_next.1 h)) (by decide) (by decide)
  case movab | movaw | moval | movaq => exact .of_nzv (mova_flags (outcome_next.1 h)) (by decide) (by decide)
  case pushl => exact .of_nzv (push_flags (outcome_next.1 h)) (by decide) (by decide)
  case clrb | clrw | clrl | clrq => exact .of_nzv (clr_flags (outcome_next.1 h)) (by decide) (by decide)
  case aobleq => exact .of_nzv (addOneBranchLeq_flags (outcome_next.1 h)) (by decide) (by decide)
  case addb2 | addw2 | addl2 => exact .of_nzvc (add2_flags (outcome_next.1 h)) (by decide) (by decide)
  case addb3 | addw3 | addl3 => exact .of_nzvc (add3_flags (outcome_next.1 h)) (by decide) (by decide)
  case subb2 | subw2 | subl2 => exact .of_nzvc (sub2_flags (outcome_next.1 h)) (by decide) (by decide)
  case subb3 | subw3 | subl3 => exact .of_nzvc (sub3_flags (outcome_next.1 h)) (by decide) (by decide)
  case cmpb | cmpw | cmpl => exact .of_nzvc (cmp_flags (outcome_next.1 h)) (by decide) (by decide)
  case tstb | tstw | tstl => exact .of_nzvc (tst_flags (outcome_next.1 h)) (by decide) (by decide)
  case ashl | ashq => exact .of_nzvc (ash_flags (outcome_next.1 h)) (by decide) (by decide)
  case cvtbw | cvtbl => exact .of_nzvc (cvtb_flags (outcome_next.1 h)) (by decide) (by decide)
  case beql | bneq | bleq | bgeq => exact .of_keeps (branchIf_flags (outcome_next.1 h)) (by decide)
  case brb | brw => exact .of_keeps (branch_flags (outcome_next.1 h)) (by decide)
  case jmp => exact .of_keeps (jump_flags (outcome_next.1 h)) (by decide)
  case jsb => exact .of_keeps (jumpSub_flags (outcome_next.1 h)) (by decide)
  all_goals exact (unmodelled_ok.1 (outcome_next.1 h)).elim

/-- Settles O54: `FlagRule` is the obligation's chain of conditions. -/
theorem flagFrame : Obligations.FlagFrame := by
  unfold Obligations.FlagFrame
  intro i op s t hi h
  exact exec_flags hi h

end Sys2Proof.Machine
end

section
/-! PROOFS. Registers and flags that hold no value (R34): what holds a value keeps holding one, and where everything holds
one, no step reads what does not. The second is said by a judgement, `NoUnwritten`, with one rule for each operation. -/

namespace Sys2Proof.Machine

open Sys2Proof

/-! ## What holds a value keeps holding one -/

/-- Every register and flag that holds a value in `s` holds one in `t`. -/
def KeepsWritten (s t : State) : Prop :=
  (∀ n, s.isWritten n = true → t.isWritten n = true) ∧ ∀ f, s.ccWritten.get f = true → t.ccWritten.get f = true

theorem KeepsWritten.refl (s : State) : KeepsWritten s s := ⟨fun _ h => h, fun _ h => h⟩

theorem KeepsWritten.allWritten {s t : State} (h : KeepsWritten s t) (hs : s.AllWritten) : t.AllWritten :=
  ⟨fun n hn => h.1 n (hs.1 n hn), fun f => h.2 f (hs.2 f)⟩

theorem setReg_keepsWritten (s : State) (n : Reg) (v : Word) : KeepsWritten s (s.setReg n v) :=
  ⟨fun m h => by simp [isWritten_setReg, h], fun _ h => h⟩

theorem MemSpec.after_keepsWritten (d : Nat) (m : MemSpec) (s : State) : KeepsWritten s (m.after d s) := by
  obtain h | ⟨n, v, -, h⟩ := MemSpec.after_cases d m s <;> rw [h]
  · exact .refl s
  · exact setReg_keepsWritten s n v

theorem Spec.after_keepsWritten (t : DType) (x : Spec) (s : State) : KeepsWritten s (x.after t s) :=
  ⟨Spec.after_isWritten_of t x s, fun _ h => by rwa [Spec.after_ccWritten]⟩

theorem pushLongword_isWritten_of {v : Word} {s t : State} (h : pushLongword v s = .ok t) {r : Reg}
    (hr : s.isWritten r = true) : t.isWritten r = true := by
  obtain ⟨-, -, rfl⟩ := pushLongword_ok.1 h
  exact (setReg_keepsWritten s spReg (s.reg spReg - 4)).1 r hr

/-- No instruction takes the value from a register that holds one. -/
theorem exec_isWritten_of {i : Instr} {s t : State} (h : exec i s = .next t) {r : Reg} (hr : s.isWritten r = true) :
    t.isWritten r = true := by
  have hdone : (i.operandsDone s).isWritten r = true := operandsDone_isWritten_of hr
  cases exec_effect h with
  | dest o v _ _ ht => rw [ht.isWritten]; exact Loc.store_isWritten_of _ _ _ r hdone
  | none _ ht => rwa [ht.isWritten]
  | stack w v _ _ hp ht => rw [ht.isWritten]; exact pushLongword_isWritten_of hp hdone
  | alone _ ht => rw [ht]; exact operandsAfter_isWritten_of _ _ _ hr

theorem step_keepsWritten {s t : State} (h : step s = .next t) : KeepsWritten s t := by
  obtain rfl | ⟨-, i, hd, hx⟩ := step_next h
  · exact .refl t
  · obtain ⟨op, -, hi⟩ := decode_opcode hd
    exact ⟨fun _ => exec_isWritten_of hx, (exec_flags hi hx).written⟩

/-! ## The judgement -/

/-- `x` does not stop for a read of what holds no value, and what it answers, if it answers, satisfies `Q`. -/
def NoUnwritten {α : Type} (x : Except Stop α) (Q : α → Prop) : Prop :=
  (∀ w, x ≠ .error (.fault (.unwrittenRead w))) ∧ ∀ a, x = .ok a → Q a

section

variable {α β : Type} {Q : α → Prop} {R : β → Prop}

theorem NoUnwritten.ok {a : α} (h : Q a) : NoUnwritten (.ok a) Q :=
  ⟨nofun, fun _ e => by cases e; exact h⟩

theorem NoUnwritten.of_eq_ok {x : Except Stop α} {a : α} (hx : x = .ok a) (h : Q a) : NoUnwritten x Q :=
  hx ▸ .ok h

theorem NoUnwritten.refuse (r : Refusal) : NoUnwritten (raiseRefuse r) Q := ⟨nofun, nofun⟩

theorem NoUnwritten.fault {f : Fault} (hf : ∀ w, f ≠ .unwrittenRead w) : NoUnwritten (raiseFault f) Q :=
  ⟨fun w e => hf w (by cases e; rfl), nofun⟩

theorem NoUnwritten.ite {p : Prop} [Decidable p] {x y : Except Stop α} (hx : p → NoUnwritten x Q)
    (hy : ¬ p → NoUnwritten y Q) : NoUnwritten (if p then x else y) Q := by
  split_ifs with h
  · exact hx h
  · exact hy h

theorem NoUnwritten.bind {x : Except Stop α} {f : α → Except Stop β} (hx : NoUnwritten x Q)
    (hf : ∀ a, Q a → NoUnwritten (f a) R) : NoUnwritten (x >>= f) R := by
  cases x with
  | error e => exact ⟨fun w h => hx.1 w (by cases h; rfl), nofun⟩
  | ok a => exact hf a (hx.2 a rfl)

/-- What an operation answers, its `_ok` lemma says. -/
theorem NoUnwritten.answers {x : Except Stop α} (hx : NoUnwritten x fun _ => True) (h : ∀ a, x = .ok a → Q a) :
    NoUnwritten x Q := ⟨hx.1, h⟩

theorem NoUnwritten.outcome {x : Except Stop State} {Q : State → Prop} (hx : NoUnwritten x Q) (w : Unwritten) :
    outcome x ≠ .fault (.unwrittenRead w) := fun h => hx.1 w (outcome_fault.1 h)

end

/-! ## The operations written as a case distinction, in the form the judgement's rule of sequence takes -/

theorem memRead_eq_bind (a : Word) (n : Nat) (s : State) :
    memRead a n s = checkRead s a n >>= fun _ => .ok (BitVec.ofNat (8 * n) (loadBytes s.mem a n)) := by
  unfold memRead
  cases checkRead s a n <;> rfl

theorem memWrite_eq_bind (a : Word) (n : Nat) (v : BitVec (8 * n)) (s : State) :
    memWrite a n v s = checkWrite s a n >>= fun _ => .ok { s with mem := storeBytes s.mem a n v.toNat } := by
  unfold memWrite
  cases checkWrite s a n <;> rfl

theorem fetch_eq_bind (n : Nat) (s : State) :
    fetch n s = checkCode s s.pc n >>= fun _ => checkRead s s.pc n >>= fun _ => .ok (s.advance n) := by
  unfold fetch
  cases checkCode s s.pc n <;> cases checkRead s s.pc n <;> rfl

theorem Ctx.fetch_eq_bind (n : Nat) (c : Ctx) : c.fetch n = Machine.fetch n c.st >>= fun s => .ok { c with st := s } := by
  unfold Ctx.fetch
  cases Machine.fetch n c.st <;> rfl

theorem branchTarget_eq_bind {w : Nat} (bytes : Nat) (disp : BitVec w) (s : State) :
    branchTarget bytes disp s = Machine.fetch bytes s >>= fun s => .ok (s.pc + disp.signExtend 32, s) := by
  unfold branchTarget
  cases Machine.fetch bytes s <;> rfl

theorem pushLongword_eq_bind (v : Word) (s : State) :
    pushLongword v s = readReg spReg s >>= fun sp => memWrite (sp - 4) 4 v (s.setReg spReg (sp - 4)) := by
  unfold pushLongword
  cases readReg spReg s <;> rfl

/-! ## Operations that read no register and no flag -/

theorem checkRead_noUnwritten (s : State) (a : Word) (n : Nat) : NoUnwritten (checkRead s a n) fun _ => True := by
  induction n generalizing a with
  | zero => exact .ok trivial
  | succ n ih =>
    rw [checkRead]
    split_ifs
    · exact ih _
    · exact .fault nofun

theorem checkWrite_noUnwritten (s : State) (a : Word) (n : Nat) : NoUnwritten (checkWrite s a n) fun _ => True := by
  induction n generalizing a with
  | zero => exact .ok trivial
  | succ n ih =>
    rw [checkWrite]
    split_ifs
    · exact .refuse _
    · exact ih _
    · exact .fault nofun

theorem checkCode_noUnwritten (s : State) (a : Word) (n : Nat) : NoUnwritten (checkCode s a n) fun _ => True := by
  induction n generalizing a with
  | zero => exact .ok trivial
  | succ n ih =>
    rw [checkCode]
    split_ifs
    · exact ih _
    · exact .refuse _

theorem memRead_noUnwritten (a : Word) (n : Nat) (s : State) : NoUnwritten (memRead a n s) fun _ => True := by
  rw [memRead_eq_bind]
  exact (checkRead_noUnwritten s a n).bind fun _ _ => .ok trivial

theorem memWrite_noUnwritten (a : Word) (n : Nat) (v : BitVec (8 * n)) (s : State) :
    NoUnwritten (memWrite a n v s) fun _ => True := by
  rw [memWrite_eq_bind]
  exact (checkWrite_noUnwritten s a n).bind fun _ _ => .ok trivial

theorem overflowTrap_noUnwritten (v : Bool) (s : State) : NoUnwritten (overflowTrap v s) fun _ => True := by
  unfold overflowTrap
  split_ifs
  · exact .fault nofun
  · exact .ok trivial

theorem fetch_noUnwritten {s : State} (hs : s.AllWritten) (n : Nat) :
    NoUnwritten (Machine.fetch n s) fun t => t.AllWritten := by
  rw [fetch_eq_bind]
  exact (checkCode_noUnwritten s s.pc n).bind fun _ _ => (checkRead_noUnwritten s s.pc n).bind fun _ _ => .ok hs

theorem Ctx.fetch_noUnwritten {c : Ctx} (hc : c.st.AllWritten) (n : Nat) :
    NoUnwritten (c.fetch n) fun c' => c'.st.AllWritten := by
  rw [Ctx.fetch_eq_bind]
  exact (Machine.fetch_noUnwritten hc n).bind fun _ hs => .ok hs

theorem branchTarget_noUnwritten {s : State} (hs : s.AllWritten) {w : Nat} (bytes : Nat) (disp : BitVec w) :
    NoUnwritten (branchTarget bytes disp s) fun p => p.2.AllWritten := by
  rw [branchTarget_eq_bind]
  exact (Machine.fetch_noUnwritten hs bytes).bind fun _ hs => .ok hs

theorem beginInstr_noUnwritten {s : State} (hs : s.AllWritten) : NoUnwritten (beginInstr s) fun c => c.st.AllWritten :=
  (Machine.fetch_noUnwritten hs 1).bind fun _ hs => .ok hs

theorem endOperands_noUnwritten {c : Ctx} (hc : c.st.AllWritten) : NoUnwritten (endOperands c) fun s => s.AllWritten := by
  unfold endOperands
  split_ifs
  · split
    · exact .refuse _
    · exact .ok hc
  · exact .ok hc

/-! ## Reads of registers and flags -/

theorem readReg_noUnwritten {n : Reg} {s : State} (hs : s.AllWritten) (hn : n ≠ pcReg) :
    NoUnwritten (readReg n s) fun _ => True :=
  .of_eq_ok (readReg_ok.2 ⟨hs.1 n hn, rfl⟩) trivial

theorem readFlag_noUnwritten {s : State} (hs : s.AllWritten) (f : Flag) : NoUnwritten (readFlag f s) fun _ => True :=
  .of_eq_ok (readFlag_ok.2 ⟨hs.2 f, rfl⟩) trivial

theorem pushLongword_noUnwritten {s : State} (hs : s.AllWritten) (v : Word) :
    NoUnwritten (pushLongword v s) fun _ => True := by
  rw [pushLongword_eq_bind]
  exact (readReg_noUnwritten hs (by decide)).bind fun sp _ => memWrite_noUnwritten _ 4 v _

/-- A register operand that is legal does not reach the program counter (R23, R108). -/
theorem operandRegs_ne_pc : ∀ (t : DType) (n : Reg), n ≠ pcReg → (t.size = 8 → n.val < 14) →
    (t.size = 16 → n.val < 12) → ∀ k ∈ operandRegs t n, k ≠ pcReg := by
  intro t
  cases t <;> decide

/-- A location that is no register the program counter is among. -/
def Loc.AvoidsPc {t : DType} (x : Loc t) : Prop := ∀ k ∈ x.regs, k ≠ pcReg

theorem Spec.loc_avoidsPc {ext : ShortLiteralExt} {acc : Access} {t : DType} {x : Spec} (s : State)
    (h : x.Legal ext acc t) : (x.loc t s).AvoidsPc := by
  cases x with
  | register n =>
    obtain ⟨-, hn, h8, h16⟩ := h
    exact operandRegs_ne_pc t n hn h8 h16
  | index rx base => cases base <;> exact nofun
  | literal lit => exact nofun
  | immediate v => exact nofun
  | mem m => exact nofun

theorem readOperand_noUnwritten {t : DType} {x : Loc t} {s : State} (hs : s.AllWritten) (hx : x.AvoidsPc) :
    NoUnwritten (readOperand t x s) fun _ => True := by
  cases x with
  | lit v => exact .ok trivial
  | reg n => exact .of_eq_ok (readRegOperand_ok.2 ⟨fun k hk => hs.1 k (hx k hk), rfl⟩) trivial
  | mem a => exact memRead_noUnwritten a t.size s

theorem self_mem_operandRegs (t : DType) (n : Reg) : n ∈ operandRegs t n := by
  unfold operandRegs
  split_ifs <;> simp

theorem writeOperand_noUnwritten {t : DType} {x : Loc t} {s : State} (hs : s.AllWritten) (hx : x.AvoidsPc)
    (v : BitVec t.bits) : NoUnwritten (writeOperand t x v s) fun _ => True := by
  cases x with
  | lit _ => exact .fault nofun
  | reg n =>
    have hn : n ≠ pcReg := hx n (self_mem_operandRegs t n)
    exact .of_eq_ok (writeRegOperand_ok.2 ⟨fun _ => hs.1 n hn, rfl⟩) trivial
  | mem a => exact memWrite_noUnwritten a t.size v s

theorem addressOf_noUnwritten {t : DType} (x : Loc t) : NoUnwritten (addressOf t x) fun _ => True := by
  cases x with
  | lit _ => exact .fault nofun
  | reg _ => exact .fault nofun
  | mem a => exact .ok trivial

/-! ## Operand specifiers -/

theorem deferred_noUnwritten {x : Except Stop (Word × Ctx)} (hx : NoUnwritten x fun _ => True) :
    NoUnwritten (deferred x) fun _ => True :=
  hx.bind fun p _ => (memRead_noUnwritten p.1 4 p.2.st).bind fun _ _ => .ok trivial

theorem literal_noUnwritten (acc : Access) (t : DType) (lit : BitVec 6) (c : Ctx) :
    NoUnwritten (literal acc t lit c) fun _ => True := by
  unfold literal
  split_ifs
  · exact .refuse _
  · split
    · exact .ok trivial
    · exact .ok trivial
    · exact .refuse _
  · exact .ok trivial
  · exact .fault nofun

theorem register_noUnwritten (acc : Access) (t : DType) (n : Reg) (c : Ctx) :
    NoUnwritten (register acc t n c) fun _ => True := by
  unfold register
  split_ifs
  · exact .fault nofun
  · exact .refuse _
  · exact .refuse _
  · exact .refuse _
  · exact .ok trivial

section

variable {c : Ctx} (hc : c.st.AllWritten)

include hc

theorem displaced_noUnwritten {w : Nat} (bytes : Nat) (n : Gpr) (disp : BitVec w) :
    NoUnwritten (displaced bytes n disp c) fun _ => True :=
  (Ctx.fetch_noUnwritten hc bytes).bind fun _ h => (readReg_noUnwritten h (Gpr.reg_ne_pc n)).bind fun _ _ => .ok trivial

theorem relative_noUnwritten {w : Nat} (bytes : Nat) (disp : BitVec w) :
    NoUnwritten (relative bytes disp c) fun _ => True :=
  (Ctx.fetch_noUnwritten hc bytes).bind fun _ _ => .ok trivial

theorem address_noUnwritten (d : Nat) (m : MemSpec) : NoUnwritten (address d m c) fun p => p.2.st.AllWritten := by
  have stops : NoUnwritten (address d m c) fun _ => True := by
    cases m with
    | registerDeferred n => exact .ite (fun _ => .refuse _) fun hn => (readReg_noUnwritten hc hn).bind fun _ _ => .ok trivial
    | autodecrement n => exact .ite (fun _ => .refuse _) fun hn => (readReg_noUnwritten hc hn).bind fun _ _ => .ok trivial
    | autoincrement n => exact (readReg_noUnwritten hc (Gpr.reg_ne_pc n)).bind fun _ _ => .ok trivial
    | autoincrementDeferred n =>
      exact (readReg_noUnwritten hc (Gpr.reg_ne_pc n)).bind fun p _ =>
        (memRead_noUnwritten p 4 c.st).bind fun _ _ => .ok trivial
    | absolute addr => exact (Ctx.fetch_noUnwritten hc 4).bind fun _ _ => .ok trivial
    | byteDisplacement n disp => exact displaced_noUnwritten hc 1 n disp
    | wordDisplacement n disp => exact displaced_noUnwritten hc 2 n disp
    | longwordDisplacement n disp => exact displaced_noUnwritten hc 4 n disp
    | byteRelative disp => exact relative_noUnwritten hc 1 disp
    | wordRelative disp => exact relative_noUnwritten hc 2 disp
    | longwordRelative disp => exact relative_noUnwritten hc 4 disp
    | byteDisplacementDeferred n disp => exact deferred_noUnwritten (displaced_noUnwritten hc 1 n disp)
    | wordDisplacementDeferred n disp => exact deferred_noUnwritten (displaced_noUnwritten hc 2 n disp)
    | longwordDisplacementDeferred n disp => exact deferred_noUnwritten (displaced_noUnwritten hc 4 n disp)
    | byteRelativeDeferred disp => exact deferred_noUnwritten (relative_noUnwritten hc 1 disp)
    | wordRelativeDeferred disp => exact deferred_noUnwritten (relative_noUnwritten hc 2 disp)
    | longwordRelativeDeferred disp => exact deferred_noUnwritten (relative_noUnwritten hc 4 disp)
  refine stops.answers fun p hp => ?_
  obtain ⟨-, -, -, hc'⟩ := address_ok.1 hp
  rw [hc']
  exact (MemSpec.after_keepsWritten d m _).allWritten hc

theorem indexed_noUnwritten (d : Nat) (rx : Reg) (base : IndexBase) :
    NoUnwritten (indexed d rx base c) fun _ => True := by
  unfold indexed
  split_ifs with hx
  · exact .fault nofun
  · refine (Ctx.fetch_noUnwritten hc 1).bind fun c1 h1 => ?_
    cases base with
    | forbidden b =>
      simp only
      split_ifs
      · exact .refuse _
      · exact .fault nofun
    | mem m =>
      simp only
      split_ifs
      · exact .refuse _
      · exact (address_noUnwritten h1 d m).bind fun _ h2 => (readReg_noUnwritten h2 hx).bind fun _ _ => .ok trivial

theorem immediate_noUnwritten (acc : Access) (t : DType) (v : BitVec 128) :
    NoUnwritten (immediate acc t v c) fun _ => True := by
  unfold immediate
  split_ifs
  · exact (Ctx.fetch_noUnwritten hc t.size).bind fun _ _ => .ok trivial
  · exact .refuse _

theorem evalSpec_noUnwritten (acc : Access) (t : DType) (x : Spec) :
    NoUnwritten (evalSpec acc t x c) fun p => p.1.AvoidsPc ∧ p.2.st.AllWritten := by
  have stops : NoUnwritten (evalSpec acc t x c) fun _ => True := by
    refine (Ctx.fetch_noUnwritten hc 1).bind fun c1 h1 => ?_
    cases x with
    | literal lit => exact literal_noUnwritten acc t lit c1
    | register n => exact register_noUnwritten acc t n c1
    | immediate v => exact immediate_noUnwritten h1 acc t v
    | index rx base => exact (indexed_noUnwritten h1 t.size rx base).bind fun _ _ => .ok trivial
    | mem m => exact (address_noUnwritten h1 t.size m).bind fun _ _ => .ok trivial
  refine stops.answers fun p hp => ?_
  obtain ⟨hready, hloc, hctx⟩ := evalSpec_ok.1 hp
  rw [hloc, hctx]
  exact ⟨Spec.loc_avoidsPc c.st hready.1, (Spec.after_keepsWritten t x c.st).allWritten hc⟩

theorem operandR_noUnwritten (t : DType) (x : Spec) : NoUnwritten (operandR t x c) fun p => p.2.st.AllWritten :=
  (evalSpec_noUnwritten hc .r t x).bind fun _ h => (readOperand_noUnwritten h.2 h.1).bind fun _ _ => .ok h.2

theorem operandW_noUnwritten (t : DType) (x : Spec) :
    NoUnwritten (operandW t x c) fun p => p.1.AvoidsPc ∧ p.2.st.AllWritten :=
  evalSpec_noUnwritten hc .w t x

theorem operandM_noUnwritten (t : DType) (x : Spec) :
    NoUnwritten (operandM t x c) fun p => p.2.1.AvoidsPc ∧ p.2.2.st.AllWritten :=
  (evalSpec_noUnwritten hc .m t x).bind fun _ h => (readOperand_noUnwritten h.2 h.1).bind fun _ _ => .ok h

theorem operandA_noUnwritten (t : DType) (x : Spec) : NoUnwritten (operandA t x c) fun p => p.2.st.AllWritten :=
  (evalSpec_noUnwritten hc .a t x).bind fun p h => (addressOf_noUnwritten p.1).bind fun _ _ => .ok h.2

end

/-! ## The families of instructions -/

section

variable {s : State} {t : DType} {x y z : Spec} (hs : s.AllWritten)

theorem addInto_noUnwritten {d : Loc t} {u : State} (hd : d.AvoidsPc) (hu : u.AllWritten) (a b : BitVec t.bits) :
    NoUnwritten (addInto t a b d u) fun _ => True :=
  (writeOperand_noUnwritten hu hd _).bind fun _ _ => overflowTrap_noUnwritten _ _

theorem subInto_noUnwritten {d : Loc t} {u : State} (hd : d.AvoidsPc) (hu : u.AllWritten) (m a : BitVec t.bits) :
    NoUnwritten (subInto t m a d u) fun _ => True :=
  (writeOperand_noUnwritten hu hd _).bind fun _ _ => overflowTrap_noUnwritten _ _

include hs

theorem unmodelled_noUnwritten (op : Opcode) : NoUnwritten (unmodelled op s) fun _ => True :=
  (fetch_noUnwritten hs 1).bind fun _ _ => .refuse _

theorem mov_noUnwritten : NoUnwritten (mov t x y s) fun _ => True :=
  (beginInstr_noUnwritten hs).bind fun _ h0 => (operandR_noUnwritten h0 t x).bind fun _ h1 =>
  (operandW_noUnwritten h1 t y).bind fun _ h2 => (endOperands_noUnwritten h2.2).bind fun _ hu =>
  (writeOperand_noUnwritten hu h2.1 _).bind fun _ _ => .ok trivial

theorem movzb_noUnwritten : NoUnwritten (movzb t x y s) fun _ => True :=
  (beginInstr_noUnwritten hs).bind fun _ h0 => (operandR_noUnwritten h0 .b x).bind fun _ h1 =>
  (operandW_noUnwritten h1 t y).bind fun _ h2 => (endOperands_noUnwritten h2.2).bind fun _ hu =>
  (writeOperand_noUnwritten hu h2.1 _).bind fun _ _ => .ok trivial

theorem cvtb_noUnwritten : NoUnwritten (cvtb t x y s) fun _ => True :=
  (beginInstr_noUnwritten hs).bind fun _ h0 => (operandR_noUnwritten h0 .b x).bind fun _ h1 =>
  (operandW_noUnwritten h1 t y).bind fun _ h2 => (endOperands_noUnwritten h2.2).bind fun _ hu =>
  (writeOperand_noUnwritten hu h2.1 _).bind fun _ _ => .ok trivial

theorem mova_noUnwritten : NoUnwritten (mova t x y s) fun _ => True :=
  (beginInstr_noUnwritten hs).bind fun _ h0 => (operandA_noUnwritten h0 t x).bind fun _ h1 =>
  (operandW_noUnwritten h1 .l y).bind fun _ h2 => (endOperands_noUnwritten h2.2).bind fun _ hu =>
  (writeOperand_noUnwritten hu h2.1 _).bind fun _ _ => .ok trivial

theorem clr_noUnwritten : NoUnwritten (clr t x s) fun _ => True :=
  (beginInstr_noUnwritten hs).bind fun _ h0 => (operandW_noUnwritten h0 t x).bind fun _ h1 =>
  (endOperands_noUnwritten h1.2).bind fun _ hu => (writeOperand_noUnwritten hu h1.1 _).bind fun _ _ => .ok trivial

theorem push_noUnwritten : NoUnwritten (push x s) fun _ => True :=
  (beginInstr_noUnwritten hs).bind fun _ h0 => (operandR_noUnwritten h0 .l x).bind fun _ h1 =>
  (endOperands_noUnwritten h1).bind fun _ hu => (pushLongword_noUnwritten hu _).bind fun _ _ => .ok trivial

theorem add2_noUnwritten : NoUnwritten (add2 t x y s) fun _ => True :=
  (beginInstr_noUnwritten hs).bind fun _ h0 => (operandR_noUnwritten h0 t x).bind fun _ h1 =>
  (operandM_noUnwritten h1 t y).bind fun _ h2 => (endOperands_noUnwritten h2.2).bind fun _ hu =>
  addInto_noUnwritten h2.1 hu _ _

theorem add3_noUnwritten : NoUnwritten (add3 t x y z s) fun _ => True :=
  (beginInstr_noUnwritten hs).bind fun _ h0 => (operandR_noUnwritten h0 t x).bind fun _ h1 =>
  (operandR_noUnwritten h1 t y).bind fun _ h2 => (operandW_noUnwritten h2 t z).bind fun _ h3 =>
  (endOperands_noUnwritten h3.2).bind fun _ hu => addInto_noUnwritten h3.1 hu _ _

theorem sub2_noUnwritten : NoUnwritten (sub2 t x y s) fun _ => True :=
  (beginInstr_noUnwritten hs).bind fun _ h0 => (operandR_noUnwritten h0 t x).bind fun _ h1 =>
  (operandM_noUnwritten h1 t y).bind fun _ h2 => (endOperands_noUnwritten h2.2).bind fun _ hu =>
  subInto_noUnwritten h2.1 hu _ _

theorem sub3_noUnwritten : NoUnwritten (sub3 t x y z s) fun _ => True :=
  (beginInstr_noUnwritten hs).bind fun _ h0 => (operandR_noUnwritten h0 t x).bind fun _ h1 =>
  (operandR_noUnwritten h1 t y).bind fun _ h2 => (operandW_noUnwritten h2 t z).bind fun _ h3 =>
  (endOperands_noUnwritten h3.2).bind fun _ hu => subInto_noUnwritten h3.1 hu _ _

theorem ash_noUnwritten : NoUnwritten (ash t x y z s) fun _ => True :=
  (beginInstr_noUnwritten hs).bind fun _ h0 => (operandR_noUnwritten h0 .b x).bind fun _ h1 =>
  (operandR_noUnwritten h1 t y).bind fun _ h2 => (operandW_noUnwritten h2 t z).bind fun _ h3 =>
  (endOperands_noUnwritten h3.2).bind fun _ hu =>
  (writeOperand_noUnwritten hu h3.1 _).bind fun _ _ => overflowTrap_noUnwritten _ _

theorem cmp_noUnwritten : NoUnwritten (cmp t x y s) fun _ => True :=
  (beginInstr_noUnwritten hs).bind fun _ h0 => (operandR_noUnwritten h0 t x).bind fun _ h1 =>
  (operandR_noUnwritten h1 t y).bind fun _ h2 => (endOperands_noUnwritten h2).bind fun _ _ => .ok trivial

theorem tst_noUnwritten : NoUnwritten (tst t x s) fun _ => True :=
  (beginInstr_noUnwritten hs).bind fun _ h0 => (operandR_noUnwritten h0 t x).bind fun _ h1 =>
  (endOperands_noUnwritten h1).bind fun _ _ => .ok trivial

theorem jump_noUnwritten : NoUnwritten (jump x s) fun _ => True :=
  (beginInstr_noUnwritten hs).bind fun _ h0 => (operandA_noUnwritten h0 .b x).bind fun _ h1 =>
  (endOperands_noUnwritten h1).bind fun _ _ => .ok trivial

theorem jumpSub_noUnwritten : NoUnwritten (jumpSub x s) fun _ => True :=
  (beginInstr_noUnwritten hs).bind fun _ h0 => (operandA_noUnwritten h0 .b x).bind fun _ h1 =>
  (endOperands_noUnwritten h1).bind fun _ hu => (pushLongword_noUnwritten hu _).bind fun _ _ => .ok trivial

theorem addOneBranchLeq_noUnwritten {d : Byte} : NoUnwritten (addOneBranchLeq x y d s) fun _ => True :=
  (beginInstr_noUnwritten hs).bind fun _ h0 => (operandR_noUnwritten h0 .l x).bind fun _ h1 =>
  (operandM_noUnwritten h1 .l y).bind fun _ h2 => (endOperands_noUnwritten h2.2).bind fun _ hu =>
  (branchTarget_noUnwritten hu 1 d).bind fun _ hb => (writeOperand_noUnwritten hb h2.1 _).bind fun _ _ =>
  overflowTrap_noUnwritten _ _

theorem branch_noUnwritten {w n : Nat} {d : BitVec w} : NoUnwritten (branch n d s) fun _ => True :=
  (beginInstr_noUnwritten hs).bind fun _ h0 => (branchTarget_noUnwritten h0 n d).bind fun _ _ => .ok trivial

theorem branchIf_noUnwritten {c : State → Except Stop Bool} {d : Byte}
    (hc : ∀ u : State, u.AllWritten → NoUnwritten (c u) fun _ => True) : NoUnwritten (branchIf c d s) fun _ => True :=
  (beginInstr_noUnwritten hs).bind fun _ h0 => (branchTarget_noUnwritten h0 1 d).bind fun _ h1 =>
  (hc _ h1).bind fun _ _ => .ok trivial

theorem condEql_noUnwritten : NoUnwritten (condEql s) fun _ => True := readFlag_noUnwritten hs .z

theorem condNeq_noUnwritten : NoUnwritten (condNeq s) fun _ => True :=
  (readFlag_noUnwritten hs .z).bind fun _ _ => .ok trivial

theorem condLeq_noUnwritten : NoUnwritten (condLeq s) fun _ => True :=
  (readFlag_noUnwritten hs .n).bind fun _ _ => (readFlag_noUnwritten hs .z).bind fun _ _ => .ok trivial

theorem condGeq_noUnwritten : NoUnwritten (condGeq s) fun _ => True :=
  (readFlag_noUnwritten hs .n).bind fun _ _ => .ok trivial

theorem refuseOpcode_noUnwritten (op : Byte) (second : Option Byte) :
    NoUnwritten (refuseOpcode op second s) fun _ => True := by
  refine (fetch_noUnwritten hs 1).bind fun u hu => ?_
  cases second with
  | none => exact .refuse _
  | some op2 => exact (fetch_noUnwritten hu 1).bind fun _ _ => .refuse _

/-- Where everything holds a value, no instruction with an opcode stops for a read of what holds none. -/
theorem exec_noUnwritten {i : Instr} {op : Opcode} (hi : i.opcode? = some op) (w : Unwritten) :
    exec i s ≠ .fault (.unwrittenRead w) := by
  cases i <;> cases hi
  case movb | movw | movl | movq => exact (mov_noUnwritten hs).outcome w
  case movzbw | movzbl => exact (movzb_noUnwritten hs).outcome w
  case movab | movaw | moval | movaq => exact (mova_noUnwritten hs).outcome w
  case pushl => exact (push_noUnwritten hs).outcome w
  case addb2 | addw2 | addl2 => exact (add2_noUnwritten hs).outcome w
  case addb3 | addw3 | addl3 => exact (add3_noUnwritten hs).outcome w
  case subb2 | subw2 | subl2 => exact (sub2_noUnwritten hs).outcome w
  case subb3 | subw3 | subl3 => exact (sub3_noUnwritten hs).outcome w
  case cmpb | cmpw | cmpl => exact (cmp_noUnwritten hs).outcome w
  case tstb | tstw | tstl => exact (tst_noUnwritten hs).outcome w
  case ashl | ashq => exact (ash_noUnwritten hs).outcome w
  case clrb | clrw | clrl | clrq => exact (clr_noUnwritten hs).outcome w
  case cvtbw | cvtbl => exact (cvtb_noUnwritten hs).outcome w
  case beql => exact (branchIf_noUnwritten hs fun _ => condEql_noUnwritten).outcome w
  case bneq => exact (branchIf_noUnwritten hs fun _ => condNeq_noUnwritten).outcome w
  case bleq => exact (branchIf_noUnwritten hs fun _ => condLeq_noUnwritten).outcome w
  case bgeq => exact (branchIf_noUnwritten hs fun _ => condGeq_noUnwritten).outcome w
  case brb | brw => exact (branch_noUnwritten hs).outcome w
  case jmp => exact (jump_noUnwritten hs).outcome w
  case aobleq => exact (addOneBranchLeq_noUnwritten hs).outcome w
  case jsb => exact (jumpSub_noUnwritten hs).outcome w
  all_goals exact (unmodelled_noUnwritten hs _).outcome w

theorem step_noUnwritten (w : Unwritten) : step s ≠ .fault (.unwrittenRead w) := by
  unfold step
  split_ifs
  · exact nofun
  · split
    next i hd =>
      obtain ⟨op, -, hi⟩ := decode_opcode hd
      exact exec_noUnwritten hs hi w
    next => exact (refuseOpcode_noUnwritten hs _ _).outcome w
    next => exact (refuseOpcode_noUnwritten hs _ _).outcome w

end

/-- Settles O15: an instruction writes registers and flags and takes no value away (`step_keepsWritten`), and every
operation an instruction is made of obeys `NoUnwritten` where everything holds a value (`step_noUnwritten`). -/
theorem noUnwrittenReadWhenAllWritten : Obligations.NoUnwrittenReadWhenAllWritten := by
  unfold Obligations.NoUnwrittenReadWhenAllWritten
  intro s
  refine ⟨fun t h => step_keepsWritten h, fun hs => ⟨step_noUnwritten hs, fun t h => ?_⟩⟩
  exact (step_keepsWritten h).allWritten hs

end Sys2Proof.Machine
end

section
/-! PROOFS. Registers as operands, which bits of which registers are read and written (R22, R23); and the state a launch
starts from (R33, R291). -/

namespace Sys2Proof.Machine

open Sys2Proof

/-! ## Register operands: one register, its low bits, a pair, four -/

section

variable {t : DType} {n : Reg} {s : State}

theorem readRegOperand_single (ht : t.size ≤ 4) (h : s.isWritten n = true) :
    readRegOperand t n s = .ok ((s.reg n).setWidth t.bits) := by
  unfold readRegOperand
  rw [if_pos ht]
  exact bind_of_ok (readReg_ok.2 ⟨h, rfl⟩)

theorem readRegOperand_pair (h0 : s.isWritten n = true) (h1 : s.isWritten (n + 1) = true) :
    readRegOperand .q n s = .ok (s.reg (n + 1) ++ s.reg n) := by
  refine (bind_of_ok (readReg_ok.2 ⟨h0, rfl⟩)).trans ((bind_of_ok (readReg_ok.2 ⟨h1, rfl⟩)).trans ?_)
  exact congrArg Except.ok (BitVec.setWidth_eq _)

theorem readRegOperand_four (h0 : s.isWritten n = true) (h1 : s.isWritten (n + 1) = true)
    (h2 : s.isWritten (n + 2) = true) (h3 : s.isWritten (n + 3) = true) :
    readRegOperand .o n s = .ok (s.reg (n + 3) ++ s.reg (n + 2) ++ s.reg (n + 1) ++ s.reg n) := by
  refine (bind_of_ok (readReg_ok.2 ⟨h0, rfl⟩)).trans ((bind_of_ok (readReg_ok.2 ⟨h1, rfl⟩)).trans ?_)
  refine (bind_of_ok (readReg_ok.2 ⟨h2, rfl⟩)).trans ((bind_of_ok (readReg_ok.2 ⟨h3, rfl⟩)).trans ?_)
  exact congrArg Except.ok (BitVec.setWidth_eq _)

/-- The high bits that a narrow write keeps stand above the operand (R22). -/
theorem mergeLow_eq_append {w k : Nat} (old : Word) (v : BitVec w) (hk : k + w = 32) :
    mergeLow old v = (old.extractLsb' w k ++ v).cast hk := by
  ext i hi
  by_cases h : i < w
  · simp [mergeLow, BitVec.getElem_append, h]
  · simp [mergeLow, BitVec.getElem_append, h, BitVec.getLsbD_of_ge v i (by omega), show w + (i - w) = i by omega]

theorem writeRegOperand_narrow (ht : t.size < 4) (h : s.isWritten n = true) (v : BitVec t.bits) {k : Nat}
    (hk : k + t.bits = 32) :
    writeRegOperand t n v s = .ok (s.setReg n (((s.reg n).extractLsb' t.bits k ++ v).cast hk)) := by
  unfold writeRegOperand
  rw [if_pos ht, ← mergeLow_eq_append]
  exact bind_of_ok (readReg_ok.2 ⟨h, rfl⟩)

theorem writeRegOperand_longword (v : Word) : writeRegOperand .l n v s = .ok (s.setReg n v) :=
  congrArg (fun x => Except.ok (s.setReg n x)) (BitVec.setWidth_eq v)

theorem writeRegOperand_pair (v : BitVec 64) :
    writeRegOperand .q n v s =
      .ok ((s.setReg n (v.extractLsb' 0 32)).setReg (n + 1) (v.extractLsb' 32 32)) := by
  rw [← BitVec.setWidth_eq_extractLsb' (by decide), ← BitVec.setWidth_ushiftRight_eq_extractLsb]
  rfl

theorem writeRegOperand_four (v : BitVec 128) :
    writeRegOperand .o n v s =
      .ok ((((s.setReg n (v.extractLsb' 0 32)).setReg (n + 1) (v.extractLsb' 32 32)).setReg (n + 2)
        (v.extractLsb' 64 32)).setReg (n + 3) (v.extractLsb' 96 32)) := by
  rw [← BitVec.setWidth_eq_extractLsb' (by decide)]
  simp only [← BitVec.setWidth_ushiftRight_eq_extractLsb]
  rfl

end

/-- Settles O20, by size: one register, whose low bits a byte or word is, a pair, four. -/
theorem registerOperands : Obligations.RegisterOperands := by
  unfold Obligations.RegisterOperands
  intro s n
  refine ⟨fun h => ⟨?_, ?_, ?_, fun v => ?_, fun v => ?_⟩, writeRegOperand_longword, fun _ => ⟨?_, ?_⟩,
    fun _ => ⟨?_, ?_⟩⟩
  · rw [← BitVec.setWidth_eq_extractLsb' (by decide)]
    exact readRegOperand_single (by decide) h
  · rw [← BitVec.setWidth_eq_extractLsb' (by decide)]
    exact readRegOperand_single (by decide) h
  · exact (readRegOperand_single (by decide) h).trans (congrArg Except.ok (BitVec.setWidth_eq _))
  · exact writeRegOperand_narrow (t := .b) (by decide) h v (k := 24) rfl
  · exact writeRegOperand_narrow (t := .w) (by decide) h v (k := 16) rfl
  · exact readRegOperand_pair
  · exact writeRegOperand_pair
  · exact readRegOperand_four
  · exact writeRegOperand_four

/-! ## The state a launch starts from -/

theorem reg_ofLaunch (l : Launch) (n : Gpr) : (State.ofLaunch l).reg n.reg = (l.initReg n).getD 0 := by
  fin_cases n <;> rfl

theorem isWritten_ofLaunch (l : Launch) (n : Gpr) : (State.ofLaunch l).isWritten n.reg = (l.initReg n).isSome := by
  fin_cases n <;> rfl

/-- A flag of the launch's state: the value supplied for it, or none. -/
theorem supplied_flag {x : Option Bool} {value written : Bool} (hv : value = x.getD false) (hw : written = x.isSome) :
    (∀ b, x = some b → value = b ∧ written = true) ∧ (x = none → written = false) := by
  cases x <;> simp [hv, hw]

/-- Settles O57: each register and flag by what the launch supplies for it. -/
theorem launchState : Obligations.LaunchState := by
  unfold Obligations.LaunchState
  intro l
  have hn := supplied_flag (x := l.initN) rfl rfl
  have hz := supplied_flag (x := l.initZ) rfl rfl
  have hv := supplied_flag (x := l.initV) rfl rfl
  have hc := supplied_flag (x := l.initC) rfl rfl
  refine ⟨fun n => ⟨fun v h => ?_, fun h => ?_⟩, rfl, hn.1, hn.2, hz.1, hz.2, hv.1, hv.2, hc.1, hc.2, rfl, rfl, rfl⟩
  · simp [reg_ofLaunch, isWritten_ofLaunch, h]
  · simp [isWritten_ofLaunch, h]

end Sys2Proof.Machine
end

section
/-! PROOFS. Reading what holds no value stops with `UnwrittenRead` and the register or flag (R34): each operation that reads
one, in the order in which the pseudocode reaches it. -/

namespace Sys2Proof.Machine

open Sys2Proof

/-! ## Flags -/

theorem readFlag_error {f : Flag} {s : State} (h : s.ccWritten.get f = false) :
    readFlag f s = .error (.fault (.unwrittenRead (.flag f))) := by
  unfold readFlag
  simp [h, raiseFault]

/-- A conditional branch that can be fetched stops as its condition does. -/
theorem branchIf_cond_error {cond : State → Except Stop Bool} {d : Byte} {s : State} {e : Stop} (hf : s.Fetchable 2)
    (hc : cond (s.advance 2) = .error e) : branchIf cond d s = .error e := by
  obtain ⟨hf1, hf2⟩ := (Fetchable_add s 1 1).1 hf
  refine (bind_of_ok (beginInstr_ok.2 ⟨hf1, rfl⟩)).trans ?_
  refine (bind_of_ok (branchTarget_ok.2 ⟨hf2, rfl, rfl⟩)).trans (bind_error ?_)
  exact (congrArg cond (advance_advance s 1 1)).trans hc

/-- The conditional branches on a flag that holds no value; `bleq` reads `N` first (log 10). -/
theorem branches_unwritten_flag {s : State} {d : Byte} (hf : s.Fetchable 2) :
    (s.ccWritten.z = false → exec (.beql d) s = .fault (.unwrittenRead (.flag .z)) ∧
      exec (.bneq d) s = .fault (.unwrittenRead (.flag .z)) ∧
      (s.ccWritten.n = true → exec (.bleq d) s = .fault (.unwrittenRead (.flag .z)))) ∧
    (s.ccWritten.n = false → exec (.bgeq d) s = .fault (.unwrittenRead (.flag .n)) ∧
      exec (.bleq d) s = .fault (.unwrittenRead (.flag .n))) := by
  refine ⟨fun hz => ?_, fun hn => ?_⟩
  · have hz' : readFlag .z (s.advance 2) = _ := readFlag_error hz
    refine ⟨?_, ?_, fun hn => ?_⟩
    · exact outcome_fault.2 (branchIf_cond_error (cond := condEql) hf hz')
    · exact outcome_fault.2 (branchIf_cond_error (cond := condNeq) hf (bind_error hz'))
    · have hn' : readFlag .n (s.advance 2) = .ok s.cc.n := readFlag_ok.2 ⟨hn, rfl⟩
      exact outcome_fault.2 (branchIf_cond_error (cond := condLeq) hf ((bind_of_ok hn').trans (bind_error hz')))
  · have hn' : readFlag .n (s.advance 2) = _ := readFlag_error hn
    refine ⟨?_, ?_⟩
    · exact outcome_fault.2 (branchIf_cond_error (cond := condGeq) hf (bind_error hn'))
    · exact outcome_fault.2 (branchIf_cond_error (cond := condLeq) hf (bind_error hn'))

/-! ## Operand specifiers -/

section

variable {acc : Access} {t : DType} {m : MemSpec} {n rx : Reg} {c : Ctx}

/-- The register of a mode that designates memory, directly. -/
theorem evalSpec_mem_unwritten (hm : m.reads = some n) (hn : n ≠ pcReg) (hw : c.st.isWritten n = false)
    (hf : c.st.Fetchable (1 + m.ext)) :
    evalSpec acc t (.mem m) c = .error (.fault (.unwrittenRead (.reg n))) := by
  obtain ⟨hf1, hf2⟩ := (Fetchable_add _ _ _).1 hf
  refine (bind_of_ok (Ctx.fetch_ok.2 ⟨hf1, rfl⟩)).trans ?_
  exact bind_error (address_unwritten hm hn hf2 hw)

/-- An index reads its base's register first. -/
theorem indexed_base_unwritten {d : Nat} (hx : rx ≠ pcReg) (hs : steppedReg m ≠ some rx) (hm : m.reads = some n)
    (hn : n ≠ pcReg) (hw : c.st.isWritten n = false) (hf : c.st.Fetchable (1 + m.ext)) :
    indexed d rx (.mem m) c = .error (.fault (.unwrittenRead (.reg n))) := by
  obtain ⟨hf1, hf2⟩ := (Fetchable_add _ _ _).1 hf
  rw [indexed, if_neg hx]
  refine (bind_of_ok (Ctx.fetch_ok.2 ⟨hf1, rfl⟩)).trans ((if_neg hs).trans ?_)
  exact bind_error (address_unwritten hm hn hf2 hw)

/-- An index reads its index register once its base has been evaluated. -/
theorem indexed_unwritten {d : Nat} (hx : rx ≠ pcReg) (hs : steppedReg m ≠ some rx)
    (hm : m.Ready (c.st.advance (1 + m.ext))) (hw : c.st.isWritten rx = false) (hf : c.st.Fetchable (1 + m.ext)) :
    indexed d rx (.mem m) c = .error (.fault (.unwrittenRead (.reg rx))) := by
  obtain ⟨hf1, hf2⟩ := (Fetchable_add _ _ _).1 hf
  rw [← advance_advance] at hm
  rw [indexed, if_neg hx]
  refine (bind_of_ok (Ctx.fetch_ok.2 ⟨hf1, rfl⟩)).trans ((if_neg hs).trans ?_)
  refine (bind_of_ok (address_ok.2 ⟨hf2, hm, rfl, rfl⟩)).trans (bind_error (readReg_error ?_))
  exact (MemSpec.after_isWritten hs).trans hw

/-- The register of an index's base. -/
theorem evalSpec_index_base_unwritten (hx : rx ≠ pcReg) (hs : steppedReg m ≠ some rx) (hm : m.reads = some n)
    (hn : n ≠ pcReg) (hw : c.st.isWritten n = false) (hf : c.st.Fetchable (2 + m.ext)) :
    evalSpec acc t (.index rx (.mem m)) c = .error (.fault (.unwrittenRead (.reg n))) := by
  rw [show 2 + m.ext = 1 + (1 + m.ext) by omega] at hf
  obtain ⟨hf1, hf2⟩ := (Fetchable_add _ _ _).1 hf
  refine (bind_of_ok (Ctx.fetch_ok.2 ⟨hf1, rfl⟩)).trans ?_
  exact bind_error (indexed_base_unwritten hx hs hm hn hw hf2)

/-- The index register, when the base can be evaluated. -/
theorem evalSpec_index_unwritten (hx : rx ≠ pcReg) (hs : steppedReg m ≠ some rx)
    (hm : m.Ready (c.st.advance (2 + m.ext))) (hw : c.st.isWritten rx = false) (hf : c.st.Fetchable (2 + m.ext)) :
    evalSpec acc t (.index rx (.mem m)) c = .error (.fault (.unwrittenRead (.reg rx))) := by
  rw [show 2 + m.ext = 1 + (1 + m.ext) by omega] at hf hm
  obtain ⟨hf1, hf2⟩ := (Fetchable_add _ _ _).1 hf
  rw [← advance_advance] at hm
  refine (bind_of_ok (Ctx.fetch_ok.2 ⟨hf1, rfl⟩)).trans ?_
  exact bind_error (indexed_unwritten hx hs hm hw hf2)

/-- A register operand that is written or read is its register. -/
theorem evalSpec_register (ha : acc ≠ .a) (hn : n ≠ pcReg) (h8 : t.size = 8 → n.val < 14)
    (h16 : t.size = 16 → n.val < 12) (hf : c.st.Fetchable 1) :
    evalSpec acc t (.register n) c = .ok (.reg n, c.afterSpec t (.register n)) :=
  evalSpec_ok.2 ⟨⟨⟨ha, hn, h8, h16⟩, hf, nofun, nofun⟩, rfl, rfl⟩

end

/-- A legal register operand ends before the program counter (R23). -/
theorem operandRegs_end : ∀ (t : DType) (n : Reg), n ≠ pcReg → (t.size = 8 → n.val < 14) →
    (t.size = 16 → n.val < 12) → n.val + (operandRegs t n).length ≤ 15 := by
  intro t
  cases t <;> decide

/-- A specifier by itself that is read stops as the read does. -/
theorem operandAlone_read_error {acc : Access} {t : DType} {x : Spec} {s : State} {l : Loc t} {c : Ctx} {e : Stop}
    (ha : acc = .r ∨ acc = .m) (hx : evalSpec acc t x (Ctx.start s) = .ok (l, c))
    (hl : readOperand t l c.st = .error e) : operandAlone acc t x s = .error e := by
  rcases ha with rfl | rfl
  · exact bind_error ((bind_of_ok hx).trans (bind_error hl))
  · exact bind_error ((bind_of_ok hx).trans (bind_error hl))

/-! ## Destinations and pushes -/

/-- A destination narrower than a longword is one of an instruction without a branch displacement. -/
theorem branchBytes_of_narrow {i : Instr} {o : Operand} (hd : i.destination = some o) (ht : o.dt.size < 4) :
    i.branchBytes = 0 := by
  cases i with
  | aobleq _ _ _ =>
    cases (show some _ = some o from hd)
    exact absurd ht (Nat.lt_irrefl 4)
  | beql _ | bneq _ | bleq _ | bgeq _ | brb _ | brw _ => cases (show none = some o from hd)
  | _ => rfl

/-- An instruction, its operands evaluated, reads the high bits of a narrow register destination to keep them. -/
theorem exec_narrow_destination_unwritten {i : Instr} {o : Operand} {n : Reg} {s : State} (hr : i.Ready s)
    (hd : i.destination = some o) (ho : o.spec = .register n) (ht : o.dt.size < 4)
    (hw : (i.operandsDone s).isWritten n = false) : exec i s = .fault (.unwrittenRead (.reg n)) := by
  have hb : i.branchBytes = 0 := branchBytes_of_narrow hd ht
  refine exec_store_error (e := .fault (.unwrittenRead (.reg n))) hr (by simp [hb]) hd fun v => ?_
  rw [hb, advance_zero, ho]
  exact writeRegOperand_unwritten ht hw v

theorem exec_push_unwritten {i : Instr} {s : State} (hi : i.opcode? = some .pushl ∨ i.opcode? = some .jsb)
    (hr : i.Ready s) (hw : (i.operandsDone s).isWritten spReg = false) :
    exec i s = .fault (.unwrittenRead (.reg spReg)) :=
  exec_push_error (e := .fault (.unwrittenRead (.reg spReg))) hi hr fun v => pushLongword_unwritten hw v

/-! ## Instructions with one operand -/

section

variable {t : DType} {x : Spec} {s : State} {e : Stop}

theorem tst_operand_error (hf : s.Fetchable 1) (h : operandR t x (Ctx.start s.start) = .error e) :
    tst t x s = .error e :=
  (bind_of_ok (beginInstr_ok.2 ⟨hf, rfl⟩)).trans (bind_error h)

theorem jump_operand_error (hf : s.Fetchable 1) (h : operandA .b x (Ctx.start s.start) = .error e) :
    jump x s = .error e :=
  (bind_of_ok (beginInstr_ok.2 ⟨hf, rfl⟩)).trans (bind_error h)

/-- Operands that step no register meet no hazard. -/
theorem hazardFree_of_steps_none {os : List Operand} (h : ∀ o ∈ os, o.spec.steps = none) : HazardFree s os := by
  rintro - ⟨k, ⟨o, ho, hk⟩, -⟩
  rw [h o ho] at hk
  cases hk

/-- A register as the only operand, written and of at most a longword, can be evaluated. -/
theorem opsReady_register {n : Reg} (hn : n ≠ pcReg) (ht : t.size ≤ 4) (hf : s.Fetchable 2) :
    OpsReady s [⟨.w, t, .register n⟩] := by
  obtain ⟨hf1, hf2⟩ := (Fetchable_add s 1 1).1 hf
  have h8 : t.size = 8 → n.val < 14 := by omega
  have h16 : t.size = 16 → n.val < 12 := by omega
  refine ⟨hf1, ⟨⟨⟨⟨nofun, hn, h8, h16⟩, hf2, nofun, nofun⟩, nofun⟩, trivial⟩, ?_⟩
  exact hazardFree_of_steps_none (by simp [Spec.steps, Spec.memMode])

theorem pushl_zero_ready (hf : s.Fetchable 2) : (Instr.pushl (.literal 0)).Ready s := by
  obtain ⟨hf1, hf2⟩ := (Fetchable_add s 1 1).1 hf
  refine ⟨hf1, ⟨⟨⟨⟨rfl, rfl, fun h => absurd h (by decide)⟩, hf2, nofun, nofun⟩, fun _ => trivial⟩, trivial⟩, ?_⟩
  exact hazardFree_of_steps_none (by simp [Instr.operands, Spec.steps, Spec.memMode])

end

section

variable {s : State} {n : Reg} (hn : n ≠ pcReg) (hw : s.isWritten n = false) (hf : s.Fetchable 2)

include hn hw hf

theorem tstl_register_unwritten : exec (.tstl (.register n)) s = .fault (.unwrittenRead (.reg n)) := by
  obtain ⟨hf1, hf2⟩ := (Fetchable_add s 1 1).1 hf
  refine outcome_fault.2 (tst_operand_error hf1 ?_)
  refine (bind_of_ok (evalSpec_register (acc := .r) (t := .l) nofun hn nofun nofun hf2)).trans (bind_error ?_)
  exact bind_error (readReg_error hw)

theorem tstl_registerDeferred_unwritten :
    exec (.tstl (.mem (.registerDeferred n))) s = .fault (.unwrittenRead (.reg n)) := by
  obtain ⟨hf1, hf2⟩ := (Fetchable_add s 1 1).1 hf
  have hx : evalSpec .r .l (.mem (.registerDeferred n)) (Ctx.start s.start) = _ := evalSpec_mem_unwritten rfl hn hw hf2
  exact outcome_fault.2 (tst_operand_error hf1 (bind_error hx))

theorem clrb_register_unwritten : exec (.clrb (.register n)) s = .fault (.unwrittenRead (.reg n)) :=
  exec_narrow_destination_unwritten (i := .clrb (.register n))
    (opsReady_register hn (by decide) hf) rfl rfl (show 1 < 4 by decide) hw

theorem clrw_register_unwritten : exec (.clrw (.register n)) s = .fault (.unwrittenRead (.reg n)) :=
  exec_narrow_destination_unwritten (i := .clrw (.register n))
    (opsReady_register hn (by decide) hf) rfl rfl (show 2 < 4 by decide) hw

omit hn in
theorem pushl_unwritten (e : n = spReg) : exec (.pushl (.literal 0)) s = .fault (.unwrittenRead (.reg n)) := by
  subst e
  exact exec_push_unwritten (.inl rfl) (pushl_zero_ready hf) hw

omit hf in
theorem jmp_index_unwritten {m : Reg} (hm : m ≠ pcReg) (hmw : s.isWritten m = true) (hf3 : s.Fetchable 3) :
    exec (.jmp (.index n (.mem (.registerDeferred m)))) s = .fault (.unwrittenRead (.reg n)) := by
  obtain ⟨hf1, hf2⟩ := (Fetchable_add s 1 2).1 hf3
  have hbase : (MemSpec.registerDeferred m).Ready ((s.advance 1).advance 2) :=
    ⟨⟨fun e => hm (by cases e; rfl), nofun⟩, fun k e => by cases e; exact hmw, nofun⟩
  exact outcome_fault.2 (jump_operand_error hf1 (bind_error (evalSpec_index_unwritten hn nofun hbase hw hf2)))

omit hw in
/-- A longword is written whole, and so need hold no value before. -/
theorem clrl_register_writes : ∃ t, exec (.clrl (.register n)) s = .next t ∧ t.isWritten n = true ∧ t.reg n = 0 := by
  have hok := clr_ok.2 ⟨opsReady_register (t := .l) hn (by decide) hf, fun h => absurd h (Nat.lt_irrefl 4), rfl⟩
  refine ⟨_, congrArg outcome hok, ?_, ?_⟩
  · simp [Spec.loc, Loc.store]
  · simp [Spec.loc, Loc.store]

end

/-- Settles O56, clause by clause: flags, modes, index registers, register groups, kept bits, pushes, and the six
instructions. -/
theorem unwrittenReadFaults : Obligations.UnwrittenReadFaults := by
  unfold Obligations.UnwrittenReadFaults
  refine ⟨fun s d => branches_unwritten_flag, ?mode, ?index, ?group, ?narrow, ?push, ?six⟩
  case mode =>
    intro acc dt m n s hm hn hw hf
    rw [exec_alone, operandAlone_error (evalSpec_mem_unwritten hm hn hw hf)]
    rfl
  case index =>
    intro acc dt m rx s hx hs hf
    refine ⟨fun n hm hn hw => ?_, fun hm hw => ?_⟩
    · exact outcome_fault.2 (operandAlone_error (evalSpec_index_base_unwritten hx hs hm hn hw hf))
    · exact outcome_fault.2 (operandAlone_error (evalSpec_index_unwritten hx hs hm hw hf))
  case group =>
    intro acc dt n k s ha hn h8 h16 hf hk hw hl
    have hacc : acc ≠ .a := by rcases ha with rfl | rfl <;> exact nofun
    refine outcome_fault.2 (operandAlone_read_error ha (evalSpec_register hacc hn h8 h16 hf) ?_)
    exact readRegOperand_unwritten (operandRegs_end dt n hn h8 h16) hk hw hl
  case narrow => exact fun i o n s => exec_narrow_destination_unwritten
  case push => exact fun i s => exec_push_unwritten
  case six =>
    intro s n hn hw hf
    exact ⟨tstl_register_unwritten hn hw hf, tstl_registerDeferred_unwritten hn hw hf, clrb_register_unwritten hn hw hf,
      clrw_register_unwritten hn hw hf, pushl_unwritten hw hf, fun m hm => jmp_index_unwritten hn hw hm,
      clrl_register_writes hn hf⟩

end Sys2Proof.Machine
end

section
/-! PROOFS. What an instruction and a step do to memory (R43, R54, R296): they store bytes that may be written, or none,
and an instruction stores them at its destination or on the stack. -/

namespace Sys2Proof.Machine

open Sys2Proof

/-! ## The bytes a step stores -/

/-- `WritableFrom` looks at the launch's parameters alone. -/
theorem writableFrom_congr {s u : State} (h : u.params = s.params) {a : Word} {n : Nat} :
    u.WritableFrom a n ↔ s.WritableFrom a n := by
  unfold State.WritableFrom State.isWritable State.isCode
  rw [h]

/-- The memory of `t` is that of `s` with some bytes stored that may be written; none, where nothing is stored. -/
def StoresAllowed (s t : State) : Prop :=
  ∃ (p : Word) (n v : Nat), s.WritableFrom p n ∧ t.mem = storeBytes s.mem p n v

theorem StoresAllowed.of_mem_eq {s t : State} (h : t.mem = s.mem) : StoresAllowed s t :=
  ⟨0, 0, 0, nofun, h⟩

theorem StoresAllowed.canonical {s t : State} (h : StoresAllowed s t) (hs : s.Canonical) : t.Canonical := by
  obtain ⟨p, n, v, -, ht⟩ := h
  rw [State.Canonical, ht]
  exact wf_storeBytes _ _ _ _ hs

theorem StoresAllowed.byteAt_protected {s t : State} (h : StoresAllowed s t) (hs : s.Canonical) {a : Word}
    (ha : s.isWritable a = false ∨ s.isCode a = true) : t.byteAt a = s.byteAt a := by
  obtain ⟨p, n, v, hw, ht⟩ := h
  rw [State.byteAt, ht]
  exact read_storeBytes_outside _ _ _ _ _ hs fun k hk e => not_among_of_writable hw ha ⟨k, hk, e⟩

/-- A store at a location that may be written. -/
theorem Loc.store_allowed {t : DType} {x : Loc t} {s : State} (hw : x.Writable s) (v : BitVec t.bits) :
    StoresAllowed s (x.store s v) := by
  cases x with
  | lit _ => exact hw.elim
  | reg n => exact .of_mem_eq (Loc.store_mem_of_reg s v)
  | mem a => exact ⟨a, t.size, v.toNat, hw, rfl⟩

theorem pushLongword_allowed {v : Word} {s w : State} (h : pushLongword v s = .ok w) : StoresAllowed s w := by
  obtain ⟨-, hw, rfl⟩ := pushLongword_ok.1 h
  exact ⟨_, 4, v.toNat, hw, rfl⟩

/-- Operands store nothing, and what follows the store changes no byte. -/
theorem StoresAllowed.of_operandsDone {i : Instr} {s w t : State} (h : StoresAllowed (i.operandsDone s) w)
    (ht : SameButPc w t) : StoresAllowed s t := by
  obtain ⟨p, n, v, hw, hm⟩ := h
  refine ⟨p, n, v, (writableFrom_congr (operandsDone_params s i)).1 hw, ?_⟩
  rw [ht.mem, hm, operandsDone_mem]

theorem exec_storesAllowed {i : Instr} {s t : State} (h : exec i s = .next t) : StoresAllowed s t := by
  cases exec_effect h with
  | dest o v _ hw ht => exact (Loc.store_allowed hw v).of_operandsDone ht
  | none _ ht => exact .of_mem_eq (by rw [ht.mem, operandsDone_mem])
  | stack w v _ _ hp ht => exact (pushLongword_allowed hp).of_operandsDone ht
  | alone _ ht => exact .of_mem_eq (by rw [ht, operandsAfter_mem])

/-- A step stays at the end of the run, or executes an instruction. -/
theorem step_storesAllowed {s t : State} (h : step s = .next t) : StoresAllowed s t := by
  obtain rfl | ⟨-, i, -, hi⟩ := step_next h
  · exact .of_mem_eq rfl
  · exact exec_storesAllowed hi

/-- Settles O11: storing bytes keeps the canonical form. -/
theorem stepKeepsCanonical : Obligations.StepKeepsCanonical := by
  unfold Obligations.StepKeepsCanonical
  exact fun s t hs h => (step_storesAllowed h).canonical hs

/-- Settles O14: a protected byte is not among the bytes a step may store. -/
theorem stepKeepsProtectedBytes : Obligations.StepKeepsProtectedBytes := by
  unfold Obligations.StepKeepsProtectedBytes
  exact fun s t a hs h ha => (step_storesAllowed h).byteAt_protected hs ha

/-! ## Instructions with a destination (R43, R135) -/

theorem SameButPc.byteAt {w t : State} (h : SameButPc w t) (a : Word) : t.byteAt a = w.byteAt a := by
  rw [State.byteAt, h.mem, State.byteAt]

@[simp] theorem operandsDone_byteAt (s : State) (i : Instr) (a : Word) : (i.operandsDone s).byteAt a = s.byteAt a := by
  rw [State.byteAt, operandsDone_mem, State.byteAt]

theorem opcode_of_destination {i : Instr} {o : Operand} (h : i.destination = some o) : i.opcode? ≠ none := by
  intro hi
  rw [Instr.destination, if_pos hi] at h
  cases h

/-- An instruction with a destination does nothing but evaluate its operands, store its result there, and set flags and
the program counter. -/
theorem exec_stores_at_destination {i : Instr} {o : Operand} {s t : State} (hd : i.destination = some o)
    (h : exec i s = .next t) :
    ∃ v, SameButPc ((o.spec.loc o.dt (i.beforeDestination s)).store (i.operandsDone s) v) t := by
  cases exec_effect h with
  | dest o' v hd' _ ht =>
    obtain rfl : o' = o := Option.some.inj (hd'.symm.trans hd)
    exact ⟨v, ht⟩
  | none hd' _ => cases hd'.symm.trans hd
  | stack _ _ hd' _ _ _ => cases hd'.symm.trans hd
  | alone hi _ => exact absurd hi (opcode_of_destination hd)

theorem storeAddress_eq {i : Instr} {o : Operand} (hd : i.destination = some o) (s : State) :
    i.storeAddress s = (o.spec.loc o.dt (i.beforeDestination s)).address? := by
  rw [Instr.storeAddress, hd, Option.bind_some]

/-- Settles O50: the operands store nothing, and the result is stored at the destination's location. -/
theorem destinationFrameMemory : Obligations.DestinationFrameMemory := by
  unfold Obligations.DestinationFrameMemory
  intro i o s t hs hd h x hx
  obtain ⟨v, ht⟩ := exec_stores_at_destination hd h
  rw [storeAddress_eq hd] at hx
  have hdone : (i.operandsDone s).mem.wf = true := by rwa [operandsDone_mem]
  rw [ht.byteAt, Loc.store_byteAt _ _ v hdone x hx, operandsDone_byteAt]

/-! ## Instructions that push (R164, R230) -/

theorem isWritten_setReg_ne (s : State) {n r : Reg} (v : Word) (h : r ≠ n) :
    (s.setReg n v).isWritten r = s.isWritten r := by
  simp [isWritten_setReg, h]

/-- `pushl` and `jsb` do nothing but evaluate their operand, push, and set flags and the program counter. -/
theorem exec_pushes {i : Instr} {s t : State} (hi : i.opcode? = some .pushl ∨ i.opcode? = some .jsb)
    (h : exec i s = .next t) : ∃ v w, pushLongword v (i.operandsDone s) = .ok w ∧ SameButPc w t := by
  cases i <;> simp [Instr.opcode?] at hi
  case pushl x =>
    obtain ⟨-, w, hp, rfl⟩ := push_ok.1 (outcome_next.1 h)
    exact ⟨_, w, hp, (SameButPc.refl w).setNZV _ _ _⟩
  case jsb x =>
    obtain ⟨-, a, -, w, hp, rfl⟩ := jumpSub_ok.1 (outcome_next.1 h)
    exact ⟨_, w, hp, (SameButPc.refl w).setPc a⟩

section

variable {v : Word} {s w : State} (h : pushLongword v s = .ok w)

include h

theorem pushLongword_byteAt (hs : s.Canonical) {a : Word} (ha : ¬ Among a (s.reg spReg - 4) 4) :
    w.byteAt a = s.byteAt a := by
  obtain ⟨-, -, rfl⟩ := pushLongword_ok.1 h
  exact read_storeBytes_outside _ _ _ _ _ hs fun k hk e => ha ⟨k, hk, e⟩

theorem pushLongword_reg {r : Reg} (hr : r ≠ spReg) : w.reg r = s.reg r := by
  obtain ⟨-, -, rfl⟩ := pushLongword_ok.1 h
  exact reg_setReg_ne s _ hr

theorem pushLongword_isWritten {r : Reg} (hr : r ≠ spReg) : w.isWritten r = s.isWritten r := by
  obtain ⟨-, -, rfl⟩ := pushLongword_ok.1 h
  exact isWritten_setReg_ne s (s.reg spReg - 4) hr

end

/-- Settles O52: the push changes `sp` and the four bytes, the operand the program counter and what it steps. -/
theorem stackFrame : Obligations.StackFrame := by
  unfold Obligations.StackFrame
  intro i s t hi hs h
  obtain ⟨v, w, hp, ht⟩ := exec_pushes hi h
  constructor
  · intro x hx
    have hdone : (i.operandsDone s).Canonical := by rwa [State.Canonical, operandsDone_mem]
    rw [ht.byteAt, pushLongword_byteAt hp hdone hx, operandsDone_byteAt]
  · intro r hpc hsp hsteps
    constructor
    · rw [ht.reg r hpc, pushLongword_reg hp hsp, operandsDone_reg hpc hsteps]
    · rw [ht.isWritten, pushLongword_isWritten hp hsp, operandsDone_isWritten hsteps]

end Sys2Proof.Machine
end

section
/-! PROOFS. The bytes of a value in memory (R42 to R44): which byte of a value stands at which address when it is read,
written and read back in part; and how a write that is not allowed stops (R43, R103, R164, R230). -/

namespace Sys2Proof.Machine

open Sys2Proof

/-! ## The bytes of a value (R44) -/

/-- A group of bits of a word, as a number. -/
theorem extractLsb'_eq_ofNat {w : Nat} (v : BitVec w) (start len : Nat) :
    v.extractLsb' start len = BitVec.ofNat len (v.toNat / 2 ^ start) := by
  apply BitVec.eq_of_toNat_eq
  rw [BitVec.extractLsb'_toNat, BitVec.toNat_ofNat, Nat.shiftRight_eq_div_pow]

theorem two_pow_bytes (n : Nat) : 2 ^ (8 * n) = 256 ^ n := by
  rw [Nat.pow_mul]

theorem loadBytes_lt (m : Memory) (a : Word) (n : Nat) : loadBytes m a n < 256 ^ n := by
  induction n generalizing a with
  | zero => simp [loadBytes]
  | succ n ih =>
    have hb := (m.read a.toNat).isLt
    have hr := ih (a + 1)
    rw [loadBytes, Nat.pow_succ]
    omega

/-- Byte `k` of the `n` bytes loaded from `a` is the byte at `a + k`. -/
theorem ofNat_loadBytes_div (m : Memory) (a : Word) {n k : Nat} (hk : k < n) :
    BitVec.ofNat 8 (loadBytes m a n / 256 ^ k) = m.read (a + BitVec.ofNat 32 k).toNat := by
  induction n generalizing a k with
  | zero => omega
  | succ n ih =>
    have hb := (m.read a.toNat).isLt
    rw [loadBytes]
    cases k with
    | zero =>
      apply BitVec.eq_of_toNat_eq
      simp only [BitVec.add_zero, BitVec.toNat_ofNat, Nat.pow_zero, Nat.div_one]
      omega
    | succ k =>
      have hrest : ((m.read a.toNat).toNat + 256 * loadBytes m (a + 1) n) / 256 = loadBytes m (a + 1) n := by omega
      rw [addr_succ, Nat.pow_succ', ← Nat.div_div_eq_div_mul, hrest]
      exact ih (a + 1) (by omega)

/-- Settles O17: where every byte may be read, by the bytes loaded; else by the lowest byte that may not. -/
theorem memReadRule : Obligations.MemReadRule := by
  unfold Obligations.MemReadRule
  intro s a n
  refine ⟨fun hr => ⟨_, memRead_ok.2 ⟨hr, rfl⟩, fun k hk => ?_⟩, fun k hk hr hb => memRead_error hk hr hb⟩
  have hlt : loadBytes s.mem a n < 2 ^ (8 * n) := two_pow_bytes n ▸ loadBytes_lt s.mem a n
  rw [extractLsb'_eq_ofNat, BitVec.toNat_ofNat, Nat.mod_eq_of_lt hlt, two_pow_bytes]
  exact ofNat_loadBytes_div s.mem a hk

/-- Loading some of the bytes just stored. -/
theorem loadBytes_storeBytes_part (m : Memory) (a : Word) (n v j k : Nat) (h : m.wf = true) (hn : n ≤ addressCount)
    (hjk : j + k ≤ n) :
    loadBytes (storeBytes m a n v) (a + BitVec.ofNat 32 j) k = v / 256 ^ j % 256 ^ k := by
  refine loadBytes_of_bytes _ _ _ _ fun i hi => ?_
  rw [BitVec.add_assoc, ← BitVec.ofNat_add, read_storeBytes_inside m a n v (j + i) h hn (by omega), Nat.pow_add,
    Nat.div_div_eq_div_mul]

theorem ReadableFrom_part {s : State} {a : Word} {n j k : Nat} (h : s.ReadableFrom a n) (hjk : j + k ≤ n) :
    s.ReadableFrom (a + BitVec.ofNat 32 j) k := by
  intro i hi
  rw [BitVec.add_assoc, ← BitVec.ofNat_add]
  exact h (j + i) (by omega)

/-- Reading `k` of the bytes just written, from byte `j` on, gives that part of the value (R44). -/
theorem memRead_part_of_memWrite {s t : State} {a : Word} {n j k : Nat} {v : BitVec (8 * n)} (hs : s.Canonical)
    (hn : n ≤ addressCount) (h : memWrite a n v s = .ok t) (hr : t.ReadableFrom a n) (hjk : j + k ≤ n) :
    memRead (a + BitVec.ofNat 32 j) k t = .ok (v.extractLsb' (8 * j) (8 * k)) := by
  obtain ⟨-, rfl⟩ := memWrite_ok.1 h
  refine memRead_ok.2 ⟨ReadableFrom_part hr hjk, ?_⟩
  rw [loadBytes_storeBytes_part _ _ _ _ _ _ hs hn hjk, extractLsb'_eq_ofNat]
  apply BitVec.eq_of_toNat_eq
  simp only [BitVec.toNat_ofNat, two_pow_bytes, Nat.mod_mod]

/-- Settles O19: the longword and its parts from byte 0, and its byte 3. -/
theorem littleEndianReadBack : Obligations.LittleEndianReadBack := by
  unfold Obligations.LittleEndianReadBack
  intro s t a v hs h hr
  have part (j k : Nat) (hjk : j + k ≤ 4) :=
    memRead_part_of_memWrite (v := v) hs (show 4 ≤ addressCount by decide) h hr hjk
  have low (k : Nat) (hk : k ≤ 4) : memRead a k t = .ok (v.extractLsb' 0 (8 * k)) := by
    simpa using part 0 k (by omega)
  refine ⟨?_, low 1 (by omega), low 2 (by omega), part 3 1 (by omega)⟩
  exact (low 4 (by omega)).trans (congrArg Except.ok BitVec.extractLsb'_eq_self)

/-! ## Writes that are not allowed (R43) -/

theorem writeStop_unwritable {s : State} {a : Word} (h : s.isWritable a = false) :
    writeStop s a = some (.fault (.accessViolation a .write)) := by
  simp [writeStop, h]

theorem writeStop_code {s : State} {a : Word} (hw : s.isWritable a = true) (hc : s.isCode a = true) :
    writeStop s a = some (.refuse (.storeIntoCode a)) := by
  simp [writeStop, hw, hc]

theorem writeStop_congr {s u : State} (h : u.params = s.params) (a : Word) : writeStop u a = writeStop s a := by
  unfold writeStop State.isWritable State.isCode
  rw [h]

/-- An instruction that stops as the write of the byte does. -/
theorem writeStops_of_writeStop {i : Instr} {s : State} {a : Word} {k : Nat}
    (h : s.WritableFrom a k → ∀ e, writeStop s (a + BitVec.ofNat 32 k) = some e → exec i s = outcome (.error e)) :
    Claims.WriteStops i s a k :=
  fun hw => ⟨fun hb => h hw _ (writeStop_unwritable hb), fun hb hc => h hw _ (writeStop_code hb hc)⟩

theorem memWrite_bytes {s : State} {a : Word} {n : Nat} (v : BitVec (8 * n)) (hs : s.Canonical)
    (hn : n ≤ addressCount) (hw : s.WritableFrom a n) :
    ∃ m, memWrite a n v s = .ok { s with mem := m } ∧
      (∀ k : Nat, k < n → m.read (a + BitVec.ofNat 32 k).toNat = v.extractLsb' (8 * k) 8) ∧
      ∀ x : Word, ¬ Among x a n → m.read x.toNat = s.byteAt x := by
  refine ⟨_, memWrite_ok.2 ⟨hw, rfl⟩, fun k hk => ?_, fun x hx => ?_⟩
  · rw [read_storeBytes_inside _ _ _ _ _ hs hn hk, extractLsb'_eq_ofNat, two_pow_bytes]
  · exact read_storeBytes_outside _ _ _ _ _ hs fun k hk e => hx ⟨k, hk, e⟩

theorem address?_eq_some {t : DType} {x : Loc t} {a : Word} (h : x.address? = some a) : x = .mem a := by
  cases x <;> cases h
  rfl

/-- An instruction whose destination in memory has a byte that may not be written (R103). -/
theorem exec_destination_writeStop {i : Instr} {o : Operand} {s : State} {a : Word} {k : Nat} {e : Stop}
    (hr : i.Ready s) (hf : (i.operandsDone s).Fetchable i.branchBytes) (hd : i.destination = some o)
    (ha : i.storeAddress s = some a) (hk : k < o.dt.size) (hw : s.WritableFrom a k)
    (he : writeStop s (a + BitVec.ofNat 32 k) = some e) : exec i s = outcome (.error e) := by
  have hp : ((i.operandsDone s).advance i.branchBytes).params = s.params := operandsDone_params s i
  rw [storeAddress_eq hd] at ha
  refine exec_store_error hr hf hd fun v => ?_
  rw [address?_eq_some ha]
  exact memWrite_error hk ((writableFrom_congr hp).2 hw) ((writeStop_congr hp _).trans he) v

/-- `pushl` or `jsb` with a byte of the stack that may not be written (R164, R230). -/
theorem exec_push_writeStop {i : Instr} {s : State} {k : Nat} {e : Stop}
    (hi : i.opcode? = some .pushl ∨ i.opcode? = some .jsb) (hr : i.Ready s)
    (hsp : (i.operandsDone s).isWritten spReg = true) (hk : k < 4)
    (hw : s.WritableFrom ((i.operandsDone s).reg spReg - 4) k)
    (he : writeStop s ((i.operandsDone s).reg spReg - 4 + BitVec.ofNat 32 k) = some e) :
    exec i s = outcome (.error e) := by
  have hp := operandsDone_params s i
  exact exec_push_error hi hr
    (pushLongword_error hsp hk ((writableFrom_congr hp).2 hw) ((writeStop_congr hp _).trans he))

/-- Settles O18: the operation by itself, then an instruction that stores to memory, then a push. -/
theorem memWriteRule : Obligations.MemWriteRule := by
  unfold Obligations.MemWriteRule
  refine ⟨fun s a n v hs hn => ⟨?written, fun k hk hw => ⟨?unwritable, ?code⟩⟩, ?destination, ?push⟩
  case written =>
    have hn' : n ≤ addressCount := hn.trans (by decide)
    exact memWrite_bytes v hs hn'
  case unwritable => exact fun hb => memWrite_error hk hw (writeStop_unwritable hb) v
  case code => exact fun hb hc => memWrite_error hk hw (writeStop_code hb hc) v
  case destination =>
    intro i o s a k hr hf hd ha hk
    exact writeStops_of_writeStop fun hw e => exec_destination_writeStop hr hf hd ha hk hw
  case push =>
    intro i s k hi hr hsp hk
    exact writeStops_of_writeStop fun hw e => exec_push_writeStop hi hr hsp hk hw

end Sys2Proof.Machine
end

section
/-! PROOFS. What instructions are made of: values of several bytes in the instruction stream, least significant byte first
(R45, R68), and the fields of a specifier byte (R65). -/

namespace Sys2Proof

open Machine Laws

/-! ## Little-endian values in the instruction stream (R45, R68) -/

/-- Reading `n` bytes of a value gives back what `n` bytes can hold of it. -/
theorem takeLE_leBytes_append (n v : Nat) (rest : List Byte) :
    takeLE n (leBytes n v ++ rest) = (v % 256 ^ n, rest) := by
  induction n generalizing v with
  | zero => simp [takeLE, leBytes, Nat.mod_one]
  | succ n ih => simp [takeLE, takeByte, leBytes, ih, Nat.pow_succ', Nat.mod_mul]

/-- A value of `n` bytes is read back whole. -/
theorem takeLE_leBytes_toNat {w n : Nat} (hw : w = 8 * n) (v : BitVec w) (rest : List Byte) :
    takeLE n (leBytes n v.toNat ++ rest) = (v.toNat, rest) := by
  subst hw
  rw [takeLE_leBytes_append, ← two_pow_bytes, Nat.mod_eq_of_lt v.isLt]

theorem takeLE_lt (n : Nat) (bs : List Byte) : (takeLE n bs).1 < 256 ^ n := by
  induction n generalizing bs with
  | zero => simp [takeLE]
  | succ n ih =>
    have hb := (takeByte bs).1.isLt
    have hv := ih (takeByte bs).2
    simp only [takeLE, Nat.pow_succ']
    omega

/-- The bytes read as a value are the bytes of that value. -/
theorem leBytes_takeLE {n : Nat} {bs : List Byte} (h : n ≤ bs.length) :
    leBytes n (takeLE n bs).1 ++ (takeLE n bs).2 = bs := by
  induction n generalizing bs with
  | zero => rfl
  | succ n ih =>
    cases bs with
    | nil => simp at h
    | cons b bs =>
      have hb : BitVec.ofNat 8 (b.toNat + 256 * (takeLE n bs).1) = b := by
        apply BitVec.eq_of_toNat_eq
        have := b.isLt
        rw [BitVec.toNat_ofNat]
        omega
      have hv : (b.toNat + 256 * (takeLE n bs).1) / 256 = (takeLE n bs).1 := by
        have := b.isLt
        omega
      simp [takeLE, takeByte, leBytes, hb, hv, ih (Nat.le_of_succ_le_succ h)]

/-- The same through the word that holds the value. -/
theorem leBytes_ofNat_takeLE {w n : Nat} (hw : 8 * n ≤ w) {bs : List Byte} (h : n ≤ bs.length) :
    leBytes n (BitVec.ofNat w (takeLE n bs).1).toNat ++ (takeLE n bs).2 = bs := by
  have hv := takeLE_lt n bs
  rw [← two_pow_bytes] at hv
  rw [BitVec.toNat_ofNat, Nat.mod_eq_of_lt (hv.trans_le (Nat.pow_le_pow_right (by decide) hw)), leBytes_takeLE h]

/-! ## The fields of a specifier byte (R65) -/

theorem specByte_toNat {mode n : Nat} (h : 16 * mode + n < 256) : (specByte mode n).toNat = 16 * mode + n :=
  Nat.mod_eq_of_lt h

theorem modeField_specByte {mode n : Nat} (hm : mode < 16) (hn : n < 16) : modeField (specByte mode n) = mode := by
  rw [modeField, specByte_toNat] <;> omega

theorem modeField_specByte_gpr {mode : Nat} (hm : mode < 16) (n : Gpr) : modeField (specByte mode n.val) = mode :=
  modeField_specByte hm (n.isLt.trans (by decide))

theorem specByte_toNat_mod {mode n : Nat} (hm : mode < 16) (hn : n < 16) : (specByte mode n).toNat % 16 = n := by
  rw [specByte_toNat] <;> omega

theorem regField_specByte {mode : Nat} (hm : mode < 16) (n : Reg) : regField (specByte mode n.val) = n :=
  Fin.ext (specByte_toNat_mod hm n.isLt)

theorem specByte_gpr_not_pc {mode : Nat} (hm : mode < 16) (n : Gpr) : (specByte mode n.val).toNat % 16 ≠ 15 := by
  rw [specByte_toNat_mod hm (n.isLt.trans (by decide))]
  exact n.isLt.ne

theorem specByte_literal_toNat (lit : BitVec 6) : (specByte 0 lit.toNat).toNat = lit.toNat := by
  rw [specByte_toNat] <;> omega

/-- The six bits of a literal leave the mode 0 to 3 (R65). -/
theorem modeField_literal (lit : BitVec 6) : modeField (specByte 0 lit.toNat) < 4 := by
  rw [modeField, specByte_literal_toNat]
  omega

theorem gprField_eq_some_iff {s : Byte} {n : Gpr} : gprField s = some n ↔ s.toNat % 16 = n.val := by
  unfold gprField
  split
  next => simp [Fin.ext_iff]
  next h => exact ⟨nofun, fun e => absurd (e ▸ n.isLt) h⟩

theorem gprField_eq_none_iff {s : Byte} : gprField s = none ↔ s.toNat % 16 = 15 := by
  unfold gprField
  split
  next h => exact ⟨nofun, fun e => absurd h (by omega)⟩
  next => exact ⟨fun _ => by omega, fun _ => rfl⟩

theorem gprField_specByte {mode : Nat} (hm : mode < 16) (n : Gpr) : gprField (specByte mode n.val) = some n :=
  gprField_eq_some_iff.2 (specByte_toNat_mod hm (n.isLt.trans (by decide)))

theorem gprField_specByte_pc {mode : Nat} (hm : mode < 16) : gprField (specByte mode 15) = none :=
  gprField_eq_none_iff.2 (specByte_toNat_mod hm (by decide))

theorem specByte_fields (s : Byte) : specByte (modeField s) (s.toNat % 16) = s := by
  apply BitVec.eq_of_toNat_eq
  have := s.isLt
  rw [modeField, specByte_toNat] <;> omega

theorem specByte_regField {s : Byte} {mode : Nat} (hm : modeField s = mode) : specByte mode (regField s).val = s :=
  hm ▸ specByte_fields s

theorem specByte_gprField {s : Byte} {mode : Nat} {n : Gpr} (hm : modeField s = mode) (hn : gprField s = some n) :
    specByte mode n.val = s :=
  gprField_eq_some_iff.1 hn ▸ hm ▸ specByte_fields s

theorem specByte_pc {s : Byte} {mode : Nat} (hm : modeField s = mode) (hn : gprField s = none) : specByte mode 15 = s :=
  gprField_eq_none_iff.1 hn ▸ hm ▸ specByte_fields s

end Sys2Proof
end

section
/-! PROOFS. A list of bytes has one reading as an operand specifier: decoding and encoding a specifier undo each other
(R65 to R69). -/

namespace Sys2Proof

open Machine Laws

/-! ## Displacement modes (R66, R67) -/

section

variable {w bytes mode : Nat} {s : Byte} {bs : List Byte} {disp : Gpr → BitVec w → MemSpec} {rel : BitVec w → MemSpec}

theorem decodeDisp_of_gprField_some {n : Gpr} (hn : gprField s = some n) :
    decodeDisp w bytes s bs disp rel = (disp n (BitVec.ofNat w (takeLE bytes bs).1), (takeLE bytes bs).2) := by
  simp [decodeDisp, hn]

theorem decodeDisp_of_gprField_none (hn : gprField s = none) :
    decodeDisp w bytes s bs disp rel = (rel (BitVec.ofNat w (takeLE bytes bs).1), (takeLE bytes bs).2) := by
  simp [decodeDisp, hn]

theorem decodeDisp_gpr (hw : w = 8 * bytes) (hm : mode < 16) (n : Gpr) (d : BitVec w) (rest : List Byte) :
    decodeDisp w bytes (specByte mode n.val) (leBytes bytes d.toNat ++ rest) disp rel = (disp n d, rest) := by
  simp [decodeDisp_of_gprField_some (gprField_specByte hm n), takeLE_leBytes_toNat hw]

theorem decodeDisp_pc (hw : w = 8 * bytes) (hm : mode < 16) (d : BitVec w) (rest : List Byte) :
    decodeDisp w bytes (specByte mode 15) (leBytes bytes d.toNat ++ rest) disp rel = (rel d, rest) := by
  simp [decodeDisp_of_gprField_none (gprField_specByte_pc hm), takeLE_leBytes_toNat hw]

end

/-! ## The modes that designate memory, there and back -/

/-- The bytes of a mode that designates memory are read back as it, whatever follows. -/
theorem decodeMem_encodeMem (m : MemSpec) (rest : List Byte) :
    ∃ s bs, encodeMem m ++ rest = s :: bs ∧ decodeMem s bs = some (m, rest) := by
  cases m with
  | registerDeferred n | autodecrement n =>
    exact ⟨_, _, rfl, by simp [decodeMem, modeField_specByte, regField_specByte]⟩
  | autoincrement n | autoincrementDeferred n =>
    exact ⟨_, _, rfl, by simp [decodeMem, modeField_specByte_gpr, gprField_specByte]⟩
  | absolute addr =>
    exact ⟨_, _, rfl, by simp [decodeMem, modeField_specByte, gprField_specByte_pc, takeLE_leBytes_toNat]⟩
  | byteDisplacement n disp | byteDisplacementDeferred n disp | wordDisplacement n disp
  | wordDisplacementDeferred n disp | longwordDisplacement n disp | longwordDisplacementDeferred n disp =>
    exact ⟨_, _, rfl, by simp [decodeMem, modeField_specByte_gpr, decodeDisp_gpr]⟩
  | byteRelative disp | byteRelativeDeferred disp | wordRelative disp | wordRelativeDeferred disp
  | longwordRelative disp | longwordRelativeDeferred disp =>
    exact ⟨_, _, rfl, by simp [decodeMem, modeField_specByte, decodeDisp_pc]⟩

/-- Modes 0 to 5 and the immediate byte are the bytes that no mode designating memory begins with. -/
theorem decodeMem_eq_none_iff {s : Byte} {bs : List Byte} : decodeMem s bs = none ↔ s.toNat < 0x60 ∨ s = 0x8F#8 := by
  have h8F : s = 0x8F#8 ↔ s.toNat = 0x8F := BitVec.toNat_inj.symm
  have hs := s.isLt
  rw [h8F]
  unfold decodeMem
  split
  case h_3 hm =>
    rw [Option.map_eq_none_iff, gprField_eq_none_iff]
    unfold modeField at hm
    omega
  case h_4 hm =>
    unfold modeField at hm
    refine iff_of_false ?_ (by omega)
    split <;> exact nofun
  case h_1 hm | h_2 hm | h_5 hm | h_6 hm | h_7 hm | h_8 hm | h_9 hm | h_10 hm =>
    unfold modeField at hm
    exact iff_of_false nofun (by omega)
  case h_11 =>
    refine iff_of_true rfl ?_
    simp only [modeField, imp_false] at *
    omega

/-- A displacement mode's bytes are those it was read from, when its two encodings, beside each other in R66 and R67,
have the mode `mode`. -/
theorem encodeMem_of_decodeDisp {w bytes mode : Nat} {s : Byte} {bs rest : List Byte} {m : MemSpec}
    {disp : Gpr → BitVec w → MemSpec} {rel : BitVec w → MemSpec} (h : decodeDisp w bytes s bs disp rel = (m, rest))
    (hw : 8 * bytes ≤ w) (hm : modeField s = mode) (hl : bytes ≤ bs.length)
    (hd : ∀ n d, encodeMem (disp n d) = specByte mode n.val :: leBytes bytes d.toNat)
    (hr : ∀ d, encodeMem (rel d) = specByte mode 15 :: leBytes bytes d.toNat) :
    encodeMem m ++ rest = s :: bs := by
  cases hn : gprField s with
  | some n =>
    rw [decodeDisp_of_gprField_some hn] at h
    cases h
    rw [hd, List.cons_append, specByte_gprField hm hn, leBytes_ofNat_takeLE hw hl]
  | none =>
    rw [decodeDisp_of_gprField_none hn] at h
    cases h
    rw [hr, List.cons_append, specByte_pc hm hn, leBytes_ofNat_takeLE hw hl]

/-- No designating mode takes more than four bytes after its specifier byte. -/
theorem encodeMem_of_decodeMem {s : Byte} {bs rest : List Byte} {m : MemSpec} (hl : 4 ≤ bs.length)
    (h : decodeMem s bs = some (m, rest)) : encodeMem m ++ rest = s :: bs := by
  unfold decodeMem at h
  split at h
  case h_1 hm | h_2 hm =>
    cases h
    simp [encodeMem, specByte_regField hm]
  case h_3 hm =>
    obtain ⟨n, hn, h⟩ := Option.map_eq_some_iff.1 h
    cases h
    simp [encodeMem, specByte_gprField hm hn]
  case h_4 hm =>
    split at h
    next n hn =>
      cases h
      simp [encodeMem, specByte_gprField hm hn]
    next hn =>
      simp only [Option.some.injEq, Prod.mk.injEq] at h
      obtain ⟨rfl, rfl⟩ := h
      rw [encodeMem, List.cons_append, specByte_pc hm hn, leBytes_ofNat_takeLE (by decide) hl]
  case h_11 => cases h
  case h_5 hm | h_6 hm | h_7 hm | h_8 hm | h_9 hm | h_10 hm =>
    exact encodeMem_of_decodeDisp (Option.some.inj h) (by decide) hm (le_trans (by decide) hl) (fun _ _ => rfl)
      fun _ => rfl

/-! ## The clauses of the specifier decoder -/

section

variable {t : DType} {s : Byte} {bs rest : List Byte} {m : MemSpec}

theorem decodeMem_of_mode_low (h : modeField s < 6) : decodeMem s bs = none :=
  decodeMem_eq_none_iff.2 (.inl (by unfold modeField at h; omega))

theorem decodeSpec_mem (h : decodeMem s bs = some (m, rest)) : decodeSpec t (s :: bs) = (.mem m, rest) := by
  simp [decodeSpec, takeByte, h]

theorem decodeSpec_literal (h : modeField s < 4) :
    decodeSpec t (s :: bs) = (.literal (BitVec.ofNat 6 s.toNat), bs) := by
  have hm : decodeMem s bs = none := decodeMem_of_mode_low (by omega)
  simp only [decodeSpec, takeByte, hm]
  split
  case h_4 => rfl
  all_goals omega

theorem decodeSpec_index (h : modeField s = 4) :
    decodeSpec t (s :: bs) = (.index (regField s) (decodeIndexBase bs).1, (decodeIndexBase bs).2) := by
  have hm : decodeMem s bs = none := decodeMem_of_mode_low (by omega)
  simp [decodeSpec, takeByte, hm, h]

theorem decodeSpec_register (h : modeField s = 5) : decodeSpec t (s :: bs) = (.register (regField s), bs) := by
  have hm : decodeMem s bs = none := decodeMem_of_mode_low (by omega)
  simp [decodeSpec, takeByte, hm, h]

theorem decodeSpec_immediate :
    decodeSpec t (0x8F#8 :: bs) = (.immediate (BitVec.ofNat 128 (takeLE t.size bs).1), (takeLE t.size bs).2) := by
  have hm : decodeMem 0x8F#8 bs = none := decodeMem_eq_none_iff.2 (.inr rfl)
  simp [decodeSpec, takeByte, hm, modeField]

theorem decodeIndexBase_mem (h : decodeMem s bs = some (m, rest)) : decodeIndexBase (s :: bs) = (.mem m, rest) := by
  simp [decodeIndexBase, takeByte, h]

theorem decodeIndexBase_forbidden (h : decodeMem s bs = none) : decodeIndexBase (s :: bs) = (.forbidden s, bs) := by
  simp [decodeIndexBase, takeByte, h]

theorem wf_forbidden_iff : (IndexBase.forbidden s).wf = true ↔ decodeMem s bs = none := by
  simp [IndexBase.wf, decodeMem_eq_none_iff]

end

/-! ## Decoding an encoded specifier -/

theorem decodeIndexBase_encodeIndexBase {base : IndexBase} (h : base.wf = true) (rest : List Byte) :
    decodeIndexBase (encodeIndexBase base ++ rest) = (base, rest) := by
  cases base with
  | mem m =>
    obtain ⟨s, bs, he, hd⟩ := decodeMem_encodeMem m rest
    rw [encodeIndexBase, he, decodeIndexBase_mem hd]
  | forbidden b => exact decodeIndexBase_forbidden (wf_forbidden_iff.1 h)

/-- A well-formed specifier is read back from its bytes, whatever follows. -/
theorem decodeSpec_encodeSpec {t : DType} {x : Spec} (h : x.wf t = true) (rest : List Byte) :
    decodeSpec t (encodeSpec t x ++ rest) = (x, rest) := by
  cases x with
  | literal lit =>
    simp [encodeSpec, decodeSpec_literal (modeField_literal lit), specByte_literal_toNat]
  | index rx base =>
    have hm : modeField (specByte 4 rx.val) = 4 := modeField_specByte (by decide) rx.isLt
    simp [encodeSpec, decodeSpec_index hm, regField_specByte, decodeIndexBase_encodeIndexBase h]
  | register n =>
    have hm : modeField (specByte 5 n.val) = 5 := modeField_specByte (by decide) n.isLt
    simp [encodeSpec, decodeSpec_register hm, regField_specByte]
  | immediate v =>
    have hv : v.toNat < 256 ^ t.size := two_pow_bytes t.size ▸ of_decide_eq_true h
    have hb : specByte 8 15 = 0x8F#8 := rfl
    simp [encodeSpec, hb, decodeSpec_immediate, takeLE_leBytes_append, Nat.mod_eq_of_lt hv]
  | mem m =>
    obtain ⟨s, bs, he, hd⟩ := decodeMem_encodeMem m rest
    rw [encodeSpec, he, decodeSpec_mem hd]

/-! ## Encoding a decoded specifier -/

/-- Five bytes hold every base: its specifier byte and at most four more. -/
theorem encodeIndexBase_decodeIndexBase {bs : List Byte} (h : 5 ≤ bs.length) :
    encodeIndexBase (decodeIndexBase bs).1 ++ (decodeIndexBase bs).2 = bs ∧ (decodeIndexBase bs).1.wf = true := by
  obtain ⟨b, bs, rfl⟩ := List.exists_cons_of_length_pos (show 0 < bs.length by omega)
  cases hd : decodeMem b bs with
  | some p =>
    rw [decodeIndexBase_mem hd]
    exact ⟨encodeMem_of_decodeMem (Nat.le_of_succ_le_succ h) hd, rfl⟩
  | none =>
    rw [decodeIndexBase_forbidden hd]
    exact ⟨rfl, wf_forbidden_iff.2 hd⟩

theorem mode_of_decodeMem_eq_none {s : Byte} {bs : List Byte} (h : decodeMem s bs = none) :
    modeField s < 4 ∨ modeField s = 4 ∨ modeField s = 5 ∨ s = 0x8F#8 := by
  unfold modeField
  obtain hs | hs := decodeMem_eq_none_iff.1 h
  · omega
  · simp [hs]

/-- Settles O2: by the mode of the first byte, the designating modes through `encodeMem_of_decodeMem`. -/
theorem specifierBytesAreItsEncoding : Obligations.SpecifierBytesAreItsEncoding := by
  unfold Obligations.SpecifierBytesAreItsEncoding
  intro t bs hl
  obtain ⟨s, bs, rfl⟩ := List.exists_cons_of_length_pos (show 0 < bs.length by omega)
  replace hl : 16 ≤ bs.length := Nat.le_of_succ_le_succ hl
  cases hd : decodeMem s bs with
  | some p =>
    rw [decodeSpec_mem hd]
    exact ⟨encodeMem_of_decodeMem (le_trans (by decide) hl) hd, rfl⟩
  | none =>
    obtain hm | hm | hm | rfl := mode_of_decodeMem_eq_none hd
    · have hs : specByte 0 (s.toNat % 64) = s := by
        apply BitVec.eq_of_toNat_eq
        unfold modeField at hm
        rw [specByte_toNat] <;> omega
      simp [decodeSpec_literal hm, encodeSpec, Spec.wf, hs]
    · obtain ⟨he, hw⟩ := encodeIndexBase_decodeIndexBase (bs := bs) (by omega)
      simp [decodeSpec_index hm, encodeSpec, Spec.wf, specByte_regField hm, he, hw]
    · simp [decodeSpec_register hm, encodeSpec, Spec.wf, specByte_regField hm]
    · have hsize : t.size ≤ 16 := by cases t <;> decide
      have hv := takeLE_lt t.size bs
      rw [decodeSpec_immediate, encodeSpec, List.cons_append, leBytes_ofNat_takeLE (by omega) (by omega)]
      refine ⟨rfl, decide_eq_true ?_⟩
      rw [DType.bits, two_pow_bytes]
      exact (Nat.mod_le _ _).trans_lt hv

end Sys2Proof
end

section
/-! PROOFS. How long specifiers and instructions are (R70, R71). -/

namespace Sys2Proof

open Machine Laws

/-! ## The length of a specifier (R70) -/

theorem encodeMem_length (m : MemSpec) : (encodeMem m).length = 1 + m.ext := by
  cases m <;> simp [encodeMem, MemSpec.ext, leBytes_length_eq]

theorem encodeSpec_length (t : DType) (x : Spec) : (encodeSpec t x).length = x.len t := by
  cases x with
  | literal | register => rfl
  | immediate v => simp [encodeSpec, Spec.len, leBytes_length_eq, Nat.add_comm]
  | mem m => exact encodeMem_length m
  | index rx base =>
    cases base with
    | mem m =>
      simp only [encodeSpec, encodeIndexBase, Spec.len, encodeMem_length, List.length_cons]
      omega
    | forbidden b => rfl

theorem specLen_encodeMem (t : DType) (m : MemSpec) (rest : List Byte) :
    specLen t (encodeMem m ++ rest) = (encodeMem m).length := by
  rw [encodeMem_length]
  cases m <;>
    simp [encodeMem, specLen, MemSpec.ext, modeField_specByte, modeField_specByte_gpr, specByte_gpr_not_pc,
      specByte_toNat_mod]

theorem specLen_encodeSpec {t : DType} {x : Spec} (h : ∀ rx b, x ≠ .index rx (.forbidden b)) (rest : List Byte) :
    specLen t (encodeSpec t x ++ rest) = (encodeSpec t x).length := by
  cases x with
  | literal lit =>
    have hm := modeField_literal lit
    simp only [encodeSpec, List.cons_append, specLen, List.nil_append, List.length_singleton]
    split
    case h_10 => rfl
    all_goals omega
  | register n => simp [encodeSpec, specLen, modeField_specByte]
  | immediate v =>
    simp [encodeSpec, specLen, modeField_specByte, specByte_toNat_mod, leBytes_length_eq, Nat.add_comm]
  | mem m => exact specLen_encodeMem t m rest
  | index rx base =>
    cases base with
    | mem m =>
      simp [encodeSpec, encodeIndexBase, specLen, modeField_specByte, specLen_encodeMem, Nat.add_comm]
    | forbidden b => exact absurd rfl (h rx b)

/-! ## The length of an instruction (R71, R72) -/

theorem encodeBranch_length (i : Instr) : (encodeBranch i).length = i.branchBytes := by cases i <;> rfl

theorem encode_length {i : Instr} (hi : i.opcode? ≠ none) :
    (encode i).length = 1 + (i.operands.map fun o => o.spec.len o.dt).sum + i.branchBytes := by
  obtain ⟨op, hop⟩ := Option.ne_none_iff_exists'.1 hi
  simp [encode, hop, encodeBranch_length, List.length_flatMap, encodeSpec_length]
  omega

theorem encode_length_le_fetchWindow (i : Instr) : (encode i).length ≤ fetchWindow := by
  cases i with
  | specLiteral | specIndex | specRegister | specRegisterDeferred | specAutodecrement | specAutoincrement
  | specImmediate | specAutoincrementDeferred | specAbsolute | specByteDisplacement | specByteRelative
  | specByteDisplacementDeferred | specByteRelativeDeferred | specWordDisplacement | specWordRelative
  | specWordDisplacementDeferred | specWordRelativeDeferred | specLongwordDisplacement | specLongwordRelative
  | specLongwordDisplacementDeferred | specLongwordRelativeDeferred => exact encode_fits (specLengthMax_le _)
  | _ => exact encode_fits (Nat.le_of_ble_eq_true rfl)

/-- Settles O3, from the length of a specifier and the window that holds every encoding. -/
theorem instructionLength : Obligations.InstructionLength := by
  unfold Obligations.InstructionLength
  refine ⟨fun t x rest hx => ⟨specLen_encodeSpec hx rest, encodeSpec_length t x⟩, fun i hi => ?_⟩
  have hl := encode_length hi
  exact ⟨hl, by omega, encode_length_le_fetchWindow i⟩

end Sys2Proof
end

section
/-! PROOFS. The decoder reads an encoded instruction back (R60, R71, R72, R75). -/

namespace Sys2Proof

/-! ## The parts of an encoding -/

/-- The bytes of operand specifiers in instruction-stream order (R60). -/
def encodeOperands (os : List Operand) : List Byte := os.flatMap fun o => encodeSpec o.dt o.spec

/-- The condition of `Instr.wf` on a list of operands. -/
def operandsWf (os : List Operand) : Bool := os.all fun o => o.spec.wf o.dt

theorem encodeOperands_cons_append (o : Operand) (os : List Operand) (bs : List Byte) :
    encodeOperands (o :: os) ++ bs = encodeSpec o.dt o.spec ++ (encodeOperands os ++ bs) := by
  simp [encodeOperands]

theorem operandsWf_cons {o : Operand} {os : List Operand} (h : operandsWf (o :: os) = true) :
    o.spec.wf o.dt = true ∧ operandsWf os = true :=
  Bool.and_eq_true_iff.1 h

theorem encode_eq {i : Instr} {op : Opcode} (h : i.opcode? = some op) :
    encode i = op.byte :: (encodeOperands i.operands ++ encodeBranch i) := by
  simp [encode, h, encodeOperands]

/-! ## One lemma for each shape of signature (R75) -/

section

variable {acc₁ acc₂ acc₃ : Access} {t u v : DType} {x y z : Spec}

theorem decode1_encodeOperands {mk : Spec → Instr} (h : operandsWf [⟨acc₁, t, x⟩] = true) (bs : List Byte) :
    decode1 t mk (encodeOperands [⟨acc₁, t, x⟩] ++ bs) = (mk x, bs) := by
  obtain ⟨hx, -⟩ := operandsWf_cons h
  rw [encodeOperands_cons_append, decode1, decodeSpec_encodeSpec hx]
  rfl

theorem decode2_encodeOperands {mk : Spec → Spec → Instr} (h : operandsWf [⟨acc₁, t, x⟩, ⟨acc₂, u, y⟩] = true)
    (bs : List Byte) : decode2 t u mk (encodeOperands [⟨acc₁, t, x⟩, ⟨acc₂, u, y⟩] ++ bs) = (mk x y, bs) := by
  obtain ⟨hx, hy⟩ := operandsWf_cons h
  rw [encodeOperands_cons_append, decode2, decodeSpec_encodeSpec hx]
  exact decode1_encodeOperands hy bs

theorem decode3_encodeOperands {mk : Spec → Spec → Spec → Instr}
    (h : operandsWf [⟨acc₁, t, x⟩, ⟨acc₂, u, y⟩, ⟨acc₃, v, z⟩] = true) (bs : List Byte) :
    decode3 t u v mk (encodeOperands [⟨acc₁, t, x⟩, ⟨acc₂, u, y⟩, ⟨acc₃, v, z⟩] ++ bs) = (mk x y z, bs) := by
  obtain ⟨hx, hyz⟩ := operandsWf_cons h
  rw [encodeOperands_cons_append, decode3, decodeSpec_encodeSpec hx]
  exact decode2_encodeOperands hyz bs

theorem decodeB_leBytes (mk : Byte → Instr) (d : Byte) (bs : List Byte) :
    decodeB mk (leBytes 1 d.toNat ++ bs) = (mk d, bs) := by
  simp [decodeB, takeLE_leBytes_toNat]

theorem decodeW_leBytes (mk : BitVec 16 → Instr) (d : BitVec 16) (bs : List Byte) :
    decodeW mk (leBytes 2 d.toNat ++ bs) = (mk d, bs) := by
  simp [decodeW, takeLE_leBytes_toNat]

theorem decode2B_encodeOperands {mk : Spec → Spec → Byte → Instr} (h : operandsWf [⟨acc₁, t, x⟩, ⟨acc₂, u, y⟩] = true)
    (d : Byte) (bs : List Byte) :
    decode2B t u mk (encodeOperands [⟨acc₁, t, x⟩, ⟨acc₂, u, y⟩] ++ (leBytes 1 d.toNat ++ bs)) = (mk x y d, bs) := by
  obtain ⟨hx, hy⟩ := operandsWf_cons h
  obtain ⟨hy, -⟩ := operandsWf_cons hy
  rw [encodeOperands_cons_append, decode2B, decodeSpec_encodeSpec hx, encodeOperands_cons_append]
  dsimp only
  rw [decodeSpec_encodeSpec hy]
  exact decodeB_leBytes _ d bs

end

/-- What follows the opcode byte is read back by the signature of the opcode. -/
theorem decodeBody_encode {i : Instr} {op : Opcode} (hop : i.opcode? = some op) (hw : operandsWf i.operands = true)
    (rest : List Byte) :
    decodeBody op (encodeOperands i.operands ++ (encodeBranch i ++ rest)) = (i, rest) := by
  cases i with
  | specLiteral | specIndex | specRegister | specRegisterDeferred | specAutodecrement | specAutoincrement
  | specImmediate | specAutoincrementDeferred | specAbsolute | specByteDisplacement | specByteRelative
  | specByteDisplacementDeferred | specByteRelativeDeferred | specWordDisplacement | specWordRelative
  | specWordDisplacementDeferred | specWordRelativeDeferred | specLongwordDisplacement | specLongwordRelative
  | specLongwordDisplacementDeferred | specLongwordRelativeDeferred => cases hop
  | caseb | casew | casel | calls | callg | ret | addf2 | addf3 | addd2 | addd3 | subd2 | subd3 | mulf2 | mulf3 | polyf
  | crc | insque =>
    cases hop
    rfl
  | beql d | bneq d | bleq d | bgeq d | brb d =>
    cases hop
    rw [decodeBody]
    exact decodeB_leBytes _ d rest
  | brw d =>
    cases hop
    rw [decodeBody]
    exact decodeW_leBytes _ d rest
  | aobleq limit index d =>
    cases hop
    rw [decodeBody]
    exact decode2B_encodeOperands hw d rest
  | pushl | tstb | tstw | tstl | clrb | clrw | clrl | clrq | jmp | jsb =>
    cases hop
    rw [decodeBody]
    exact decode1_encodeOperands hw rest
  | addb3 | addw3 | addl3 | subb3 | subw3 | subl3 | ashl | ashq =>
    cases hop
    rw [decodeBody]
    exact decode3_encodeOperands hw rest
  | _ =>
    cases hop
    rw [decodeBody]
    exact decode2_encodeOperands hw rest

/-! ## The opcode byte (R62, R75) -/

theorem isEscape_byte (op : Opcode) : isEscape op.byte = false := by cases op <;> rfl

/-- No two opcodes of R75 have one byte: each is found under its own. -/
theorem lookup_byte (op : Opcode) : defaultOpcodeMap.lookup op.byte = some op := by cases op <;> rfl

theorem decode_cons_of_lookup {m : OpcodeMap} {b : Byte} {op : Opcode} (he : isEscape b = false)
    (hl : m.lookup b = some op) (bs : List Byte) : decode m (b :: bs) = .instr (decodeBody op bs).1 := by
  simp [decode, takeByte, he, hl]

/-- Settles O1: the opcode byte is found in the map, and the rest is read by its signature. -/
theorem decodeEncode : Obligations.DecodeEncode := by
  unfold Obligations.DecodeEncode
  intro i rest hi hw
  obtain ⟨op, hop⟩ := Option.ne_none_iff_exists'.1 hi
  rw [encode_eq hop, List.cons_append, List.append_assoc, decode_cons_of_lookup (isEscape_byte op) (lookup_byte op),
    decodeBody_encode hop hw]

end Sys2Proof
end

section
/-! PROOFS. A step that finds no opcode of the map fetches the opcode byte or bytes and refuses them (R62, R74, R294). -/

namespace Sys2Proof.Machine

open Sys2Proof

/-- The decoder is given the byte at the program counter first, and then those after it. -/
theorem window_eq (s : State) :
    s.window = s.byteAt s.pc :: s.byteAt (s.pc + 1) :: windowFrom s.mem (s.pc + 1 + 1) 30 := rfl

theorem decode_unlisted {m : OpcodeMap} {b : Byte} (he : isEscape b = false) (hl : m.lookup b = none)
    (bs : List Byte) : decode m (b :: bs) = .unknown b := by
  simp [decode, takeByte, he, hl]

theorem decode_escape {b : Byte} (he : isEscape b = true) (m : OpcodeMap) (b2 : Byte) (bs : List Byte) :
    decode m (b :: b2 :: bs) = .twoByte b b2 := by
  simp [decode, takeByte, he]

theorem refuseOpcode_one {s : State} (hf : s.Fetchable 1) (op : Byte) :
    refuseOpcode op none s = .error (.refuse (.opcodeNotInMap op none)) := by
  rw [refuseOpcode, fetch_ok.2 ⟨hf, rfl⟩]
  rfl

theorem refuseOpcode_two {s : State} (hf : s.Fetchable 2) (op op2 : Byte) :
    refuseOpcode op (some op2) s = .error (.refuse (.opcodeNotInMap op (some op2))) := by
  obtain ⟨hfirst, hsecond⟩ := (Fetchable_add s 1 1).1 hf
  rw [refuseOpcode, fetch_ok.2 ⟨hfirst, rfl⟩]
  change (fetch 1 (s.advance 1) >>= fun _ => raiseRefuse (.opcodeNotInMap op (some op2))) = _
  rw [fetch_ok.2 ⟨hsecond, rfl⟩]
  rfl

theorem isEscape_iff {b : Byte} : isEscape b = true ↔ b = 0xFD ∨ b = 0xFE ∨ b = 0xFF := by
  simp [isEscape, or_assoc]

/-- Settles O7: what the decoder finds in the window, then the fetches that come before the refusal. -/
theorem unknownOpcodeRefused : Obligations.UnknownOpcodeRefused := by
  unfold Obligations.UnknownOpcodeRefused
  intro s hp
  constructor
  · intro hf he hl
    rw [step, if_neg hp, window_eq, decode_unlisted he hl]
    exact congrArg outcome (refuseOpcode_one hf _)
  · intro hf hb
    rw [step, if_neg hp, window_eq, decode_escape (isEscape_iff.2 hb)]
    exact congrArg outcome (refuseOpcode_two hf _ _)

end Sys2Proof.Machine
end

section
/-! PROOFS. What an operand specifier by itself does, from what its evaluation answers (R102, R119, R133). -/

namespace Sys2Proof.Machine

open Sys2Proof Claims

/-! ## A specifier by itself, from its evaluation -/

section

variable {acc : Access} {t : DType} {x : Spec} {s : State} {l : Loc t} {c : Ctx}

/-- A specifier by itself, evaluated, completes where an operand that is read may be read. -/
theorem exec_alone_of_evalSpec (h : evalSpec acc t x (Ctx.start s) = .ok (l, c))
    (hr : acc = .r ∨ acc = .m → l.Readable c.st) : exec (.alone acc t x) s = .next c.st := by
  obtain ⟨hx, rfl, rfl⟩ := evalSpec_ok.1 h
  rw [exec_alone]
  exact outcome_next.2 (operandAlone_ok.2 ⟨⟨hx, hr⟩, rfl⟩)

/-- What stops a specifier's evaluation is the outcome of the specifier by itself. -/
theorem exec_alone_error {e : Stop} (h : evalSpec acc t x (Ctx.start s) = .error e) :
    exec (.alone acc t x) s = outcome (.error e) := by
  rw [exec_alone, operandAlone_error h]

/-- The first byte of an operand in memory that may not be read is reported when the operand is read. -/
theorem exec_alone_unreadable {a : Word} {k : Nat} (h : evalSpec acc t x (Ctx.start s) = .ok (.mem a, c))
    (ha : acc = .r ∨ acc = .m) (hk : k < t.size) (hr : c.st.ReadableFrom a k)
    (hb : c.st.isReadable (a + BitVec.ofNat 32 k) = false) :
    exec (.alone acc t x) s = .fault (.accessViolation (a + BitVec.ofNat 32 k) .read) := by
  rw [exec_alone]
  exact outcome_fault.2 (operandAlone_read_error ha h (memRead_error hk hr hb))

/-! ## The specifier byte is fetched, then the mode's rule applies (R102) -/

theorem evalSpec_literal_eq (hf : s.Fetchable 1) (lit : BitVec 6) :
    evalSpec acc t (.literal lit) (Ctx.start s) = literal acc t lit (Ctx.start (s.advance 1)) :=
  bind_of_ok (Ctx.fetch_ok.2 ⟨hf, rfl⟩)

theorem evalSpec_register_eq (hf : s.Fetchable 1) (n : Reg) :
    evalSpec acc t (.register n) (Ctx.start s) = register acc t n (Ctx.start (s.advance 1)) :=
  bind_of_ok (Ctx.fetch_ok.2 ⟨hf, rfl⟩)

theorem evalSpec_immediate_eq (hf : s.Fetchable 1) (v : BitVec 128) :
    evalSpec acc t (.immediate v) (Ctx.start s) = immediate acc t v (Ctx.start (s.advance 1)) :=
  bind_of_ok (Ctx.fetch_ok.2 ⟨hf, rfl⟩)

theorem evalSpec_index_eq (hf : s.Fetchable 1) (rx : Reg) (base : IndexBase) :
    evalSpec acc t (.index rx base) (Ctx.start s) =
      indexed t.size rx base (Ctx.start (s.advance 1)) >>= fun (a, c) => .ok (.mem a, c) :=
  bind_of_ok (Ctx.fetch_ok.2 ⟨hf, rfl⟩)

theorem evalSpec_mem_eq (hf : s.Fetchable 1) (m : MemSpec) :
    evalSpec acc t (.mem m) (Ctx.start s) =
      address t.size m (Ctx.start (s.advance 1)) >>= fun (a, c) => .ok (.mem a, c) :=
  bind_of_ok (Ctx.fetch_ok.2 ⟨hf, rfl⟩)

end

/-! ## A mode that designates memory, from its address -/

section

variable {dt : DType} {m : MemSpec} {s t u : State} {a p : Word} {stepped : List Reg}

/-- What the address of a mode says of the specifier by itself. -/
theorem addressMode_of_address (hf : s.Fetchable 1)
    (h : address dt.size m (Ctx.start (s.advance 1)) = .ok (a, ⟨t, stepped, []⟩)) :
    AddressMode m (fun acc dt => .alone acc dt (.mem m)) dt s t a stepped := by
  have hx (acc : Access) : evalSpec acc dt (.mem m) (Ctx.start s) = .ok (.mem a, ⟨t, stepped, []⟩) :=
    (evalSpec_mem_eq hf m).trans (bind_of_ok h)
  exact ⟨hx, fun acc hr => exec_alone_of_evalSpec (hx acc) hr, fun acc k => exec_alone_unreadable (hx acc)⟩

/-- A mode whose address is what it reads at a pointer, the pointer read in the state `u`. -/
theorem deferredMode_of_address (hf : s.Fetchable 1)
    (h : address dt.size m (Ctx.start (s.advance 1)) = pointerAt p u >>= fun a => .ok (a, ⟨t, stepped, []⟩)) :
    DeferredMode m (fun acc dt => .alone acc dt (.mem m)) dt s u t p stepped := by
  refine ⟨fun a ha => addressMode_of_address hf (h.trans (bind_of_ok ha)), fun acc k hk hr hb => ?_⟩
  have hp : pointerAt p u = .error (.fault (.accessViolation (p + BitVec.ofNat 32 k) .read)) := memRead_error hk hr hb
  exact exec_alone_error ((evalSpec_mem_eq hf m).trans (bind_error (h.trans (bind_error hp))))

end

end Sys2Proof.Machine
end

section
/-! PROOFS. The addressing modes that designate memory (R109 to R118, R122 to R128): the operand's address, and what
evaluating the mode steps. -/

namespace Sys2Proof.Machine

open Sys2Proof Claims

/-! ## Register deferred, autodecrement, autoincrement (R109 to R112) -/

/-! The program counter may be the register of neither mode (R130). -/

theorem address_registerDeferred_pc (d : Nat) (c : Ctx) :
    address d (.registerDeferred pcReg) c = .error (.refuse .unpredictablePCDeferred) := rfl

theorem address_autodecrement_pc (d : Nat) (c : Ctx) :
    address d (.autodecrement pcReg) c = .error (.refuse .unpredictablePCAutodecrement) := rfl

/-- Settles O24: the register's value is the address, unless the register is the program counter. -/
theorem registerDeferredMode : Obligations.RegisterDeferredMode := by
  unfold Obligations.RegisterDeferredMode
  intro dt n s hf
  constructor
  · rintro rfl acc
    exact exec_alone_error ((evalSpec_mem_eq hf _).trans (bind_error (address_registerDeferred_pc dt.size _)))
  · intro hn hw
    refine addressMode_of_address hf ((if_neg hn).trans ?_)
    exact bind_of_ok (readReg_ok.2 ⟨hw, (advance_reg hn).symm⟩)

/-- Settles O25: the register less the size is both the address and what the register becomes. -/
theorem autodecrementMode : Obligations.AutodecrementMode := by
  unfold Obligations.AutodecrementMode
  intro dt n s hf
  constructor
  · rintro rfl acc
    exact exec_alone_error ((evalSpec_mem_eq hf _).trans (bind_error (address_autodecrement_pc dt.size _)))
  · intro hn hw
    refine addressMode_of_address hf ((if_neg hn).trans ?_)
    exact bind_of_ok (readReg_ok.2 ⟨hw, (advance_reg hn).symm⟩)

/-- Settles O26: the register is read, and then stepped. -/
theorem autoincrementMode : Obligations.AutoincrementMode := by
  unfold Obligations.AutoincrementMode
  intro dt n s hf hw
  exact addressMode_of_address hf (bind_of_ok (readReg_ok.2 ⟨hw, (advance_reg_gpr s 1 n).symm⟩))

/-- Settles O27: the register is read, the longword there is the address, and then the register is stepped. -/
theorem autoincrementDeferredMode : Obligations.AutoincrementDeferredMode := by
  unfold Obligations.AutoincrementDeferredMode
  intro dt n s hf hw
  exact deferredMode_of_address hf (bind_of_ok (readReg_ok.2 ⟨hw, (advance_reg_gpr s 1 n).symm⟩))

/-! ## Absolute (R122) -/

/-- Settles O31: the address stands in the instruction. -/
theorem absoluteMode : Obligations.AbsoluteMode := by
  unfold Obligations.AbsoluteMode
  intro dt addr s hf
  obtain ⟨hf1, hf4⟩ := (Fetchable_add s 1 4).1 hf
  refine addressMode_of_address hf1 ?_
  rw [← advance_advance s 1 4]
  exact bind_of_ok (Ctx.fetch_ok.2 ⟨hf4, rfl⟩)

/-! ## Displacement modes: one rule for the three widths, direct and deferred (R113 to R118) -/

section

variable {dt : DType} {m : MemSpec} {s : State} {a : Word} {w : Nat} {disp : BitVec w} {n : Gpr} {bytes : Nat}

theorem displaced_start (hf : (s.advance 1).Fetchable bytes) (hw : s.isWritten n.reg = true)
    (ha : a = s.reg n.reg + disp.signExtend 32) :
    displaced bytes n disp (Ctx.start (s.advance 1)) = .ok (a, Ctx.start (s.advance (1 + bytes))) := by
  rw [ha, ← advance_advance, ← advance_reg_gpr s 1 n]
  exact displaced_ok.2 ⟨hf, hw, rfl, rfl⟩

theorem addressMode_displaced (hm : ∀ c, address dt.size m c = displaced bytes n disp c) (hf : s.Fetchable (1 + bytes))
    (hw : s.isWritten n.reg = true) (ha : a = s.reg n.reg + disp.signExtend 32) :
    AddressMode m (fun acc dt => .alone acc dt (.mem m)) dt s (s.advance (1 + bytes)) a [] := by
  obtain ⟨hf1, hf2⟩ := (Fetchable_add s 1 bytes).1 hf
  exact addressMode_of_address hf1 ((hm _).trans (displaced_start hf2 hw ha))

theorem deferredMode_displaced (hm : ∀ c, address dt.size m c = deferred (displaced bytes n disp c))
    (hf : s.Fetchable (1 + bytes)) (hw : s.isWritten n.reg = true) (ha : a = s.reg n.reg + disp.signExtend 32) :
    DeferredMode m (fun acc dt => .alone acc dt (.mem m)) dt s (s.advance (1 + bytes)) (s.advance (1 + bytes)) a [] := by
  obtain ⟨hf1, hf2⟩ := (Fetchable_add s 1 bytes).1 hf
  exact deferredMode_of_address hf1 ((hm _).trans (bind_of_ok (displaced_start hf2 hw ha)))

end

/-- Settles O28, by width; a longword displacement is its own sign extension. -/
theorem displacementModes : Obligations.DisplacementModes := by
  unfold Obligations.DisplacementModes
  intro dt n s hw
  refine ⟨fun disp hf => ?byte, fun disp hf => ?word, fun disp hf => ?longword⟩
  case byte => exact addressMode_displaced (bytes := 1) (fun _ => rfl) hf hw rfl
  case word => exact addressMode_displaced (bytes := 2) (fun _ => rfl) hf hw rfl
  case longword => exact addressMode_displaced (bytes := 4) (fun _ => rfl) hf hw (by rw [BitVec.signExtend_eq])

/-- Settles O29, by width. -/
theorem displacementDeferredModes : Obligations.DisplacementDeferredModes := by
  unfold Obligations.DisplacementDeferredModes
  intro dt n s hw
  refine ⟨fun disp hf => ?byte, fun disp hf => ?word, fun disp hf => ?longword⟩
  case byte => exact deferredMode_displaced (bytes := 1) (fun _ => rfl) hf hw rfl
  case word => exact deferredMode_displaced (bytes := 2) (fun _ => rfl) hf hw rfl
  case longword => exact deferredMode_displaced (bytes := 4) (fun _ => rfl) hf hw (by rw [BitVec.signExtend_eq])

/-! ## Relative modes: the same on the program counter after the displacement (R120, R123 to R128) -/

section

variable {dt : DType} {m : MemSpec} {s : State} {a : Word} {w : Nat} {disp : BitVec w} {bytes : Nat}

theorem relative_start (hf : (s.advance 1).Fetchable bytes)
    (ha : a = s.pc + BitVec.ofNat 32 (1 + bytes) + disp.signExtend 32) :
    relative bytes disp (Ctx.start (s.advance 1)) = .ok (a, Ctx.start (s.advance (1 + bytes))) := by
  rw [ha, ← advance_pc, ← advance_advance]
  exact relative_ok.2 ⟨hf, rfl, rfl⟩

theorem addressMode_relative (hm : ∀ c, address dt.size m c = relative bytes disp c) (hf : s.Fetchable (1 + bytes))
    (ha : a = s.pc + BitVec.ofNat 32 (1 + bytes) + disp.signExtend 32) :
    AddressMode m (fun acc dt => .alone acc dt (.mem m)) dt s (s.advance (1 + bytes)) a [] := by
  obtain ⟨hf1, hf2⟩ := (Fetchable_add s 1 bytes).1 hf
  exact addressMode_of_address hf1 ((hm _).trans (relative_start hf2 ha))

theorem deferredMode_relative (hm : ∀ c, address dt.size m c = deferred (relative bytes disp c))
    (hf : s.Fetchable (1 + bytes)) (ha : a = s.pc + BitVec.ofNat 32 (1 + bytes) + disp.signExtend 32) :
    DeferredMode m (fun acc dt => .alone acc dt (.mem m)) dt s (s.advance (1 + bytes)) (s.advance (1 + bytes)) a [] := by
  obtain ⟨hf1, hf2⟩ := (Fetchable_add s 1 bytes).1 hf
  exact deferredMode_of_address hf1 ((hm _).trans (bind_of_ok (relative_start hf2 ha)))

end

/-- Settles O32, by width. -/
theorem relativeModes : Obligations.RelativeModes := by
  unfold Obligations.RelativeModes
  intro dt s
  refine ⟨fun disp hf => ?byte, fun disp hf => ?word, fun disp hf => ?longword⟩
  case byte => exact addressMode_relative (bytes := 1) (fun _ => rfl) hf rfl
  case word => exact addressMode_relative (bytes := 2) (fun _ => rfl) hf rfl
  case longword =>
    have ha : s.pc + 5 + disp = s.pc + 5 + disp.signExtend 32 := by rw [BitVec.signExtend_eq]
    exact addressMode_relative (bytes := 4) (fun _ => rfl) hf ha

/-- Settles O33, by width. -/
theorem relativeDeferredModes : Obligations.RelativeDeferredModes := by
  unfold Obligations.RelativeDeferredModes
  intro dt s
  refine ⟨fun disp hf => ?byte, fun disp hf => ?word, fun disp hf => ?longword⟩
  case byte => exact deferredMode_relative (bytes := 1) (fun _ => rfl) hf rfl
  case word => exact deferredMode_relative (bytes := 2) (fun _ => rfl) hf rfl
  case longword =>
    have ha : s.pc + 5 + disp = s.pc + 5 + disp.signExtend 32 := by rw [BitVec.signExtend_eq]
    exact deferredMode_relative (bytes := 4) (fun _ => rfl) hf ha

end Sys2Proof.Machine
end

section
/-! PROOFS. The addressing modes that are no mode of memory: literal, register, immediate (R104, R108, R121). -/

namespace Sys2Proof.Machine

open Sys2Proof

/-! ## Literal (R104) -/

section

variable {t : DType} {lit : BitVec 6} {c : Ctx}

theorem literal_not_read {acc : Access} (h : acc ≠ .r) :
    literal acc t lit c = .error (.fault (.reservedAddressingMode (lit.setWidth 8))) := if_neg h

theorem literal_float (h : t.isFloat = true) : literal .r t lit c = .error (.refuse .floatLiteral) := by
  simp [literal, h, raiseRefuse]

theorem literal_msb_iff : lit.msb = true ↔ 32 ≤ lit.toNat := by
  rw [BitVec.msb_eq_decide, decide_eq_true_iff]

theorem literal_low (h : t.isFloat = false) (hl : lit.toNat < 32) :
    literal .r t lit c = .ok (.lit (lit.setWidth t.bits), c) := by
  have hm : ¬ lit.msb = true := fun e => by have := literal_msb_iff.1 e; omega
  simp [literal, h, hm]

/-! A literal with its high bit set is what `SHORT_LITERAL_EXT` says. -/

theorem literal_signed (h : t.isFloat = false) (hl : 32 ≤ lit.toNat) (he : c.st.params.shortLiteralExt = .signed) :
    literal .r t lit c = .ok (.lit (lit.signExtend t.bits), c) := by
  simp [literal, h, literal_msb_iff.2 hl, he]

theorem literal_unsigned (h : t.isFloat = false) (hl : 32 ≤ lit.toNat) (he : c.st.params.shortLiteralExt = .unsigned) :
    literal .r t lit c = .ok (.lit (lit.setWidth t.bits), c) := by
  simp [literal, h, literal_msb_iff.2 hl, he]

theorem literal_undecided (h : t.isFloat = false) (hl : 32 ≤ lit.toNat)
    (he : c.st.params.shortLiteralExt = .undecided) :
    literal .r t lit c = .error (.refuse (.shortLiteralHighBit (lit.setWidth 8))) := by
  simp [literal, h, literal_msb_iff.2 hl, he, raiseRefuse]

end

/-- Settles O21: each clause is a case of `literal` after the specifier byte. -/
theorem literalMode : Obligations.LiteralMode := by
  unfold Obligations.LiteralMode
  intro dt lit s hf gives
  have hgives {v : BitVec dt.bits}
      (h : literal .r dt lit (Ctx.start (s.advance 1)) = .ok (.lit v, Ctx.start (s.advance 1))) : gives v := by
    have hx : evalSpec .r dt (.literal lit) (Ctx.start s) = _ := (evalSpec_literal_eq hf lit).trans h
    exact ⟨hx, exec_alone_of_evalSpec hx fun _ => trivial⟩
  have hstops {acc : Access} {e : Stop} (h : literal acc dt lit (Ctx.start (s.advance 1)) = .error e) :
      exec (.specLiteral acc dt lit) s = outcome (.error e) :=
    exec_alone_error ((evalSpec_literal_eq hf lit).trans h)
  exact ⟨fun acc h => hstops (literal_not_read h), fun h => hstops (literal_float h),
    fun h hl => hgives (literal_low h hl), fun h hl => ⟨fun he => hgives (literal_signed h hl he),
      fun he => hgives (literal_unsigned h hl he), fun he => hstops (literal_undecided h hl he)⟩⟩

/-! ## Register (R108) -/

section

variable {acc : Access} {t : DType} {n : Reg} {c : Ctx}

theorem register_address :
    register .a t n c = .error (.fault (.reservedAddressingMode (0x50 + BitVec.ofNat 8 n.val))) := by
  have hb : specByte 5 n.val = 0x50 + BitVec.ofNat 8 n.val := BitVec.ofNat_add ..
  rw [register, if_pos rfl, hb]
  rfl

theorem register_pc (ha : acc ≠ .a) : register acc t pcReg c = .error (.refuse .unpredictablePCRegisterMode) := by
  rw [register, if_neg ha, if_pos rfl]
  rfl

theorem register_reaches_pc (ha : acc ≠ .a) (hn : n ≠ pcReg)
    (h : t.size = 8 ∧ 14 ≤ n.val ∨ t.size = 16 ∧ 12 ≤ n.val) :
    register acc t n c = .error (.refuse .unpredictableRegisterPair) := by
  rw [register, if_neg ha, if_neg hn]
  split_ifs with h8 h16
  · rfl
  · rfl
  · exact (h.elim h8 h16).elim

/-- The registers an operand takes are as many as its size needs longwords. -/
theorem operandRegs_eq_map (t : DType) (n : Reg) :
    operandRegs t n = (List.range ((t.size + 3) / 4)).map fun k => n + Fin.ofNat 16 k := by
  revert n
  cases t <;> decide

end

/-- Settles O23: each clause is a case of `register` after the specifier byte. -/
theorem registerMode : Obligations.RegisterMode := by
  unfold Obligations.RegisterMode
  intro dt n s hf
  have hstops {acc : Access} {e : Stop} (h : register acc dt n (Ctx.start (s.advance 1)) = .error e) :
      exec (.specRegister acc dt n) s = outcome (.error e) :=
    exec_alone_error ((evalSpec_register_eq hf n).trans h)
  refine ⟨hstops register_address, fun acc ha => ⟨?pc, fun hn h => hstops (register_reaches_pc ha hn h), ?completes⟩⟩
  case pc =>
    rintro rfl
    exact hstops (register_pc ha)
  case completes =>
    intro hn h8 h16 group
    have hgroup : operandRegs dt n = group := operandRegs_eq_map dt n
    have hx : evalSpec acc dt (.register n) (Ctx.start s) = .ok (.reg n, ⟨s.advance 1, [], group⟩) := by
      rw [evalSpec_register ha hn h8 h16 hf, ← hgroup, ← List.append_nil (operandRegs dt n)]
      rfl
    refine ⟨hx, fun hr => exec_alone_of_evalSpec hx fun ha => ?_⟩
    rw [Loc.Readable, hgroup]
    exact hr ha

/-! ## Immediate (R121) -/

/-- Settles O30: the constant's bytes are fetched for a read; every other access is refused before them. -/
theorem immediateMode : Obligations.ImmediateMode := by
  unfold Obligations.ImmediateMode
  intro dt v s
  constructor
  · intro hf
    obtain ⟨hf1, hf2⟩ := (Fetchable_add s 1 dt.size).1 hf
    have hx : evalSpec .r dt (.immediate v) (Ctx.start s) =
        .ok (.lit (v.setWidth dt.bits), Ctx.start (s.advance (1 + dt.size))) := by
      rw [evalSpec_immediate_eq hf1, ← advance_advance]
      exact immediate_ok.2 ⟨rfl, hf2, rfl, rfl⟩
    exact ⟨hx, exec_alone_of_evalSpec hx fun _ => trivial⟩
  · intro hf acc ha
    exact exec_alone_error ((evalSpec_immediate_eq hf v).trans (if_neg ha))

end Sys2Proof.Machine
end

section
/-! PROOFS. Index mode (R105 to R107): what may not be indexed, and the base's evaluation with the scaled index register
added. -/

namespace Sys2Proof.Machine

open Sys2Proof

/-! ## What may not be indexed -/

/-- The modes that step a register are the autodecrement and the autoincrements on it (R110 to R112). -/
theorem stepping_mode_of_steppedReg {m : MemSpec} {r : Reg} (h : steppedReg m = some r) :
    m = .autodecrement r ∨ ∃ n : Gpr, n.reg = r ∧ (m = .autoincrement n ∨ m = .autoincrementDeferred n) := by
  cases m with
  | autodecrement n =>
    simp only [steppedReg] at h
    split_ifs at h
    cases h
    exact .inl rfl
  | autoincrement n => exact .inr ⟨n, Option.some.inj h, .inl rfl⟩
  | autoincrementDeferred n => exact .inr ⟨n, Option.some.inj h, .inr rfl⟩
  | _ => cases h

section

variable {acc : Access} {t : DType} {d : Nat} {rx : Reg} {m : MemSpec} {c : Ctx}

theorem indexed_pc (base : IndexBase) : indexed d pcReg base c = .error (.fault (.reservedAddressingMode 0x4F)) := rfl

theorem indexed_immediate (hx : rx ≠ pcReg) (hf : c.st.Fetchable 1) :
    indexed d rx (.forbidden 0x8F) c = .error (.refuse .unpredictableIndexedImmediate) := by
  rw [indexed, if_neg hx]
  exact bind_of_ok (Ctx.fetch_ok.2 ⟨hf, rfl⟩)

theorem indexed_forbidden (hx : rx ≠ pcReg) (hf : c.st.Fetchable 1) {b : Byte} (hb : b ≠ 0x8F#8) :
    indexed d rx (.forbidden b) c = .error (.fault (.reservedAddressingMode b)) := by
  rw [indexed, if_neg hx]
  exact (bind_of_ok (Ctx.fetch_ok.2 ⟨hf, rfl⟩)).trans (if_neg hb)

theorem indexed_base_steps_index (hx : rx ≠ pcReg) (hf : c.st.Fetchable 1) (hs : steppedReg m = some rx) :
    indexed d rx (.mem m) c = .error (.refuse .unpredictableIndexBaseSame) := by
  rw [indexed, if_neg hx]
  exact (bind_of_ok (Ctx.fetch_ok.2 ⟨hf, rfl⟩)).trans (if_pos hs)

/-! ## An index whose base can be evaluated -/

/-- The index register is read after the base's side effect, which leaves it alone (R105, R107). -/
theorem indexed_of_address {a : Word} {c' : Ctx} (hx : rx ≠ pcReg) (hs : steppedReg m ≠ some rx)
    (hw : c.st.isWritten rx = true) (hf : c.st.Fetchable 1)
    (h : address d m { c with st := c.st.advance 1 } = .ok (a, c')) :
    indexed d rx (.mem m) c = .ok (a + c.st.reg rx * BitVec.ofNat 32 d, c') := by
  obtain ⟨-, -, -, rfl⟩ := address_ok.1 h
  rw [indexed, if_neg hx]
  refine (bind_of_ok (Ctx.fetch_ok.2 ⟨hf, rfl⟩)).trans ((if_neg hs).trans ((bind_of_ok h).trans ?_))
  refine bind_of_ok (readReg_ok.2 ⟨(MemSpec.after_isWritten hs).trans hw, ?_⟩)
  rw [Ctx.afterMem, MemSpec.after_reg hs, advance_reg hx, advance_reg hx]

/-- An index is its base as in direct use, one byte further on, with the scaled index register added. -/
theorem evalSpec_index_of_base {s : State} {a : Word} (hx : rx ≠ pcReg) (hs : steppedReg m ≠ some rx)
    (hw : s.isWritten rx = true) (hf : s.Fetchable 1)
    (h : evalSpec acc t (.mem m) (Ctx.start (s.advance 1)) = .ok (.mem a, c)) :
    evalSpec acc t (.index rx (.mem m)) (Ctx.start s) =
      .ok (.mem (a + s.reg rx * BitVec.ofNat 32 t.size), c) := by
  obtain ⟨b, hfetch, h⟩ := bind_ok.1 h
  obtain ⟨hf', rfl⟩ := Ctx.fetch_ok.1 hfetch
  obtain ⟨p, haddr, h⟩ := bind_ok.1 h
  cases h
  rw [evalSpec_index_eq hf, ← advance_reg (s := s) (n := 1) hx]
  exact bind_of_ok (indexed_of_address hx hs hw hf' haddr)

end

/-- Settles O22: each stop is one of `indexed`, and an index that is evaluated is its base and the scaled register. -/
theorem indexMode : Obligations.IndexMode := by
  unfold Obligations.IndexMode
  intro acc dt rx s hf
  have hstops {base : IndexBase} {e : Stop} (h : indexed dt.size rx base (Ctx.start (s.advance 1)) = .error e) :
      exec (.specIndex acc dt rx base) s = outcome (.error e) :=
    exec_alone_error ((evalSpec_index_eq hf rx base).trans (bind_error h))
  refine ⟨?pc, fun hx hf2 => ?stops, fun hx hw m a c hdec hinc hbase => ?base, fun m hm => ?ready⟩
  case pc =>
    rintro rfl base
    exact hstops (indexed_pc base)
  case stops =>
    obtain ⟨-, hf'⟩ := (Fetchable_add s 1 1).1 hf2
    refine ⟨fun b hb => hstops (indexed_forbidden hx hf' hb), hstops (indexed_immediate hx hf'),
      hstops (indexed_base_steps_index (m := .autodecrement rx) hx hf' (if_neg hx)), fun n hn => ⟨?inc, ?deferred⟩⟩
    case inc => exact hstops (indexed_base_steps_index (m := .autoincrement n) hx hf' (congrArg some hn))
    case deferred => exact hstops (indexed_base_steps_index (m := .autoincrementDeferred n) hx hf' (congrArg some hn))
  case base =>
    have hs : steppedReg m ≠ some rx := fun h => by
      obtain e | ⟨n, hn, e | e⟩ := stepping_mode_of_steppedReg h
      · exact hdec e
      · exact (hinc n hn).1 e
      · exact (hinc n hn).2 e
    have hindex := evalSpec_index_of_base hx hs hw hf hbase
    exact ⟨hindex, exec_alone_of_evalSpec hindex⟩
  case ready => exact congrArg outcome (operandAlone_ok.2 ⟨hm, rfl⟩)

end Sys2Proof.Machine
end

section
/-! PROOFS. The registers an instruction leaves as they were (R119, R135): all but the program counter, those its
specifiers step, and those of its destination; and an instruction without a destination changes no byte of memory. -/

namespace Sys2Proof.Machine

open Sys2Proof

/-- A specifier designates no registers but those it uses in register mode. -/
theorem Spec.loc_regs (t : DType) (x : Spec) (s : State) : (x.loc t s).regs = x.uses t := by
  cases x with
  | index rx base => cases base <;> rfl
  | _ => rfl

/-- Settles O49: the operands change what they step, the store the registers of the destination's location. -/
theorem destinationFrameRegisters : Obligations.DestinationFrameRegisters := by
  unfold Obligations.DestinationFrameRegisters
  intro i o s t hd h r hpc hsteps huses
  obtain ⟨v, ht⟩ := exec_stores_at_destination hd h
  rw [← Spec.loc_regs o.dt o.spec (i.beforeDestination s)] at huses
  constructor
  · rw [ht.reg r hpc, Loc.store_reg _ _ _ huses, operandsDone_reg hpc hsteps]
  · rw [ht.isWritten, Loc.store_isWritten _ _ _ huses, operandsDone_isWritten hsteps]

/-- The instructions with an opcode that have no destination and push nothing do nothing but evaluate their operands, and
set flags and the program counter. -/
theorem exec_only_operands {i : Instr} {s t : State} (hi : i.opcode? ≠ none) (hd : i.destination = none)
    (hp : i.opcode? ≠ some .pushl) (hj : i.opcode? ≠ some .jsb) (h : exec i s = .next t) :
    SameButPc (i.operandsDone s) t := by
  cases exec_effect h with
  | dest o _ hd' _ _ => cases hd.symm.trans hd'
  | none _ ht => exact ht
  | stack _ _ _ hi' _ _ => exact absurd hi' (not_or.2 ⟨hp, hj⟩)
  | alone hi' _ => exact absurd hi' hi

/-- `cmp`, `tst`, the branches and `jmp` have no operand with access `w` or `m` (R75). -/
theorem destination_of_frame_opcode {i : Instr} {op : Opcode} (hi : i.opcode? = some op)
    (hop : op ∈ [Opcode.cmpb, .cmpw, .cmpl, .tstb, .tstw, .tstl, .beql, .bneq, .bleq, .bgeq, .brb, .brw, .jmp]) :
    i.destination = none := by
  cases i with
  | cmpb | cmpw | cmpl | tstb | tstw | tstl | beql | bneq | bleq | bgeq | brb | brw | jmp => rfl
  | _ => exact absurd hop (by cases hi <;> decide)

/-- Settles O51: only the operands and the program counter can have changed anything but flags. -/
theorem frameWithoutDestination : Obligations.FrameWithoutDestination := by
  unfold Obligations.FrameWithoutDestination
  intro i op s t hi hop h
  have hpush : op ≠ .pushl ∧ op ≠ .jsb := by constructor <;> rintro rfl <;> exact absurd hop (by decide)
  have ht : SameButPc (i.operandsDone s) t :=
    exec_only_operands (by rw [hi]; exact nofun) (destination_of_frame_opcode hi hop)
      (fun e => hpush.1 (Option.some.inj (hi.symm.trans e))) (fun e => hpush.2 (Option.some.inj (hi.symm.trans e))) h
  refine ⟨fun x => by rw [ht.byteAt, operandsDone_byteAt], fun r hpc hsteps => ⟨?_, ?_⟩⟩
  · rw [ht.reg r hpc, operandsDone_reg hpc hsteps]
  · rw [ht.isWritten, operandsDone_isWritten hsteps]

end Sys2Proof.Machine
end

section
/-! PROOFS. The data transfer instructions and the sign extensions of a byte (R150 to R164, R200): what `mov`, `movzb`,
`cvtb`, `mova` and `pushl` leave when they complete, and that `pushl` is `movl` to `-(sp)`. -/

namespace Sys2Proof.Machine

open Sys2Proof Claims

/-! ## Instructions that move a value to a destination

One lemma for each family: an instruction that has the family's operands and does what the family does completes as the
family's statement says. -/

section

variable {t : DType} {mk : Spec → Spec → Instr}

/-- `mov<t>` (R150). -/
theorem moves_of_exec (hops : ∀ src dst, (mk src dst).operands = [⟨.r, t, src⟩, ⟨.w, t, dst⟩])
    (hexec : ∀ src dst s, exec (mk src dst) s = outcome (mov t src dst s)) : Moves t mk := by
  intro src dst s hr v d done hd
  rw [Instr.ready_iff, hops] at hr
  rw [hexec]
  exact outcome_next.2 (mov_ok.2 ⟨hr, hd, rfl⟩)

/-- `movzb<t>` (R155). -/
theorem movesZeroExtended_of_exec (hops : ∀ src dst, (mk src dst).operands = [⟨.r, .b, src⟩, ⟨.w, t, dst⟩])
    (hexec : ∀ src dst s, exec (mk src dst) s = outcome (movzb t src dst s)) : MovesZeroExtended t mk := by
  intro src dst s hr v d done hd
  rw [Instr.ready_iff, hops] at hr
  rw [hexec]
  exact outcome_next.2 (movzb_ok.2 ⟨hr, hd, rfl⟩)

/-- `cvtb<t>` (R200). -/
theorem convertsByte_of_exec (hops : ∀ src dst, (mk src dst).operands = [⟨.r, .b, src⟩, ⟨.w, t, dst⟩])
    (hexec : ∀ src dst s, exec (mk src dst) s = outcome (cvtb t src dst s)) : ConvertsByte t mk := by
  intro src dst s hr v d done hd
  rw [Instr.ready_iff, hops] at hr
  rw [hexec]
  exact outcome_next.2 (cvtb_ok.2 ⟨hr, hd, rfl⟩)

/-- `mova<t>` (R159): that the source can be evaluated with address access gives it an address, whether or not anything
may be read there. -/
theorem movesAddress_of_exec (hops : ∀ src dst, (mk src dst).operands = [⟨.a, t, src⟩, ⟨.w, .l, dst⟩])
    (hexec : ∀ src dst s, exec (mk src dst) s = outcome (mova t src dst s)) : MovesAddress t mk := by
  intro src dst s hr d done hd
  rw [Instr.ready_iff, hops] at hr
  have ⟨_, ⟨hsrc, _⟩, _⟩ := hr
  obtain ⟨a, ha⟩ := exists_address hsrc
  refine ⟨a, ha, ?_⟩
  rw [hexec]
  exact outcome_next.2 (mova_ok.2 ⟨hr, a, ha, hd, rfl⟩)

end

/-- Settles O34: the four instructions are the one operation at four types. -/
theorem movCompletes : Obligations.MovCompletes := by
  unfold Obligations.MovCompletes
  exact ⟨moves_of_exec (fun _ _ => rfl) fun _ _ _ => rfl, moves_of_exec (fun _ _ => rfl) fun _ _ _ => rfl,
    moves_of_exec (fun _ _ => rfl) fun _ _ _ => rfl, moves_of_exec (fun _ _ => rfl) fun _ _ _ => rfl⟩

/-- Settles O35: each pair of instructions is one operation at two types. -/
theorem byteExtensionsComplete : Obligations.ByteExtensionsComplete := by
  unfold Obligations.ByteExtensionsComplete
  exact ⟨movesZeroExtended_of_exec (fun _ _ => rfl) fun _ _ _ => rfl,
    movesZeroExtended_of_exec (fun _ _ => rfl) fun _ _ _ => rfl,
    convertsByte_of_exec (fun _ _ => rfl) fun _ _ _ => rfl, convertsByte_of_exec (fun _ _ => rfl) fun _ _ _ => rfl⟩

/-- Settles O36: the four instructions are the one operation, for sources of four types. -/
theorem movaCompletes : Obligations.MovaCompletes := by
  unfold Obligations.MovaCompletes
  exact ⟨movesAddress_of_exec (fun _ _ => rfl) fun _ _ _ => rfl,
    movesAddress_of_exec (fun _ _ => rfl) fun _ _ _ => rfl,
    movesAddress_of_exec (fun _ _ => rfl) fun _ _ _ => rfl,
    movesAddress_of_exec (fun _ _ => rfl) fun _ _ _ => rfl⟩

/-! ## `pushl` (R164) -/

/-- The state with a longword pushed: the stack pointer is less by 4, and the longword is there. -/
def State.pushed (s : State) (v : Word) : State :=
  { s.setReg spReg (s.reg spReg - 4) with mem := storeBytes s.mem (s.reg spReg - 4) 4 v.toNat }

theorem pushLongword_ok_pushed {v : Word} {s t : State} :
    pushLongword v s = .ok t ↔ (s.isWritten spReg = true ∧ s.WritableFrom (s.reg spReg - 4) 4) ∧ t = s.pushed v :=
  pushLongword_ok.trans and_assoc.symm

@[simp] theorem pushed_pc (s : State) (v : Word) : (s.pushed v).pc = s.pc :=
  pc_setReg_ne s (s.reg spReg - 4) (by decide)

/-- When `pushl` completes, and in which state. -/
theorem exec_pushl_next {src : Spec} {s t : State} :
    exec (.pushl src) s = .next t ↔ (Instr.pushl src).Ready s ∧
      ((src.after .l s.start).isWritten spReg = true ∧
        (src.after .l s.start).WritableFrom ((src.after .l s.start).reg spReg - 4) 4) ∧
      t = ((src.after .l s.start).pushed (src.read .l s.start)).setNZV (flagN (src.read .l s.start))
        (flagZ (src.read .l s.start)) false := by
  refine outcome_next.trans (push_ok.trans (and_congr_right fun _ => ?_))
  simp only [pushLongword_ok_pushed]
  constructor
  · rintro ⟨w, ⟨hsp, rfl⟩, ht⟩
    exact ⟨hsp, ht⟩
  · rintro ⟨hsp, ht⟩
    exact ⟨_, ⟨hsp, rfl⟩, ht⟩

/-- Settles O37: the push of the operand, from the state its specifier leaves. -/
theorem pushlCompletes : Obligations.PushlCompletes := by
  unfold Obligations.PushlCompletes
  intro src s hr v done sp hw hsp
  exact exec_pushl_next.2 ⟨hr, ⟨hw, hsp⟩, rfl⟩

/-! ## The destination `-(sp)` (R110) -/

theorem loc_autodecrement {n : Reg} (hn : n ≠ pcReg) (t : DType) (s : State) :
    (Spec.mem (.autodecrement n)).loc t s = .mem (s.reg n - BitVec.ofNat 32 t.size) :=
  congrArg (fun x => Loc.mem (x - BitVec.ofNat 32 t.size)) (advance_reg hn)

/-- `-(Rn)` moves the program counter past its one byte, and the register down by the operand's size. -/
theorem after_autodecrement {n : Reg} (hn : n ≠ pcReg) (t : DType) (s : State) :
    (Spec.mem (.autodecrement n)).after t s = (s.setReg n (s.reg n - BitVec.ofNat 32 t.size)).advance 1 := by
  have hstep : steppedReg (.autodecrement n) = some n := if_neg hn
  simp only [Spec.after, Spec.memMode, MemSpec.after, hstep, Spec.len, MemSpec.ext, MemSpec.stepBy, State.advance,
    reg_setPc_ne _ _ hn, pc_setReg_ne _ _ hn, setReg_setPc _ _ hn, BitVec.sub_eq_add_neg, Nat.add_zero]

/-- A longword stored through `-(sp)` is a longword pushed, but for the specifier's own byte. -/
theorem store_autodecrement_sp (s : State) (v : Word) :
    Loc.store (t := .l) ((Spec.mem (.autodecrement spReg)).after .l s) v
      ((Spec.mem (.autodecrement spReg)).loc .l s) = (s.pushed v).advance 1 := by
  have hsp : spReg ≠ pcReg := by decide
  rw [after_autodecrement hsp, loc_autodecrement hsp, State.advance, State.advance, pushed_pc, pc_setReg_ne _ _ hsp]
  rfl

/-- Settles O59: both store the operand's value from the state that its specifier leaves. -/
theorem pushlIsMovlToStack : Obligations.PushlIsMovlToStack := by
  unfold Obligations.PushlIsMovlToStack
  intro src s t u ht hu
  obtain ⟨-, -, rfl⟩ := exec_pushl_next.1 ht
  obtain ⟨-, -, rfl⟩ := mov_ok.1 (outcome_next.1 hu)
  rw [store_autodecrement_sp]
  rfl

end Sys2Proof.Machine
end

section
/-! PROOFS. The integer arithmetic and logical instructions (R170 to R199): what `add`, `sub`, `ash`, `cmp`, `tst` and `clr`
leave when they complete, and when `add`, `sub`, `ash` and `aobleq` trap instead. -/

namespace Sys2Proof.Machine

open Sys2Proof Claims

/-! ## A result stored, its flags set, and the overflow trap last (R170, R177, R192) -/

/-- The end of `add`, `sub` and `ash`: the result goes to the destination, the flags are set, and then an overflow is
trapped if `IV` asks for it. -/
def storeTrapping (t : DType) (d : Loc t) (r : BitVec t.bits) (flags : CondCodes) (s : State) : Except Stop State := do
  let s ← writeOperand t d r s
  overflowTrap flags.v (s.setNZVC flags)

theorem overflowTrap_error {v : Bool} {s : State} (hiv : s.iv = true) (hv : v = true) :
    overflowTrap v s = .error (.fault .integerOverflow) := by
  unfold overflowTrap
  rw [hiv, hv]
  rfl

section

variable {t : DType} {d : Loc t} {s : State} {flags : CondCodes}

theorem storeTrapping_completes (hd : d.Writable s) (h : ¬ (s.iv = true ∧ flags.v = true)) (r : BitVec t.bits) :
    storeTrapping t d r flags s = .ok ((d.store s r).setNZVC flags) := by
  have hiv : (((d.store s r).setNZVC flags).iv && flags.v) = false := by
    rw [setNZVC_iv, Loc.store_iv, Bool.eq_false_iff, Ne, Bool.and_eq_true]
    exact h
  exact (bind_of_ok (writeOperand_ok.2 ⟨hd, rfl⟩)).trans (overflowTrap_ok.2 ⟨hiv, rfl⟩)

theorem storeTrapping_traps (hd : d.Writable s) (hiv : s.iv = true) (hv : flags.v = true) (r : BitVec t.bits) :
    storeTrapping t d r flags s = .error (.fault .integerOverflow) :=
  (bind_of_ok (writeOperand_ok.2 ⟨hd, rfl⟩)).trans (overflowTrap_error ((Loc.store_iv ..).trans hiv) hv)

end

/-! ## Each family, when its operands can be evaluated -/

section

variable {t : DType} {x y z : Spec} {s : State}

theorem add2_eq (h : OpsReady s [⟨.r, t, x⟩, ⟨.m, t, y⟩]) :
    add2 t x y s = addInto t (x.read t s.start) (y.read t (x.after t s.start)) (y.loc t (x.after t s.start))
      (y.after t (x.after t s.start)) :=
  (driver_rm_eq (k := addInto t) h.1 h.2.1).trans (bind_of_ok h.operands_done)

theorem add3_eq (h : OpsReady s [⟨.r, t, x⟩, ⟨.r, t, y⟩, ⟨.w, t, z⟩]) :
    add3 t x y z s = addInto t (x.read t s.start) (y.read t (x.after t s.start))
      (z.loc t (y.after t (x.after t s.start))) (z.after t (y.after t (x.after t s.start))) :=
  (driver_rrw_eq (k := addInto t) h.1 h.2.1).trans (bind_of_ok h.operands_done)

theorem sub2_eq (h : OpsReady s [⟨.r, t, x⟩, ⟨.m, t, y⟩]) :
    sub2 t x y s = subInto t (y.read t (x.after t s.start)) (x.read t s.start) (y.loc t (x.after t s.start))
      (y.after t (x.after t s.start)) :=
  (driver_rm_eq (k := fun v m => subInto t m v) h.1 h.2.1).trans (bind_of_ok h.operands_done)

theorem sub3_eq (h : OpsReady s [⟨.r, t, x⟩, ⟨.r, t, y⟩, ⟨.w, t, z⟩]) :
    sub3 t x y z s = subInto t (y.read t (x.after t s.start)) (x.read t s.start)
      (z.loc t (y.after t (x.after t s.start))) (z.after t (y.after t (x.after t s.start))) :=
  (driver_rrw_eq (k := fun v m => subInto t m v) h.1 h.2.1).trans (bind_of_ok h.operands_done)

theorem ash_eq (h : OpsReady s [⟨.r, .b, x⟩, ⟨.r, t, y⟩, ⟨.w, t, z⟩]) :
    ash t x y z s = storeTrapping t (z.loc t (y.after t (x.after .b s.start)))
      (ashResult (x.read .b s.start) (y.read t (x.after .b s.start)))
      (ashFlags (x.read .b s.start) (y.read t (x.after .b s.start))) (z.after t (y.after t (x.after .b s.start))) :=
  (driver_rrw_eq (t := .b) (t2 := t) (t3 := t)
    (k := fun c v d => storeTrapping t d (ashResult c v) (ashFlags c v)) h.1 h.2.1).trans (bind_of_ok h.operands_done)

end

/-! ## Instructions of that shape

Once its operands can be evaluated, such an instruction is `storeTrapping` of a result and of flags that depend on two
operands alone. When it completes and when it traps follows from that. -/

/-- An instruction that computes from its first operand and its second, and stores into the second. -/
def Computes2 (t : DType) (mk : Spec → Spec → Instr) (result : BitVec t.bits → BitVec t.bits → BitVec t.bits)
    (flags : BitVec t.bits → BitVec t.bits → CondCodes) : Prop :=
  ∀ (x y : Spec) (s : State), (mk x y).Ready s →
    exec (mk x y) s = outcome (storeTrapping t (y.loc t (x.after t s.start))
      (result (x.read t s.start) (y.read t (x.after t s.start)))
      (flags (x.read t s.start) (y.read t (x.after t s.start))) (y.after t (x.after t s.start)))

/-- An instruction that computes from its first operand and its second, and stores into a third. -/
def Computes3 (t u : DType) (mk : Spec → Spec → Spec → Instr)
    (result : BitVec t.bits → BitVec u.bits → BitVec u.bits)
    (flags : BitVec t.bits → BitVec u.bits → CondCodes) : Prop :=
  ∀ (x y z : Spec) (s : State), (mk x y z).Ready s →
    exec (mk x y z) s = outcome (storeTrapping u (z.loc u (y.after u (x.after t s.start)))
      (result (x.read t s.start) (y.read u (x.after t s.start)))
      (flags (x.read t s.start) (y.read u (x.after t s.start))) (z.after u (y.after u (x.after t s.start))))

section

variable {t : DType} {mk : Spec → Spec → Instr} {result : BitVec t.bits → BitVec t.bits → BitVec t.bits}
  {flags : BitVec t.bits → BitVec t.bits → CondCodes}

theorem Computes2.combines (h : Computes2 t mk result flags) :
    Combines2 t mk (fun a b => (flags a b).v) fun a b d s => (d.store s (result a b)).setNZVC (flags a b) :=
  fun x y s hr hd hv =>
    (h x y s hr).trans (outcome_next.2 (storeTrapping_completes hd (by simpa using hv) _))

theorem Computes2.traps (h : Computes2 t mk result flags) : Traps2 t mk fun a b => (flags a b).v :=
  fun x y s hr hd hiv hv =>
    (h x y s hr).trans (outcome_fault.2 (storeTrapping_traps hd (by simpa using hiv) hv _))

end

section

variable {t u : DType} {mk : Spec → Spec → Spec → Instr} {result : BitVec t.bits → BitVec u.bits → BitVec u.bits}
  {flags : BitVec t.bits → BitVec u.bits → CondCodes}

theorem Computes3.completes (h : Computes3 t u mk result flags) {x y z : Spec} {s : State} (hr : (mk x y z).Ready s)
    (hd : (z.loc u (y.after u (x.after t s.start))).Writable (z.after u (y.after u (x.after t s.start))))
    (hv : ¬ (s.iv = true ∧ (flags (x.read t s.start) (y.read u (x.after t s.start))).v = true)) :
    exec (mk x y z) s = .next (((z.loc u (y.after u (x.after t s.start))).store
      (z.after u (y.after u (x.after t s.start))) (result (x.read t s.start) (y.read u (x.after t s.start)))).setNZVC
        (flags (x.read t s.start) (y.read u (x.after t s.start)))) :=
  (h x y z s hr).trans (outcome_next.2 (storeTrapping_completes hd (by simpa using hv) _))

theorem Computes3.traps (h : Computes3 t u mk result flags) : Traps3 t u mk fun a b => (flags a b).v :=
  fun x y z s hr hd hiv hv =>
    (h x y z s hr).trans (outcome_fault.2 (storeTrapping_traps hd (by simpa using hiv) hv _))

end

/-! ## `add` and `sub` (R170, R177) -/

/-- The flags of a sum, from its operands. -/
def sumFlags {w : Nat} (a b : BitVec w) : CondCodes := addFlags a b (a + b)

/-- The flags of a difference, from the operands in the instruction's order: the subtrahend first. -/
def differenceFlags {w : Nat} (x m : BitVec w) : CondCodes := subFlags m x (m - x)

theorem addb2_computes : Computes2 .b .addb2 (fun a b => a + b) sumFlags :=
  fun _ _ _ hr => congrArg outcome (add2_eq hr)

theorem addw2_computes : Computes2 .w .addw2 (fun a b => a + b) sumFlags :=
  fun _ _ _ hr => congrArg outcome (add2_eq hr)

theorem addl2_computes : Computes2 .l .addl2 (fun a b => a + b) sumFlags :=
  fun _ _ _ hr => congrArg outcome (add2_eq hr)

theorem addb3_computes : Computes3 .b .b .addb3 (fun a b => a + b) sumFlags :=
  fun _ _ _ _ hr => congrArg outcome (add3_eq hr)

theorem addw3_computes : Computes3 .w .w .addw3 (fun a b => a + b) sumFlags :=
  fun _ _ _ _ hr => congrArg outcome (add3_eq hr)

theorem addl3_computes : Computes3 .l .l .addl3 (fun a b => a + b) sumFlags :=
  fun _ _ _ _ hr => congrArg outcome (add3_eq hr)

theorem subb2_computes : Computes2 .b .subb2 (fun x m => m - x) differenceFlags :=
  fun _ _ _ hr => congrArg outcome (sub2_eq hr)

theorem subw2_computes : Computes2 .w .subw2 (fun x m => m - x) differenceFlags :=
  fun _ _ _ hr => congrArg outcome (sub2_eq hr)

theorem subl2_computes : Computes2 .l .subl2 (fun x m => m - x) differenceFlags :=
  fun _ _ _ hr => congrArg outcome (sub2_eq hr)

theorem subb3_computes : Computes3 .b .b .subb3 (fun x m => m - x) differenceFlags :=
  fun _ _ _ _ hr => congrArg outcome (sub3_eq hr)

theorem subw3_computes : Computes3 .w .w .subw3 (fun x m => m - x) differenceFlags :=
  fun _ _ _ _ hr => congrArg outcome (sub3_eq hr)

theorem subl3_computes : Computes3 .l .l .subl3 (fun x m => m - x) differenceFlags :=
  fun _ _ _ _ hr => congrArg outcome (sub3_eq hr)

/-- Settles O38: the flags that the machine sets are those of the statement, by definition. -/
theorem addCompletes : Obligations.AddCompletes := by
  unfold Obligations.AddCompletes
  exact ⟨addb2_computes.combines, addw2_computes.combines, addl2_computes.combines,
    fun _ _ _ _ hr => addb3_computes.completes hr, fun _ _ _ _ hr => addw3_computes.completes hr,
    fun _ _ _ _ hr => addl3_computes.completes hr⟩

/-- Settles O39: as for `add`, with the minuend second. -/
theorem subCompletes : Obligations.SubCompletes := by
  unfold Obligations.SubCompletes
  exact ⟨subb2_computes.combines, subw2_computes.combines, subl2_computes.combines,
    fun _ _ _ _ hr => subb3_computes.completes hr, fun _ _ _ _ hr => subw3_computes.completes hr,
    fun _ _ _ _ hr => subl3_computes.completes hr⟩

/-! ## `ash` (R192) -/

/-- The divisor is positive, so the division that rounds down is the one with a remainder of 0 or more. -/
theorem ashExact_eq_shifted {w : Nat} (k : Byte) (x : BitVec w) : ashExact k x = shifted k.toInt x.toInt := by
  have hdiv : ∀ n : Nat, x.toInt.fdiv (2 ^ n) = x.toInt / 2 ^ n :=
    fun n => Int.fdiv_eq_ediv_of_nonneg _ (pow_nonneg (by decide) n)
  rw [ashExact, hdiv, shifted]

theorem ashOverflow_eq_shiftOverflows {w : Nat} (k : Byte) (x : BitVec w) : ashOverflow k x = shiftOverflows k x := by
  rw [ashOverflow, ashExact_eq_shifted, shiftOverflows, Bool.decide_and, Bool.decide_or]

theorem ashResult_eq_ofInt {w : Nat} (k : Byte) (x : BitVec w) :
    ashResult k x = BitVec.ofInt w (shifted k.toInt x.toInt) :=
  congrArg (BitVec.ofInt w) (ashExact_eq_shifted k x)

theorem ashl_computes : Computes3 .b .l .ashl ashResult ashFlags := fun _ _ _ _ hr => congrArg outcome (ash_eq hr)

theorem ashq_computes : Computes3 .b .q .ashq ashResult ashFlags := fun _ _ _ _ hr => congrArg outcome (ash_eq hr)

section

variable {t : DType} {mk : Spec → Spec → Spec → Instr}

theorem Computes3.shifts (h : Computes3 .b t mk ashResult ashFlags) : Shifts t mk := by
  intro cnt src dst s hr k x d done r hd hv
  rw [← ashOverflow_eq_shiftOverflows k x] at hv ⊢
  have hres : ashResult k x = r := ashResult_eq_ofInt k x
  rw [← hres]
  exact h.completes hr hd hv

theorem Computes3.shift_traps (h : Computes3 .b t mk ashResult ashFlags) : Traps3 .b t mk shiftOverflows :=
  fun cnt src dst s hr hd hiv hv => h.traps cnt src dst s hr hd hiv ((ashOverflow_eq_shiftOverflows _ _).trans hv)

end

/-- Settles O42: the exact integer and its overflow are the same however the floor is written. -/
theorem ashCompletes : Obligations.AshCompletes := by
  unfold Obligations.AshCompletes
  exact ⟨ashl_computes.shifts, ashq_computes.shifts⟩

/-! ## `cmp`, `tst` and `clr` (R184, R188, R195) -/

section

variable {t : DType}

theorem compares_of_exec {mk : Spec → Spec → Instr} (hops : ∀ x y, (mk x y).operands = [⟨.r, t, x⟩, ⟨.r, t, y⟩])
    (hexec : ∀ x y s, exec (mk x y) s = outcome (cmp t x y s)) : Compares t mk := by
  intro x y s hr a b
  rw [Instr.ready_iff, hops] at hr
  rw [hexec]
  exact outcome_next.2 (cmp_ok.2 ⟨hr, rfl⟩)

theorem tests_of_exec {mk : Spec → Instr} (hops : ∀ x, (mk x).operands = [⟨.r, t, x⟩])
    (hexec : ∀ x s, exec (mk x) s = outcome (tst t x s)) : Tests t mk := by
  intro x s hr a
  rw [Instr.ready_iff, hops] at hr
  rw [hexec]
  exact outcome_next.2 (tst_ok.2 ⟨hr, rfl⟩)

theorem clears_of_exec {mk : Spec → Instr} (hops : ∀ dst, (mk dst).operands = [⟨.w, t, dst⟩])
    (hexec : ∀ dst s, exec (mk dst) s = outcome (clr t dst s)) : Clears t mk := by
  intro dst s hr d done hd
  rw [Instr.ready_iff, hops] at hr
  rw [hexec]
  exact outcome_next.2 (clr_ok.2 ⟨hr, hd, rfl⟩)

end

/-- Settles O40: the three instructions are the one operation at three types. -/
theorem cmpCompletes : Obligations.CmpCompletes := by
  unfold Obligations.CmpCompletes
  exact ⟨compares_of_exec (fun _ _ => rfl) fun _ _ _ => rfl, compares_of_exec (fun _ _ => rfl) fun _ _ _ => rfl,
    compares_of_exec (fun _ _ => rfl) fun _ _ _ => rfl⟩

/-- Settles O41: the three instructions are the one operation at three types. -/
theorem tstCompletes : Obligations.TstCompletes := by
  unfold Obligations.TstCompletes
  exact ⟨tests_of_exec (fun _ => rfl) fun _ _ => rfl, tests_of_exec (fun _ => rfl) fun _ _ => rfl,
    tests_of_exec (fun _ => rfl) fun _ _ => rfl⟩

/-- Settles O43: the four instructions are the one operation at four types, which reads no old value but the one a narrow
register keeps in part. -/
theorem clrCompletes : Obligations.ClrCompletes := by
  unfold Obligations.ClrCompletes
  exact ⟨clears_of_exec (fun _ => rfl) fun _ _ => rfl, clears_of_exec (fun _ => rfl) fun _ _ => rfl,
    clears_of_exec (fun _ => rfl) fun _ _ => rfl, clears_of_exec (fun _ => rfl) fun _ _ => rfl⟩

/-! ## The overflow trap (R170, R177, R192, R218) -/

/-- A displacement fetched changes nothing that decides whether a location may be written. -/
theorem Loc.writable_advance {t : DType} (d : Loc t) (s : State) (n : Nat) : d.Writable (s.advance n) ↔ d.Writable s := by
  cases d <;> exact Iff.rfl

/-- `aobleq` of the greatest longword (R218): the trap is raised after the store, the flags and the branch. -/
theorem addOneBranchLeq_traps {lim idx : Spec} {displ : Byte} {s : State}
    (h : OpsReady s [⟨.r, .l, lim⟩, ⟨.m, .l, idx⟩]) (hf : (idx.after .l (lim.after .l s.start)).Fetchable 1)
    (hd : (idx.loc .l (lim.after .l s.start)).Writable (idx.after .l (lim.after .l s.start))) (hiv : s.iv = true)
    (hv : (idx.read .l (lim.after .l s.start) : Word) = 0x7FFFFFFF) :
    addOneBranchLeq lim idx displ s = .error (.fault .integerOverflow) := by
  have ⟨hf0, ⟨hlim, hidx, _⟩, _⟩ := h
  refine (bind_of_ok (beginInstr_ok.2 ⟨hf0, rfl⟩)).trans ?_
  refine (bind_of_ok (operandR_ok.2 ⟨hlim, rfl, rfl⟩)).trans ?_
  refine (bind_of_ok (operandM_ok.2 ⟨hidx, rfl, rfl, rfl⟩)).trans ?_
  refine (bind_of_ok h.operands_done).trans ?_
  refine (bind_of_ok (branchTarget_ok.2 ⟨hf, rfl, rfl⟩)).trans ?_
  refine (bind_of_ok (writeOperand_ok.2 ⟨(Loc.writable_advance _ _ 1).2 hd, rfl⟩)).trans ?_
  refine overflowTrap_error ?_ (beq_iff_eq.2 hv)
  split <;> simpa using hiv

/-- Settles O48: each instruction that computes traps as its `V` says, and `aobleq` for the greatest longword. -/
theorem overflowTraps : Obligations.OverflowTraps := by
  unfold Obligations.OverflowTraps
  exact ⟨addb2_computes.traps, addw2_computes.traps, addl2_computes.traps, addb3_computes.traps, addw3_computes.traps,
    addl3_computes.traps, subb2_computes.traps, subw2_computes.traps, subl2_computes.traps, subb3_computes.traps,
    subw3_computes.traps, subl3_computes.traps, ashl_computes.shift_traps, ashq_computes.shift_traps,
    fun _ _ _ _ hr hf hd hiv hv => outcome_fault.2 (addOneBranchLeq_traps hr hf hd hiv hv)⟩

end Sys2Proof.Machine
end

section
/-! PROOFS. The conditional branches (R210 to R214), and where each goes after `cmpl` (R184). -/

namespace Sys2Proof.Machine

open Sys2Proof Claims

/-! ## The four conditional branches -/

/-- A conditional branch whose condition can be read. -/
theorem branches_of_exec {mk : Byte → Instr} {read : List Flag} {cond : CondCodes → Bool}
    {test : State → Except Stop Bool} (hexec : ∀ d s, exec (mk d) s = outcome (branchIf test d s))
    (htest : ∀ s : State, (∀ f ∈ read, s.ccWritten.get f = true) → test s = .ok (cond s.cc)) : Branches mk read cond := by
  intro d s hf hread
  rw [hexec]
  refine outcome_next.2 (branchIf_ok.2 ⟨hf, _, htest (s.advance 2) hread, ?_⟩)
  rw [advance_cc, advance_pc]
  cases cond s.cc
  · rfl
  · exact (setPc_setPc ..).symm

theorem beql_branches : Branches .beql [.z] fun x => x.z :=
  branches_of_exec (fun _ _ => rfl) fun _ h => readFlag_ok.2 ⟨h .z (by simp), rfl⟩

theorem bneq_branches : Branches .bneq [.z] fun x => !x.z :=
  branches_of_exec (fun _ _ => rfl) fun _ h => bind_ok.2 ⟨_, readFlag_ok.2 ⟨h .z (by simp), rfl⟩, rfl⟩

theorem bleq_branches : Branches .bleq [.n, .z] fun x => x.n || x.z :=
  branches_of_exec (fun _ _ => rfl) fun _ h => bind_ok.2 ⟨_, readFlag_ok.2 ⟨h .n (by simp), rfl⟩,
    bind_ok.2 ⟨_, readFlag_ok.2 ⟨h .z (by simp), rfl⟩, rfl⟩⟩

theorem bgeq_branches : Branches .bgeq [.n] fun x => !x.n :=
  branches_of_exec (fun _ _ => rfl) fun _ h => bind_ok.2 ⟨_, readFlag_ok.2 ⟨h .n (by simp), rfl⟩, rfl⟩

/-! ## What the flags of a comparison say to each of them -/

section

variable {w : Nat} (a b : BitVec w)

theorem cmpFlags_leq : ((cmpFlags a b).n || (cmpFlags a b).z) = decide (a.toInt ≤ b.toInt) := by
  rw [Bool.eq_iff_iff]
  simp [cmpFlags, le_iff_lt_or_eq, BitVec.toInt_inj]

theorem cmpFlags_geq : (!(cmpFlags a b).n) = decide (b.toInt ≤ a.toInt) := by
  simp [cmpFlags, ← decide_not]

theorem cmpFlags_eql : (cmpFlags a b).z = decide (a = b) := rfl

theorem cmpFlags_neq : (!(cmpFlags a b).z) = decide (a ≠ b) := decide_not.symm

end

/-- A conditional branch after `cmpl` goes by the comparison's flags, all of which `cmpl` writes. -/
theorem branch_after_cmpl {mk : Byte → Instr} {read : List Flag} {cond : CondCodes → Bool} (hb : Branches mk read cond)
    {x y : Spec} {s t : State} (h : exec (.cmpl x y) s = .next t) (hf : t.Fetchable 2) (d : Byte) {taken : Bool}
    (hc : cond (cmpFlags (x.read .l s.start) (y.read .l (x.after .l s.start))) = taken) :
    exec (mk d) t = .next (t.setPc (if taken then t.pc + 2 + d.signExtend 32 else t.pc + 2)) := by
  obtain ⟨-, rfl⟩ := cmp_ok.1 (outcome_next.1 h)
  rw [← hc]
  exact hb d _ hf fun f _ => by cases f <;> rfl

/-- Settles O60: each branch reads the flags that hold its relation. -/
theorem compareThenBranch : Obligations.CompareThenBranch := by
  unfold Obligations.CompareThenBranch
  intro x y d s t h hf a b goes
  exact ⟨branch_after_cmpl bleq_branches h hf d (cmpFlags_leq a b),
    branch_after_cmpl bgeq_branches h hf d (cmpFlags_geq a b), branch_after_cmpl beql_branches h hf d (cmpFlags_eql a b),
    branch_after_cmpl bneq_branches h hf d (cmpFlags_neq a b)⟩

end Sys2Proof.Machine
end

section
/-! PROOFS. The control instructions that complete (R210 to R218): where `brb`, `brw`, `jmp` and the conditional branches go,
and what `aobleq` leaves. -/

namespace Sys2Proof.Machine

open Sys2Proof Claims

/-! ## Branches (R210 to R216) -/

/-- An unconditional branch goes to the displacement from the end of the instruction. -/
theorem branch_eq {w bytes : Nat} {displ : BitVec w} {s : State} (hf : s.Fetchable (1 + bytes)) :
    branch bytes displ s = .ok (s.setPc (s.pc + BitVec.ofNat 32 (1 + bytes) + displ.signExtend 32)) := by
  have hgoes : (s.advance (1 + bytes)).setPc ((s.advance (1 + bytes)).pc + displ.signExtend 32) =
      s.setPc (s.pc + BitVec.ofNat 32 (1 + bytes) + displ.signExtend 32) := by
    rw [advance_pc]
    exact setPc_setPc ..
  exact branch_ok.2 ⟨hf, hgoes.symm⟩

/-- Settles O44: the conditional branches by the flags each reads, the others by the size of their displacement. -/
theorem branchesComplete : Obligations.BranchesComplete := by
  unfold Obligations.BranchesComplete
  exact ⟨beql_branches, bneq_branches, bleq_branches, bgeq_branches, fun _ _ hf => outcome_next.2 (branch_eq hf),
    fun _ _ hf => outcome_next.2 (branch_eq hf)⟩

/-! ## `jmp` (R217) -/

/-- Settles O45: an operand of address access that can be evaluated has an address, and `jmp` goes there. -/
theorem jmpCompletes : Obligations.JmpCompletes := by
  unfold Obligations.JmpCompletes
  intro dst s hr
  have ⟨_, ⟨hdst, _⟩, _⟩ := hr
  obtain ⟨a, ha⟩ := exists_address hdst
  exact ⟨a, ha, outcome_next.2 (jump_ok.2 ⟨hr, a, ha, rfl⟩)⟩

/-! ## `aobleq` (R218) -/

/-- An index that is not the greatest longword, or `IV` clear: no trap (R218). -/
theorem aobOverflow_not_trapped {iv : Bool} {i : Word} (h : ¬ (iv = true ∧ decide (i = 0x7FFFFFFF) = true)) :
    (iv && aobOverflow i) = false := by
  rw [Bool.eq_false_iff, Ne, Bool.and_eq_true]
  exact h

/-- Settles O46: the displacement fetched, `aobleq` leaves `aobNext`, whose flags are those of the statement. -/
theorem aobleqCompletes : Obligations.AobleqCompletes := by
  unfold Obligations.AobleqCompletes
  intro limit index displ s hr lim i d done r overflow stored hf hd hiv
  have hd' : d.Writable (done.advance 1) := (Loc.writable_advance d done 1).2 hd
  have htrap : (s.iv && aobOverflow i) = false := aobOverflow_not_trapped hiv
  have hnext : aobNext lim i d ((done.advance 1).pc + displ.signExtend 32) (done.advance 1) =
      if r.toInt ≤ lim.toInt then stored.setPc (done.pc + 1 + displ.signExtend 32) else stored := by
    rw [advance_pc]
    rfl
  exact outcome_next.2 (addOneBranchLeq_ok.2 ⟨hr, hf, hd', htrap, hnext.symm⟩)

end Sys2Proof.Machine
end

section
/-! PROOFS. The procedure instruction `jsb` (R230): the state it leaves when it completes, and the return from a
subroutine by `jmp @(sp)+` (R235). -/

namespace Sys2Proof.Machine

open Sys2Proof Claims

/-! ## `jsb` (R230) -/

/-- When `jsb` completes, and in which state. -/
theorem exec_jsb_next {dst : Spec} {s t : State} :
    exec (.jsb dst) s = .next t ↔ (Instr.jsb dst).Ready s ∧
      ((dst.after .b s.start).isWritten spReg = true ∧
        (dst.after .b s.start).WritableFrom ((dst.after .b s.start).reg spReg - 4) 4) ∧
      ∃ a, dst.loc .b s.start = .mem a ∧
        t = ((dst.after .b s.start).pushed (dst.after .b s.start).pc).setPc a := by
  refine outcome_next.trans (jumpSub_ok.trans (and_congr_right fun _ => ?_))
  simp only [pushLongword_ok_pushed]
  constructor
  · rintro ⟨a, ha, w, ⟨hsp, rfl⟩, ht⟩
    exact ⟨hsp, a, ha, ht⟩
  · rintro ⟨hsp, a, ha, ht⟩
    exact ⟨a, ha, _, ⟨hsp, rfl⟩, ht⟩

/-- Settles O47: an operand of address access that can be evaluated has an address, and `jsb` pushes and goes there. -/
theorem jsbCompletes : Obligations.JsbCompletes := by
  unfold Obligations.JsbCompletes
  intro dst s hr done sp hw hsp
  have ⟨_, ⟨hdst, _⟩, _⟩ := hr
  obtain ⟨a, ha⟩ := exists_address hdst
  exact ⟨a, ha, exec_jsb_next.2 ⟨hr, ⟨hw, hsp⟩, a, ha, rfl⟩⟩

/-! ## What a push leaves on the stack (R44) -/

@[simp] theorem pushed_reg_sp (s : State) (v : Word) : (s.pushed v).reg spReg = s.reg spReg - 4 :=
  reg_setReg_self s spReg (s.reg spReg - 4)

/-- The longword pushed is read back at the stack pointer. -/
theorem longAt_pushed {s : State} (hs : s.Canonical) (v : Word) : (s.pushed v).longAt (s.reg spReg - 4) = v := by
  have hload : loadBytes (s.pushed v).mem (s.reg spReg - 4) 4 = v.toNat % 256 ^ 4 :=
    loadBytes_storeBytes s.mem _ 4 v.toNat hs (by decide)
  have hlt : v.toNat < 256 ^ 4 := v.isLt
  rw [State.longAt, hload, Nat.mod_eq_of_lt hlt, BitVec.ofNat_toNat, BitVec.setWidth_eq]

/-! ## `jmp @(Rn)+` (R112, R217) -/

/-- Operands that use no register in register mode meet no hazard. -/
theorem hazardFree_of_uses_nil {os : List Operand} {s : State} (h : ∀ o ∈ os, o.spec.uses o.dt = []) :
    HazardFree s os := by
  rintro - ⟨k, -, o, ho, hk⟩
  rw [h o ho] at hk
  cases hk

/-- `@(Rn)+` moves the program counter past its one byte, and the register up by 4, whatever the operand's size. -/
theorem after_autoincrementDeferred (n : Gpr) (t : DType) (s : State) :
    (Spec.mem (.autoincrementDeferred n)).after t s = (s.setReg n.reg (s.reg n.reg + 4)).advance 1 := by
  have hn := Gpr.reg_ne_pc n
  simp only [Spec.after, Spec.memMode, MemSpec.after, steppedReg, Spec.len, MemSpec.ext, MemSpec.stepBy, State.advance,
    reg_setPc_ne _ _ hn, pc_setReg_ne _ _ hn, setReg_setPc _ _ hn, Nat.add_zero]

/-- `@(Rn)+` designates the longword's value at the register. -/
theorem loc_autoincrementDeferred (n : Gpr) (t : DType) (s : State) :
    (Spec.mem (.autoincrementDeferred n)).loc t s = .mem (s.longAt (s.reg n.reg)) :=
  congrArg (fun p => Loc.mem (s.longAt p)) (advance_reg_gpr s _ n)

section

variable {n : Gpr} {s : State} (hf : s.Fetchable 2) (hw : s.isWritten n.reg = true)
  (hr : s.ReadableFrom (s.reg n.reg) 4)

include hf hw hr

theorem jmp_autoincrementDeferred_ready : (Instr.jmp (.mem (.autoincrementDeferred n))).Ready s := by
  obtain ⟨hf1, hf2⟩ := (Fetchable_add s 1 1).1 hf
  have hmode : (MemSpec.autoincrementDeferred n).Ready (s.start.advance 1) := by
    refine ⟨⟨nofun, nofun⟩, fun k hk => ?_, fun p hp => ?_⟩
    · cases hk
      exact hw
    · obtain rfl : s.reg n.reg = p := by
        simpa [MemSpec.pointer, State.start] using hp
      exact hr
  have hspec : (Spec.mem (.autoincrementDeferred n)).Ready .a .b s.start :=
    ⟨hmode.1, hf2, fun m hm => by cases hm; exact hmode, nofun⟩
  exact ⟨hf1, ⟨⟨hspec, nofun⟩, trivial⟩, hazardFree_of_uses_nil (by simp [Instr.operands, Spec.uses])⟩

/-- `jmp @(Rn)+` goes to the longword at the register, and steps the register past it. -/
theorem exec_jmp_autoincrementDeferred :
    exec (.jmp (.mem (.autoincrementDeferred n))) s =
      .next ((s.setReg n.reg (s.reg n.reg + 4)).setPc (s.longAt (s.reg n.reg))) := by
  have hsp : s.start.reg n.reg = s.reg n.reg := advance_reg_gpr s 1 n
  refine outcome_next.2 (jump_ok.2 ⟨jmp_autoincrementDeferred_ready hf hw hr, s.longAt (s.reg n.reg), ?_, ?_⟩)
  · rw [loc_autoincrementDeferred, hsp]
    rfl
  · rw [after_autoincrementDeferred, hsp, State.start, State.advance, State.advance,
      setReg_setPc _ _ (Gpr.reg_ne_pc n), setPc_setPc, setPc_setPc]

end

/-! ## The return from a subroutine (R235) -/

/-- Settles O58: the longword at the stack pointer is the address that `jsb` pushed, and stepping the stack pointer past
it undoes the push. -/
theorem jsbThenJmpReturns : Obligations.JsbThenJmpReturns := by
  unfold Obligations.JsbThenJmpReturns
  intro dst s t u hs ht hmem hsp hw hf hr
  obtain ⟨-, -, a, -, rfl⟩ := exec_jsb_next.1 ht
  have hdone : (dst.after .b s.start).Canonical := by rwa [State.Canonical, Spec.after_mem, start_mem]
  have hreg : u.reg spReg = (dst.after .b s.start).reg spReg - 4 :=
    hsp.trans ((reg_setPc_ne _ a (by decide)).trans (pushed_reg_sp ..))
  have hlong : u.longAt (u.reg spReg) = (dst.after .b s.start).pc := by
    rw [State.longAt, hmem, hreg]
    exact longAt_pushed hdone _
  refine ⟨_, exec_jmp_autoincrementDeferred (n := 14) hf hw hr, ?pc, ?sp, hmem⟩
  case pc =>
    calc _ = u.longAt (u.reg spReg) := pc_setPc ..
      _ = s.pc + 1 + BitVec.ofNat 32 (dst.len .b) := by rw [hlong, Spec.after_pc, start_pc]
      _ = s.pc + BitVec.ofNat 32 (1 + dst.len .b) := by rw [BitVec.ofNat_add, BitVec.add_assoc]; rfl
  case sp =>
    calc _ = u.reg spReg + 4 := (reg_setPc_ne _ _ (by decide)).trans (reg_setReg_self u spReg _)
      _ = (dst.after .b s.start).reg spReg := by rw [hreg, BitVec.sub_add_cancel]

end Sys2Proof.Machine
end

section
/-! PROOFS. The instructions that the source names and the spec gives no meaning to: once its opcode is fetched, each is
refused by its mnemonic (R74). -/

namespace Sys2Proof.Machine

open Sys2Proof Claims

/-! ## A named instruction -/

/-- The opcode fetched, nothing comes before the refusal (R74). -/
theorem unmodelled_of_fetchable {s : State} (hf : s.Fetchable 1) (op : Opcode) :
    unmodelled op s = .error (.refuse (.unmodelled op)) := by
  rw [unmodelled, fetch_ok.2 ⟨hf, rfl⟩]
  rfl

/-- With the default map, a step at an opcode byte of R75 executes what that opcode is decoded to (R294). -/
theorem step_eq_exec_of_opcode_byte {s : State} {op : Opcode} (hm : s.params.opcodeMap = defaultOpcodeMap)
    (hp : s.pc ≠ s.params.endPC) (hb : s.byteAt s.pc = op.byte) :
    step s = exec (decodeBody op s.window.tail).1 s := by
  rw [step, if_neg hp, hm, window_eq, hb, decode_cons_of_lookup (isEscape_byte op) (lookup_byte op)]
  rfl

/-- What makes an instruction a named one: it is executed as `unmodelled`, and decoded from its opcode alone. -/
theorem refusedByName_of_exec {op : Opcode} {i : Instr} (hexec : ∀ s, exec i s = outcome (unmodelled op s))
    (hbody : ∀ bs, (decodeBody op bs).1 = i) : RefusedByName op i op.byte := by
  intro s hf
  have hrefused : exec i s = .refused (.unmodelled op) :=
    (hexec s).trans (congrArg outcome (unmodelled_of_fetchable hf op))
  refine ⟨hrefused, fun hm hp hb => ?_⟩
  rw [step_eq_exec_of_opcode_byte hm hp hb, hbody, hrefused]

/-! ## The floating-point instructions, `crc` and `insque` (R241 to R251) -/

/-- Settles O10: each of the eleven is executed as `unmodelled` and decoded from its opcode byte alone. -/
theorem floatAndSpecialRefused : Obligations.FloatAndSpecialRefused := by
  unfold Obligations.FloatAndSpecialRefused
  refine ⟨?addf2, ?addf3, ?addd2, ?addd3, ?subd2, ?subd3, ?mulf2, ?mulf3, ?polyf, ?crc, ?insque⟩
  all_goals exact refusedByName_of_exec (fun _ => rfl) fun _ => rfl

end Sys2Proof.Machine
end

section
/-! PROOFS. What an instruction may raise (R263, R265): the overflow trap is raised by `overflowTrap` alone, and a branch
stops for its fetches and its flags. The first is said by a judgement, `TrapsOnlyIf`, with one rule for each operation. -/

namespace Sys2Proof.Machine

open Sys2Proof

/-! ## Stops of a sequence, of fetches and of memory reads -/

theorem bind_error_iff {α β : Type} {x : Except Stop α} {f : α → Except Stop β} {e : Stop} :
    (x >>= f) = .error e ↔ x = .error e ∨ ∃ a, x = .ok a ∧ f a = .error e := by
  cases x <;> simp [bind, Except.bind]

/-- A read of memory stops only for an address that may not be read (R42). -/
theorem checkRead_stop {s : State} {a : Word} {n : Nat} {e : Stop} (h : checkRead s a n = .error e) :
    ∃ b, e = .fault (.accessViolation b .read) := by
  induction n generalizing a with
  | zero => cases h
  | succ n ih =>
    rw [checkRead] at h
    split_ifs at h
    · exact ih h
    · cases h
      exact ⟨a, rfl⟩

/-- The code check stops only for an address outside the code region (R14). -/
theorem checkCode_stop {s : State} {a : Word} {n : Nat} {e : Stop} (h : checkCode s a n = .error e) :
    ∃ b, e = .refuse (.fetchOutsideCode b) := by
  induction n generalizing a with
  | zero => cases h
  | succ n ih =>
    rw [checkCode] at h
    split_ifs at h
    · exact ih h
    · cases h
      exact ⟨a, rfl⟩

/-- The stops of an instruction-stream fetch (R14, R42). -/
def FetchStop (e : Stop) : Prop :=
  (∃ a, e = .fault (.accessViolation a .read)) ∨ ∃ a, e = .refuse (.fetchOutsideCode a)

theorem fetch_stop {n : Nat} {s : State} {e : Stop} (h : fetch n s = .error e) : FetchStop e := by
  rw [fetch_eq_bind] at h
  obtain hcode | ⟨-, -, h⟩ := bind_error_iff.1 h
  · exact .inr (checkCode_stop hcode)
  obtain hread | ⟨-, -, h⟩ := bind_error_iff.1 h
  · exact .inl (checkRead_stop hread)
  · cases h

/-! ## Branches (R210 to R216) -/

section

variable {s : State} {e : Stop}

theorem beginInstr_stop (h : beginInstr s = .error e) : FetchStop e := by
  obtain hf | ⟨t, -, h⟩ := bind_error_iff.1 h
  · exact fetch_stop hf
  · cases h

theorem branchTarget_stop {w bytes : Nat} {disp : BitVec w} (h : branchTarget bytes disp s = .error e) :
    FetchStop e := by
  rw [branchTarget_eq_bind] at h
  obtain hf | ⟨t, -, h⟩ := bind_error_iff.1 h
  · exact fetch_stop hf
  · cases h

theorem branch_stop {w bytes : Nat} {displ : BitVec w} (h : branch bytes displ s = .error e) : FetchStop e := by
  obtain hb | ⟨c, -, h⟩ := bind_error_iff.1 h
  · exact beginInstr_stop hb
  obtain ht | ⟨p, -, h⟩ := bind_error_iff.1 h
  · exact branchTarget_stop ht
  · cases h

/-- The stop of reading a flag that holds no value (R34). -/
def FlagStop (e : Stop) : Prop := ∃ g, e = .fault (.unwrittenRead (.flag g))

theorem readFlag_stop {f : Flag} (h : readFlag f s = .error e) : FlagStop e := by
  unfold readFlag at h
  split_ifs at h
  cases h
  exact ⟨f, rfl⟩

theorem condNeq_stop (h : condNeq s = .error e) : FlagStop e := by
  obtain hz | ⟨z, -, h⟩ := bind_error_iff.1 h
  · exact readFlag_stop hz
  · cases h

theorem condLeq_stop (h : condLeq s = .error e) : FlagStop e := by
  obtain hn | ⟨n, -, h⟩ := bind_error_iff.1 h
  · exact readFlag_stop hn
  obtain hz | ⟨z, -, h⟩ := bind_error_iff.1 h
  · exact readFlag_stop hz
  · cases h

theorem condGeq_stop (h : condGeq s = .error e) : FlagStop e := by
  obtain hn | ⟨n, -, h⟩ := bind_error_iff.1 h
  · exact readFlag_stop hn
  · cases h

theorem branchIf_stop {cond : State → Except Stop Bool} {displ : Byte}
    (hcond : ∀ u, cond u = .error e → FlagStop e) (h : branchIf cond displ s = .error e) : FetchStop e ∨ FlagStop e := by
  obtain hb | ⟨c, -, h⟩ := bind_error_iff.1 h
  · exact .inl (beginInstr_stop hb)
  obtain ht | ⟨p, -, h⟩ := bind_error_iff.1 h
  · exact .inl (branchTarget_stop ht)
  obtain hc | ⟨taken, -, h⟩ := bind_error_iff.1 h
  · exact .inr (hcond _ hc)
  · cases h

end

/-- An outcome that is a fault only for a read of memory or, where flags are read, for a flag that holds no value, and a
refusal only for a fetch outside the code region. -/
def StopsAsBranch (readsFlags : Prop) (o : Host.Outcome State Fault Refusal) : Prop :=
  (∀ f, o = .fault f →
    (∃ a, f = .accessViolation a .read) ∨ readsFlags ∧ ∃ g, f = .unwrittenRead (.flag g)) ∧
  ∀ r, o = .refused r → ∃ a, r = .fetchOutsideCode a

theorem StopsAsBranch.of_stops {readsFlags : Prop} {x : Except Stop State}
    (h : ∀ e, x = .error e → FetchStop e ∨ readsFlags ∧ FlagStop e) : StopsAsBranch readsFlags (outcome x) := by
  refine ⟨fun f hf => ?_, fun r hr => ?_⟩
  · obtain (⟨a, ha⟩ | ⟨a, ha⟩) | ⟨hreads, g, hg⟩ := h _ (outcome_fault.1 hf)
    · cases ha
      exact .inl ⟨a, rfl⟩
    · cases ha
    · cases hg
      exact .inr ⟨hreads, g, rfl⟩
  · obtain (⟨a, ha⟩ | ⟨a, ha⟩) | ⟨-, g, hg⟩ := h _ (outcome_refused.1 hr)
    · cases ha
    · cases ha
      exact ⟨a, rfl⟩
    · cases hg

theorem StopsAsBranch.ne_integerOverflow {readsFlags : Prop} {o : Host.Outcome State Fault Refusal}
    (h : StopsAsBranch readsFlags o) : o ≠ .fault .integerOverflow := by
  intro ho
  obtain ⟨a, ha⟩ | ⟨-, g, hg⟩ := h.1 _ ho
  · cases ha
  · cases hg

theorem branch_stopsAsBranch {readsFlags : Prop} {w bytes : Nat} (displ : BitVec w) (s : State) :
    StopsAsBranch readsFlags (outcome (branch bytes displ s)) :=
  .of_stops fun _ h => .inl (branch_stop h)

theorem branchIf_stopsAsBranch {readsFlags : Prop} (hr : readsFlags) {cond : State → Except Stop Bool}
    (hcond : ∀ u e, cond u = .error e → FlagStop e) (displ : Byte) (s : State) :
    StopsAsBranch readsFlags (outcome (branchIf cond displ s)) :=
  .of_stops fun e h => (branchIf_stop (fun u => hcond u e) h).imp_right fun hf => ⟨hr, hf⟩

/-- Every branch but `aobleq` (R210 to R216). -/
theorem branches_stopAsBranch (d : Byte) (e : BitVec 16) (s : State) :
    ∀ i ∈ [Instr.beql d, .bneq d, .bleq d, .bgeq d, .brb d, .brw e],
      StopsAsBranch (i ≠ .brb d ∧ i ≠ .brw e) (exec i s) := by
  simp only [List.forall_mem_cons]
  refine ⟨?beql, ?bneq, ?bleq, ?bgeq, ?brb, ?brw, fun _ h => (List.not_mem_nil h).elim⟩
  case beql => exact branchIf_stopsAsBranch ⟨nofun, nofun⟩ (fun _ _ h => readFlag_stop h) d s
  case bneq => exact branchIf_stopsAsBranch ⟨nofun, nofun⟩ (fun _ _ h => condNeq_stop h) d s
  case bleq => exact branchIf_stopsAsBranch ⟨nofun, nofun⟩ (fun _ _ h => condLeq_stop h) d s
  case bgeq => exact branchIf_stopsAsBranch ⟨nofun, nofun⟩ (fun _ _ h => condGeq_stop h) d s
  case brb => exact branch_stopsAsBranch d s
  case brw => exact branch_stopsAsBranch e s

/-! ## The judgement -/

/-- If `x` stops with the overflow trap, `iv` holds. Where `x` never traps, this holds of `false`. -/
def TrapsOnlyIf {α : Type} (iv : Bool) (x : Except Stop α) : Prop := x = .error (.fault .integerOverflow) → iv = true

section

variable {α β : Type} {iv : Bool}

theorem TrapsOnlyIf.ok (a : α) : TrapsOnlyIf iv (.ok a) := nofun

theorem TrapsOnlyIf.refuse (r : Refusal) : TrapsOnlyIf iv (raiseRefuse r : Except Stop α) := nofun

theorem TrapsOnlyIf.fault {f : Fault} (hf : f ≠ .integerOverflow) : TrapsOnlyIf iv (raiseFault f : Except Stop α) :=
  fun h => absurd (by cases h; rfl) hf

theorem TrapsOnlyIf.of_fetchStop {x : Except Stop α} (hx : ∀ e, x = .error e → FetchStop e) : TrapsOnlyIf iv x := by
  intro h
  obtain ⟨a, ha⟩ | ⟨a, ha⟩ := hx _ h
  · cases ha
  · cases ha

theorem TrapsOnlyIf.ite {p : Prop} [Decidable p] {x y : Except Stop α} (hx : TrapsOnlyIf iv x) (hy : TrapsOnlyIf iv y) :
    TrapsOnlyIf iv (if p then x else y) := by
  split_ifs
  · exact hx
  · exact hy

theorem TrapsOnlyIf.bind {x : Except Stop α} {f : α → Except Stop β} (hx : TrapsOnlyIf iv x)
    (hf : ∀ a, x = .ok a → TrapsOnlyIf iv (f a)) : TrapsOnlyIf iv (x >>= f) := by
  intro h
  obtain hxe | ⟨a, ha, hfe⟩ := bind_error_iff.1 h
  · exact hx hxe
  · exact hf a ha hfe

theorem TrapsOnlyIf.outcome_ne {x : Except Stop State} (hx : TrapsOnlyIf false x) :
    outcome x ≠ .fault .integerOverflow := fun h => Bool.false_ne_true (hx (outcome_fault.1 h))

end

/-! ## Operations that never trap -/

section

variable {iv : Bool}

theorem fetch_trapsOnlyIf (n : Nat) (s : State) : TrapsOnlyIf iv (fetch n s) := .of_fetchStop fun _ => fetch_stop

theorem beginInstr_trapsOnlyIf (s : State) : TrapsOnlyIf iv (beginInstr s) := .of_fetchStop fun _ => beginInstr_stop

theorem branchTarget_trapsOnlyIf {w : Nat} (bytes : Nat) (disp : BitVec w) (s : State) :
    TrapsOnlyIf iv (branchTarget bytes disp s) := .of_fetchStop fun _ => branchTarget_stop

theorem Ctx.fetch_trapsOnlyIf (n : Nat) (c : Ctx) : TrapsOnlyIf iv (c.fetch n) := by
  rw [Ctx.fetch_eq_bind]
  exact (Machine.fetch_trapsOnlyIf n c.st).bind fun _ _ => .ok _

theorem memRead_trapsOnlyIf (a : Word) (n : Nat) (s : State) : TrapsOnlyIf iv (memRead a n s) := by
  rw [memRead_eq_bind]
  exact TrapsOnlyIf.bind (.of_fetchStop fun _ h => .inl (checkRead_stop h)) fun _ _ => .ok _

theorem checkWrite_trapsOnlyIf (s : State) (a : Word) (n : Nat) : TrapsOnlyIf iv (checkWrite s a n) := by
  induction n generalizing a with
  | zero => exact .ok ()
  | succ n ih =>
    rw [checkWrite]
    exact .ite (.ite (.refuse _) (ih _)) (.fault nofun)

theorem memWrite_trapsOnlyIf (a : Word) (n : Nat) (v : BitVec (8 * n)) (s : State) :
    TrapsOnlyIf iv (memWrite a n v s) := by
  rw [memWrite_eq_bind]
  exact (checkWrite_trapsOnlyIf s a n).bind fun _ _ => .ok _

theorem readReg_trapsOnlyIf (n : Reg) (s : State) : TrapsOnlyIf iv (readReg n s) := .ite (.ok _) (.fault nofun)

theorem pushLongword_trapsOnlyIf (v : Word) (s : State) : TrapsOnlyIf iv (pushLongword v s) := by
  rw [pushLongword_eq_bind]
  exact (readReg_trapsOnlyIf spReg s).bind fun sp _ => memWrite_trapsOnlyIf (sp - 4) 4 v _

theorem endOperands_trapsOnlyIf (c : Ctx) : TrapsOnlyIf iv (endOperands c) := by
  unfold endOperands
  refine .ite ?_ (.ok _)
  split
  · exact .refuse _
  · exact .ok _

theorem readOperand_trapsOnlyIf {t : DType} (x : Loc t) (s : State) : TrapsOnlyIf iv (readOperand t x s) := by
  cases x with
  | lit v => exact .ok _
  | mem a => exact memRead_trapsOnlyIf a t.size s
  | reg n =>
    exact .ite ((readReg_trapsOnlyIf n s).bind fun _ _ => .ok _) (.ite
      ((readReg_trapsOnlyIf n s).bind fun _ _ => (readReg_trapsOnlyIf (n + 1) s).bind fun _ _ => .ok _)
      ((readReg_trapsOnlyIf n s).bind fun _ _ => (readReg_trapsOnlyIf (n + 1) s).bind fun _ _ =>
        (readReg_trapsOnlyIf (n + 2) s).bind fun _ _ => (readReg_trapsOnlyIf (n + 3) s).bind fun _ _ => .ok _))

theorem writeOperand_trapsOnlyIf {t : DType} (x : Loc t) (v : BitVec t.bits) (s : State) :
    TrapsOnlyIf iv (writeOperand t x v s) := by
  cases x with
  | lit _ => exact .fault nofun
  | mem a => exact memWrite_trapsOnlyIf a t.size v s
  | reg n => exact .ite ((readReg_trapsOnlyIf n s).bind fun _ _ => .ok _) (.ite (.ok _) (.ite (.ok _) (.ok _)))

theorem addressOf_trapsOnlyIf {t : DType} (x : Loc t) : TrapsOnlyIf iv (addressOf t x) := by
  cases x with
  | lit _ => exact .fault nofun
  | reg _ => exact .fault nofun
  | mem a => exact .ok a

/-! ## Operand specifiers never trap -/

theorem displaced_trapsOnlyIf {w : Nat} (bytes : Nat) (n : Gpr) (disp : BitVec w) (c : Ctx) :
    TrapsOnlyIf iv (displaced bytes n disp c) :=
  (Ctx.fetch_trapsOnlyIf bytes c).bind fun c1 _ => (readReg_trapsOnlyIf n.reg c1.st).bind fun _ _ => .ok _

theorem relative_trapsOnlyIf {w : Nat} (bytes : Nat) (disp : BitVec w) (c : Ctx) :
    TrapsOnlyIf iv (relative bytes disp c) :=
  (Ctx.fetch_trapsOnlyIf bytes c).bind fun _ _ => .ok _

theorem deferred_trapsOnlyIf {x : Except Stop (Word × Ctx)} (hx : TrapsOnlyIf iv x) : TrapsOnlyIf iv (deferred x) :=
  hx.bind fun p _ => (memRead_trapsOnlyIf p.1 4 p.2.st).bind fun _ _ => .ok _

theorem address_trapsOnlyIf (d : Nat) (m : MemSpec) (c : Ctx) : TrapsOnlyIf iv (address d m c) := by
  cases m with
  | registerDeferred n => exact .ite (.refuse _) ((readReg_trapsOnlyIf n c.st).bind fun _ _ => .ok _)
  | autodecrement n => exact .ite (.refuse _) ((readReg_trapsOnlyIf n c.st).bind fun _ _ => .ok _)
  | autoincrement n => exact (readReg_trapsOnlyIf n.reg c.st).bind fun _ _ => .ok _
  | autoincrementDeferred n =>
    exact (readReg_trapsOnlyIf n.reg c.st).bind fun p _ => (memRead_trapsOnlyIf p 4 c.st).bind fun _ _ => .ok _
  | absolute addr => exact (Ctx.fetch_trapsOnlyIf 4 c).bind fun _ _ => .ok _
  | byteDisplacement n disp | wordDisplacement n disp | longwordDisplacement n disp =>
    exact displaced_trapsOnlyIf _ n disp c
  | byteRelative disp | wordRelative disp | longwordRelative disp => exact relative_trapsOnlyIf _ disp c
  | byteDisplacementDeferred n disp | wordDisplacementDeferred n disp | longwordDisplacementDeferred n disp =>
    exact deferred_trapsOnlyIf (displaced_trapsOnlyIf _ n disp c)
  | byteRelativeDeferred disp | wordRelativeDeferred disp | longwordRelativeDeferred disp =>
    exact deferred_trapsOnlyIf (relative_trapsOnlyIf _ disp c)

theorem indexed_trapsOnlyIf (d : Nat) (rx : Reg) (base : IndexBase) (c : Ctx) :
    TrapsOnlyIf iv (indexed d rx base c) := by
  refine .ite (.fault nofun) ((Ctx.fetch_trapsOnlyIf 1 c).bind fun c1 _ => ?_)
  cases base with
  | forbidden b => exact .ite (.refuse _) (.fault nofun)
  | mem m =>
    exact .ite (.refuse _) ((address_trapsOnlyIf d m c1).bind fun p _ =>
      (readReg_trapsOnlyIf rx p.2.st).bind fun _ _ => .ok _)

theorem literal_trapsOnlyIf (acc : Access) (t : DType) (lit : BitVec 6) (c : Ctx) :
    TrapsOnlyIf iv (literal acc t lit c) := by
  refine .ite (.ite (.refuse _) (.ite ?_ (.ok _))) (.fault nofun)
  cases c.st.params.shortLiteralExt with
  | signed => exact .ok _
  | unsigned => exact .ok _
  | undecided => exact .refuse _

theorem register_trapsOnlyIf (acc : Access) (t : DType) (n : Reg) (c : Ctx) :
    TrapsOnlyIf iv (register acc t n c) :=
  .ite (.fault nofun) (.ite (.refuse _) (.ite (.refuse _) (.ite (.refuse _) (.ok _))))

theorem immediate_trapsOnlyIf (acc : Access) (t : DType) (v : BitVec 128) (c : Ctx) :
    TrapsOnlyIf iv (immediate acc t v c) :=
  .ite ((Ctx.fetch_trapsOnlyIf t.size c).bind fun _ _ => .ok _) (.refuse _)

theorem evalSpec_trapsOnlyIf (acc : Access) (t : DType) (x : Spec) (c : Ctx) :
    TrapsOnlyIf iv (evalSpec acc t x c) := by
  refine (Ctx.fetch_trapsOnlyIf 1 c).bind fun c1 _ => ?_
  cases x with
  | literal lit => exact literal_trapsOnlyIf acc t lit c1
  | index rx base => exact (indexed_trapsOnlyIf t.size rx base c1).bind fun _ _ => .ok _
  | register n => exact register_trapsOnlyIf acc t n c1
  | immediate v => exact immediate_trapsOnlyIf acc t v c1
  | mem m => exact (address_trapsOnlyIf t.size m c1).bind fun _ _ => .ok _

theorem operandR_trapsOnlyIf (t : DType) (x : Spec) (c : Ctx) : TrapsOnlyIf iv (operandR t x c) :=
  (evalSpec_trapsOnlyIf .r t x c).bind fun p _ => (readOperand_trapsOnlyIf p.1 p.2.st).bind fun _ _ => .ok _

theorem operandW_trapsOnlyIf (t : DType) (x : Spec) (c : Ctx) : TrapsOnlyIf iv (operandW t x c) :=
  evalSpec_trapsOnlyIf .w t x c

theorem operandM_trapsOnlyIf (t : DType) (x : Spec) (c : Ctx) : TrapsOnlyIf iv (operandM t x c) :=
  (evalSpec_trapsOnlyIf .m t x c).bind fun p _ => (readOperand_trapsOnlyIf p.1 p.2.st).bind fun _ _ => .ok _

theorem operandA_trapsOnlyIf (t : DType) (x : Spec) (c : Ctx) : TrapsOnlyIf iv (operandA t x c) :=
  (evalSpec_trapsOnlyIf .a t x c).bind fun p _ => (addressOf_trapsOnlyIf p.1).bind fun _ _ => .ok _

end

/-! ## The families that never trap -/

section

variable {iv : Bool} {s : State} {t : DType} {x y : Spec}

theorem mov_trapsOnlyIf : TrapsOnlyIf iv (mov t x y s) :=
  (beginInstr_trapsOnlyIf s).bind fun c _ => (operandR_trapsOnlyIf t x c).bind fun p _ =>
  (operandW_trapsOnlyIf t y p.2).bind fun q _ => (endOperands_trapsOnlyIf q.2).bind fun u _ =>
  (writeOperand_trapsOnlyIf q.1 p.1 u).bind fun _ _ => .ok _

theorem movzb_trapsOnlyIf : TrapsOnlyIf iv (movzb t x y s) :=
  (beginInstr_trapsOnlyIf s).bind fun c _ => (operandR_trapsOnlyIf .b x c).bind fun p _ =>
  (operandW_trapsOnlyIf t y p.2).bind fun q _ => (endOperands_trapsOnlyIf q.2).bind fun u _ =>
  (writeOperand_trapsOnlyIf q.1 (p.1.setWidth t.bits) u).bind fun _ _ => .ok _

theorem cvtb_trapsOnlyIf : TrapsOnlyIf iv (cvtb t x y s) :=
  (beginInstr_trapsOnlyIf s).bind fun c _ => (operandR_trapsOnlyIf .b x c).bind fun p _ =>
  (operandW_trapsOnlyIf t y p.2).bind fun q _ => (endOperands_trapsOnlyIf q.2).bind fun u _ =>
  (writeOperand_trapsOnlyIf q.1 (p.1.signExtend t.bits) u).bind fun _ _ => .ok _

theorem mova_trapsOnlyIf : TrapsOnlyIf iv (mova t x y s) :=
  (beginInstr_trapsOnlyIf s).bind fun c _ => (operandA_trapsOnlyIf t x c).bind fun p _ =>
  (operandW_trapsOnlyIf .l y p.2).bind fun q _ => (endOperands_trapsOnlyIf q.2).bind fun u _ =>
  (writeOperand_trapsOnlyIf (t := .l) q.1 p.1 u).bind fun _ _ => .ok _

theorem clr_trapsOnlyIf : TrapsOnlyIf iv (clr t x s) :=
  (beginInstr_trapsOnlyIf s).bind fun c _ => (operandW_trapsOnlyIf t x c).bind fun p _ =>
  (endOperands_trapsOnlyIf p.2).bind fun u _ => (writeOperand_trapsOnlyIf p.1 0 u).bind fun _ _ => .ok _

theorem push_trapsOnlyIf : TrapsOnlyIf iv (push x s) :=
  (beginInstr_trapsOnlyIf s).bind fun c _ => (operandR_trapsOnlyIf .l x c).bind fun p _ =>
  (endOperands_trapsOnlyIf p.2).bind fun u _ => (pushLongword_trapsOnlyIf p.1 u).bind fun _ _ => .ok _

theorem cmp_trapsOnlyIf : TrapsOnlyIf iv (cmp t x y s) :=
  (beginInstr_trapsOnlyIf s).bind fun c _ => (operandR_trapsOnlyIf t x c).bind fun p _ =>
  (operandR_trapsOnlyIf t y p.2).bind fun q _ => (endOperands_trapsOnlyIf q.2).bind fun _ _ => .ok _

theorem tst_trapsOnlyIf : TrapsOnlyIf iv (tst t x s) :=
  (beginInstr_trapsOnlyIf s).bind fun c _ => (operandR_trapsOnlyIf t x c).bind fun p _ =>
  (endOperands_trapsOnlyIf p.2).bind fun _ _ => .ok _

theorem jump_trapsOnlyIf : TrapsOnlyIf iv (jump x s) :=
  (beginInstr_trapsOnlyIf s).bind fun c _ => (operandA_trapsOnlyIf .b x c).bind fun p _ =>
  (endOperands_trapsOnlyIf p.2).bind fun _ _ => .ok _

theorem jumpSub_trapsOnlyIf : TrapsOnlyIf iv (jumpSub x s) :=
  (beginInstr_trapsOnlyIf s).bind fun c _ => (operandA_trapsOnlyIf .b x c).bind fun p _ =>
  (endOperands_trapsOnlyIf p.2).bind fun u _ => (pushLongword_trapsOnlyIf u.pc u).bind fun _ _ => .ok _

theorem unmodelled_trapsOnlyIf (op : Opcode) : TrapsOnlyIf iv (unmodelled op s) :=
  (fetch_trapsOnlyIf 1 s).bind fun _ _ => .refuse _

theorem refuseOpcode_trapsOnlyIf (op : Byte) (second : Option Byte) : TrapsOnlyIf iv (refuseOpcode op second s) := by
  refine (fetch_trapsOnlyIf 1 s).bind fun u _ => ?_
  cases second with
  | none => exact .refuse _
  | some op2 => exact (fetch_trapsOnlyIf 1 u).bind fun _ _ => .refuse _

theorem operandAlone_trapsOnlyIf (acc : Access) : TrapsOnlyIf iv (operandAlone acc t x s) := by
  cases acc with
  | r => exact (operandR_trapsOnlyIf t x _).bind fun _ _ => .ok _
  | w => exact (operandW_trapsOnlyIf t x _).bind fun _ _ => .ok _
  | m => exact (operandM_trapsOnlyIf t x _).bind fun _ _ => .ok _
  | a => exact (operandA_trapsOnlyIf t x _).bind fun _ _ => .ok _

end

/-! ## The families that trap, and then with `IV` set (R170, R177, R192, R218)

The evaluation of operands leaves `IV` as it was, so the trap asks for the `IV` of the state the instruction started in. -/

theorem overflowTrap_trapsOnlyIf (v : Bool) (s : State) : TrapsOnlyIf s.iv (overflowTrap v s) := by
  unfold overflowTrap
  split_ifs with h
  · exact fun _ => (Bool.and_eq_true_iff.1 h).1
  · exact .ok s

theorem storeTrapping_trapsOnlyIf {t : DType} (d : Loc t) (r : BitVec t.bits) (flags : CondCodes) (s : State) :
    TrapsOnlyIf s.iv (storeTrapping t d r flags s) := by
  refine (writeOperand_trapsOnlyIf d r s).bind fun u hu => ?_
  obtain ⟨-, rfl⟩ := writeOperand_ok.1 hu
  have hiv : ((d.store s r).setNZVC flags).iv = s.iv := by rw [setNZVC_iv, Loc.store_iv]
  exact hiv ▸ overflowTrap_trapsOnlyIf flags.v ((d.store s r).setNZVC flags)

theorem operandR_iv {t : DType} {x : Spec} {c c' : Ctx} {v : BitVec t.bits} (h : operandR t x c = .ok (v, c')) :
    c'.st.iv = c.st.iv := by
  obtain ⟨-, -, rfl⟩ := operandR_ok.1 h
  exact Spec.after_iv ..

theorem operandW_iv {t : DType} {x : Spec} {c c' : Ctx} {d : Loc t} (h : operandW t x c = .ok (d, c')) :
    c'.st.iv = c.st.iv := by
  obtain ⟨-, -, rfl⟩ := operandW_ok.1 h
  exact Spec.after_iv ..

theorem operandM_iv {t : DType} {x : Spec} {c c' : Ctx} {v : BitVec t.bits} {d : Loc t}
    (h : operandM t x c = .ok (v, d, c')) : c'.st.iv = c.st.iv := by
  obtain ⟨-, -, -, rfl⟩ := operandM_ok.1 h
  exact Spec.after_iv ..

theorem beginInstr_iv {s : State} {c : Ctx} (h : beginInstr s = .ok c) : c.st.iv = s.iv := by
  obtain ⟨-, rfl⟩ := beginInstr_ok.1 h
  rfl

theorem endOperands_iv {c : Ctx} {s : State} (h : endOperands c = .ok s) : s.iv = c.st.iv := by
  obtain ⟨-, rfl⟩ := endOperands_ok.1 h
  rfl

/-- An instruction that reads one operand and modifies another traps only as what follows its operands does. -/
theorem driver_rm_trapsOnlyIf {t : DType} {x y : Spec} {s : State}
    {k : BitVec t.bits → BitVec t.bits → Loc t → State → Except Stop State}
    (hk : ∀ v0 v1 d u, TrapsOnlyIf u.iv (k v0 v1 d u)) :
    TrapsOnlyIf s.iv (do
      let c ← beginInstr s
      let (v0, c) ← operandR t x c
      let (v1, d, c) ← operandM t y c
      let s ← endOperands c
      k v0 v1 d s) := by
  refine (beginInstr_trapsOnlyIf s).bind fun c h0 => ?_
  refine (operandR_trapsOnlyIf t x c).bind fun ⟨v0, c0⟩ h1 => ?_
  refine (operandM_trapsOnlyIf t y c0).bind fun ⟨v1, d, c1⟩ h2 => ?_
  refine (endOperands_trapsOnlyIf c1).bind fun u h3 => ?_
  have hiv : u.iv = s.iv := by rw [endOperands_iv h3, operandM_iv h2, operandR_iv h1, beginInstr_iv h0]
  exact hiv ▸ hk v0 v1 d u

/-- An instruction that reads two operands and writes a third traps only as what follows its operands does. -/
theorem driver_rrw_trapsOnlyIf {t t2 t3 : DType} {x y z : Spec} {s : State}
    {k : BitVec t.bits → BitVec t2.bits → Loc t3 → State → Except Stop State}
    (hk : ∀ v0 v1 d u, TrapsOnlyIf u.iv (k v0 v1 d u)) :
    TrapsOnlyIf s.iv (do
      let c ← beginInstr s
      let (v0, c) ← operandR t x c
      let (v1, c) ← operandR t2 y c
      let (d, c) ← operandW t3 z c
      let s ← endOperands c
      k v0 v1 d s) := by
  refine (beginInstr_trapsOnlyIf s).bind fun c h0 => ?_
  refine (operandR_trapsOnlyIf t x c).bind fun ⟨v0, c0⟩ h1 => ?_
  refine (operandR_trapsOnlyIf t2 y c0).bind fun ⟨v1, c1⟩ h2 => ?_
  refine (operandW_trapsOnlyIf t3 z c1).bind fun ⟨d, c2⟩ h3 => ?_
  refine (endOperands_trapsOnlyIf c2).bind fun u h4 => ?_
  have hiv : u.iv = s.iv := by
    rw [endOperands_iv h4, operandW_iv h3, operandR_iv h2, operandR_iv h1, beginInstr_iv h0]
  exact hiv ▸ hk v0 v1 d u

section

variable {s : State} {t : DType} {x y z : Spec}

theorem add2_trapsOnlyIf : TrapsOnlyIf s.iv (add2 t x y s) :=
  driver_rm_trapsOnlyIf (k := addInto t) fun a b d => storeTrapping_trapsOnlyIf d (a + b) (addFlags a b (a + b))

theorem add3_trapsOnlyIf : TrapsOnlyIf s.iv (add3 t x y z s) :=
  driver_rrw_trapsOnlyIf (k := addInto t) fun a b d => storeTrapping_trapsOnlyIf d (a + b) (addFlags a b (a + b))

theorem sub2_trapsOnlyIf : TrapsOnlyIf s.iv (sub2 t x y s) :=
  driver_rm_trapsOnlyIf (k := fun a m => subInto t m a) fun a m d =>
    storeTrapping_trapsOnlyIf d (m - a) (subFlags m a (m - a))

theorem sub3_trapsOnlyIf : TrapsOnlyIf s.iv (sub3 t x y z s) :=
  driver_rrw_trapsOnlyIf (k := fun a m => subInto t m a) fun a m d =>
    storeTrapping_trapsOnlyIf d (m - a) (subFlags m a (m - a))

theorem ash_trapsOnlyIf : TrapsOnlyIf s.iv (ash t x y z s) :=
  driver_rrw_trapsOnlyIf (t := .b) (k := fun cnt v d => storeTrapping t d (ashResult cnt v) (ashFlags cnt v))
    fun cnt v d => storeTrapping_trapsOnlyIf d (ashResult cnt v) (ashFlags cnt v)

/-- What `aobleq` does after its operands (R218). -/
def aobleqTail (displ : Byte) (lim i : Word) (d : Loc .l) (s : State) : Except Stop State := do
  let (target, s) ← branchTarget 1 displ s
  let s ← writeOperand .l d (i + 1) s
  let s := s.setNZV (flagN (i + 1)) (flagZ (i + 1)) (aobOverflow i)
  let s := if (i + 1).toInt ≤ lim.toInt then s.setPc target else s
  overflowTrap (aobOverflow i) s

/-- The displacement, the store, the flags and the branch leave `IV` as it was. -/
theorem aobleqTail_trapsOnlyIf (displ : Byte) (lim i : Word) (d : Loc .l) (u : State) :
    TrapsOnlyIf u.iv (aobleqTail displ lim i d u) := by
  refine (branchTarget_trapsOnlyIf 1 displ u).bind fun ⟨target, u1⟩ h1 => ?_
  obtain ⟨-, rfl, -⟩ := branchTarget_ok.1 h1
  refine (writeOperand_trapsOnlyIf (t := .l) d (i + 1) _).bind fun u2 h2 => ?_
  obtain ⟨-, rfl⟩ := (writeOperand_ok (t := .l)).1 h2
  intro h
  have hiv := overflowTrap_trapsOnlyIf _ _ h
  split at hiv <;> simpa using hiv

theorem addOneBranchLeq_trapsOnlyIf {displ : Byte} : TrapsOnlyIf s.iv (addOneBranchLeq x y displ s) :=
  driver_rm_trapsOnlyIf (t := .l) (k := aobleqTail displ) (aobleqTail_trapsOnlyIf displ)

end

/-! ## Every instruction -/

/-- The opcodes that may trap: those of `add`, `sub`, `ash` and `aobleq`. -/
def trappingOps : List Opcode :=
  [.addb2, .addb3, .addw2, .addw3, .addl2, .addl3, .subb2, .subb3, .subw2, .subw3, .subl2, .subl3, .ashl, .ashq, .aobleq]

/-- An instruction with an opcode traps only with `IV` set and if it is one of those. -/
theorem exec_opcode_traps {i : Instr} {op : Opcode} {s : State} (hi : i.opcode? = some op)
    (h : exec i s = .fault .integerOverflow) : s.iv = true ∧ op ∈ trappingOps := by
  cases i <;> cases hi
  case addb2 | addw2 | addl2 => exact ⟨add2_trapsOnlyIf (outcome_fault.1 h), by decide⟩
  case addb3 | addw3 | addl3 => exact ⟨add3_trapsOnlyIf (outcome_fault.1 h), by decide⟩
  case subb2 | subw2 | subl2 => exact ⟨sub2_trapsOnlyIf (outcome_fault.1 h), by decide⟩
  case subb3 | subw3 | subl3 => exact ⟨sub3_trapsOnlyIf (outcome_fault.1 h), by decide⟩
  case ashl | ashq => exact ⟨ash_trapsOnlyIf (outcome_fault.1 h), by decide⟩
  case aobleq => exact ⟨addOneBranchLeq_trapsOnlyIf (outcome_fault.1 h), by decide⟩
  case movb | movw | movl | movq => exact absurd h mov_trapsOnlyIf.outcome_ne
  case movzbw | movzbl => exact absurd h movzb_trapsOnlyIf.outcome_ne
  case movab | movaw | moval | movaq => exact absurd h mova_trapsOnlyIf.outcome_ne
  case pushl => exact absurd h push_trapsOnlyIf.outcome_ne
  case cmpb | cmpw | cmpl => exact absurd h cmp_trapsOnlyIf.outcome_ne
  case tstb | tstw | tstl => exact absurd h tst_trapsOnlyIf.outcome_ne
  case clrb | clrw | clrl | clrq => exact absurd h clr_trapsOnlyIf.outcome_ne
  case cvtbw | cvtbl => exact absurd h cvtb_trapsOnlyIf.outcome_ne
  case beql d | bneq d | bleq d | bgeq d | brb d =>
    exact absurd h (branches_stopAsBranch d 0 s _ (by simp)).ne_integerOverflow
  case brw e => exact absurd h (branches_stopAsBranch 0 e s _ (by simp)).ne_integerOverflow
  case jmp => exact absurd h jump_trapsOnlyIf.outcome_ne
  case jsb => exact absurd h jumpSub_trapsOnlyIf.outcome_ne
  all_goals exact absurd h (unmodelled_trapsOnlyIf _).outcome_ne

/-- Any instruction: a specifier by itself has no opcode, and evaluating it never traps. -/
theorem exec_traps {i : Instr} {s : State} (h : exec i s = .fault .integerOverflow) :
    s.iv = true ∧ ∃ op ∈ trappingOps, i.opcode? = some op := by
  cases hi : i.opcode? with
  | some op =>
    obtain ⟨hiv, hop⟩ := exec_opcode_traps hi h
    exact ⟨hiv, op, hop, rfl⟩
  | none =>
    obtain ⟨acc, t, x, rfl⟩ := eq_alone_of_opcode_none hi
    rw [exec_alone] at h
    exact absurd h (operandAlone_trapsOnlyIf acc).outcome_ne

theorem step_traps {s : State} (h : step s = .fault .integerOverflow) : s.iv = true := by
  unfold step at h
  split_ifs at h
  split at h
  next => exact (exec_traps h).1
  next => exact absurd h (refuseOpcode_trapsOnlyIf _ _).outcome_ne
  next => exact absurd h (refuseOpcode_trapsOnlyIf _ _).outcome_ne

/-- Settles O16: `exec_traps` for every instruction, `step_traps` for the step, and `branches_stopAsBranch`, whose
`StopsAsBranch` is the last clause of the statement. -/
theorem whatMayBeRaised : Obligations.WhatMayBeRaised := by
  unfold Obligations.WhatMayBeRaised
  refine ⟨fun i s h => exec_traps h, fun s hiv h => ?_, fun d e s i hi => ?_⟩
  · exact Bool.false_ne_true (hiv.symm.trans (step_traps h))
  · simpa only [StopsAsBranch, and_assoc] using branches_stopAsBranch d e s i hi

end Sys2Proof.Machine
end

section
/-! PROOFS. The end of the operands refuses a register hazard (R134), and with it every instruction that has operands. -/

namespace Sys2Proof.Machine

open Sys2Proof

/-! ## The hazard check -/

/-- The register `hazardReg` finds is the lowest that is both stepped and used. -/
theorem hazardReg_eq_some {c : Ctx} {k : Reg} :
    hazardReg c = some k ↔
      (k ∈ c.modified ∧ k ∈ c.regUsed) ∧ ∀ j < k, ¬ (j ∈ c.modified ∧ j ∈ c.regUsed) := by
  rw [hazardReg, ← Fin.find?_eq_find?_finRange, Fin.find?_eq_some_iff]
  simp only [← Bool.decide_and, decide_eq_true_eq, decide_eq_false_iff_not]

theorem endOperands_hazard {c : Ctx} {k : Reg} (hs : c.st.params.strictRegHazard = true) (hk : hazardReg c = some k) :
    endOperands c = .error (.refuse (.registerHazard k)) := by
  rw [endOperands, if_pos hs, hk]
  rfl

/-- The same after the operands, in the terms of their specifiers. -/
theorem endOperands_afterOps_hazard {os : List Operand} {s : State} {k : Reg} (hs : s.params.strictRegHazard = true)
    (hstep : ∃ o ∈ os, o.spec.steps = some k) (huse : ∃ o ∈ os, k ∈ o.spec.uses o.dt)
    (hlow : ∀ j < k, ¬ ((∃ o ∈ os, o.spec.steps = some j) ∧ ∃ o ∈ os, j ∈ o.spec.uses o.dt)) :
    endOperands (Ctx.afterOps os (Ctx.start s)) = .error (.refuse (.registerHazard k)) := by
  apply endOperands_hazard
  · rw [Ctx.afterOps_st]
    exact (congrArg Params.strictRegHazard (operandsAfter_params os s)).trans hs
  · simp only [hazardReg_eq_some, Ctx.afterOps_modified, Ctx.afterOps_regUsed, Ctx.start, List.not_mem_nil, or_false]
    exact ⟨⟨hstep, huse⟩, hlow⟩

/-! ## What stops at the end of the operands

`StopsAtEnd c os e` is carried along the operand driver of R135, one rule for each of its steps. -/

/-- From the context `c` the operands `os` can be evaluated, and the end of the operands then stops with `e`. -/
def StopsAtEnd (c : Ctx) (os : List Operand) (e : Stop) : Prop :=
  OperandsReady os c.st ∧ endOperands (Ctx.afterOps os c) = .error e

section

variable {α : Type} {c : Ctx} {os : List Operand} {e : Stop} {t : DType} {x : Spec}

theorem StopsAtEnd.beginInstr {s : State} {f : Ctx → Except Stop α} (h : StopsAtEnd (Ctx.start s.start) os e)
    (hf : s.Fetchable 1) (hk : ∀ c, StopsAtEnd c os e → f c = .error e) : (beginInstr s >>= f) = .error e :=
  (bind_of_ok (beginInstr_ok.2 ⟨hf, rfl⟩)).trans (hk _ h)

theorem StopsAtEnd.operandR {f : BitVec t.bits × Ctx → Except Stop α} (h : StopsAtEnd c (⟨.r, t, x⟩ :: os) e)
    (hk : ∀ p, StopsAtEnd p.2 os e → f p = .error e) : (operandR t x c >>= f) = .error e := by
  obtain ⟨⟨hx, hr⟩, he⟩ := h
  exact (bind_of_ok (operandR_ok.2 ⟨hx, rfl, rfl⟩)).trans (hk (_, _) ⟨hr, he⟩)

theorem StopsAtEnd.operandW {f : Loc t × Ctx → Except Stop α} (h : StopsAtEnd c (⟨.w, t, x⟩ :: os) e)
    (hk : ∀ p, StopsAtEnd p.2 os e → f p = .error e) : (operandW t x c >>= f) = .error e := by
  obtain ⟨⟨hx, hr⟩, he⟩ := h
  exact (bind_of_ok (operandW_ok.2 ⟨hx, rfl, rfl⟩)).trans (hk (_, _) ⟨hr, he⟩)

theorem StopsAtEnd.operandM {f : BitVec t.bits × Loc t × Ctx → Except Stop α} (h : StopsAtEnd c (⟨.m, t, x⟩ :: os) e)
    (hk : ∀ p, StopsAtEnd p.2.2 os e → f p = .error e) : (operandM t x c >>= f) = .error e := by
  obtain ⟨⟨hx, hr⟩, he⟩ := h
  exact (bind_of_ok (operandM_ok.2 ⟨hx, rfl, rfl, rfl⟩)).trans (hk (_, _, _) ⟨hr, he⟩)

theorem StopsAtEnd.operandA {f : Word × Ctx → Except Stop α} (h : StopsAtEnd c (⟨.a, t, x⟩ :: os) e)
    (hk : ∀ p, StopsAtEnd p.2 os e → f p = .error e) : (operandA t x c >>= f) = .error e := by
  obtain ⟨⟨hx, hr⟩, he⟩ := h
  obtain ⟨a, ha⟩ := exists_address hx
  exact (bind_of_ok (operandA_ok.2 ⟨hx, ha, rfl⟩)).trans (hk (_, _) ⟨hr, he⟩)

theorem StopsAtEnd.endOperands {f : State → Except Stop α} (h : StopsAtEnd c [] e) :
    (endOperands c >>= f) = .error e :=
  bind_error h.2

end

/-- An instruction with operands, its opcode fetched, stops as the end of its operands does: nothing it does comes
before. -/
theorem exec_stopsAtEnd {i : Instr} {op : Opcode} {s : State} {e : Stop} (hi : i.opcode? = some op)
    (hos : i.operands ≠ []) (hf : s.Fetchable 1) (h : StopsAtEnd (Ctx.start s.start) i.operands e) :
    exec i s = outcome (.error e) := by
  cases i <;> cases hi
  case movb | movw | movl | movq | movzbw | movzbl | cvtbw | cvtbl =>
    exact congrArg outcome (h.beginInstr hf fun _ h => h.operandR fun _ h => h.operandW fun _ h => h.endOperands)
  case movab | movaw | moval | movaq =>
    exact congrArg outcome (h.beginInstr hf fun _ h => h.operandA fun _ h => h.operandW fun _ h => h.endOperands)
  case addb2 | addw2 | addl2 | subb2 | subw2 | subl2 | aobleq =>
    exact congrArg outcome (h.beginInstr hf fun _ h => h.operandR fun _ h => h.operandM fun _ h => h.endOperands)
  case addb3 | addw3 | addl3 | subb3 | subw3 | subl3 | ashl | ashq =>
    exact congrArg outcome
      (h.beginInstr hf fun _ h => h.operandR fun _ h => h.operandR fun _ h => h.operandW fun _ h => h.endOperands)
  case cmpb | cmpw | cmpl =>
    exact congrArg outcome (h.beginInstr hf fun _ h => h.operandR fun _ h => h.operandR fun _ h => h.endOperands)
  case pushl | tstb | tstw | tstl =>
    exact congrArg outcome (h.beginInstr hf fun _ h => h.operandR fun _ h => h.endOperands)
  case clrb | clrw | clrl | clrq =>
    exact congrArg outcome (h.beginInstr hf fun _ h => h.operandW fun _ h => h.endOperands)
  case jmp | jsb =>
    exact congrArg outcome (h.beginInstr hf fun _ h => h.operandA fun _ h => h.endOperands)
  all_goals exact absurd rfl hos

/-- Settles O55: the end of the operands finds the lowest such register, and the instruction stops there. -/
theorem registerHazardRefused : Obligations.RegisterHazardRefused := by
  unfold Obligations.RegisterHazardRefused
  intro i s k hi hf hr hs hstep huse hlow
  obtain ⟨op, hop⟩ := Option.ne_none_iff_exists'.1 hi
  have ⟨o, ho, _⟩ := hstep
  have hend := endOperands_afterOps_hazard (s := s.start) hs hstep huse hlow
  exact exec_stopsAtEnd hop (List.ne_nil_of_mem ho) hf ⟨hr, hend⟩

end Sys2Proof.Machine
end

section
/-! PROOFS. The step at an instruction and at the end of the run (R293, R294), and the words the spec writes out. -/

namespace Sys2Proof.Machine

open Sys2Proof

/-! ## Words of the spec -/

/-- Bytes that are a well-formed instruction's encoding decode to it: `DecodeEncode` with nothing after them. -/
theorem decode_of_encode_eq {i : Instr} {bs : List Byte} (hb : encode i = bs) (hi : i.opcode? ≠ none)
    (hw : i.wf = true) : decode defaultOpcodeMap bs = .instr i := by
  rw [← hb, ← List.append_nil (encode i)]
  exact decodeEncode i [] hi hw

/-- Settles O4: each word is the encoding of its instruction (R60 to R75), which decodes to it. -/
theorem sampleWordsDecode : Obligations.SampleWordsDecode := by
  unfold Obligations.SampleWordsDecode
  refine ⟨?movl_displacement, ?movb_deferred, ?movl_word, ?movb_immediate, ?movl_absolute, ?addl2, ?moval_index, ?brw,
    ?aobleq, ?jmp⟩
  all_goals exact decode_of_encode_eq (by decide) (by decide) (by decide)

/-! ## The step -/

/-- A window of memory is its first bytes and the window after them. -/
theorem windowFrom_add (m : Memory) (a : Word) (n k : Nat) :
    windowFrom m a (n + k) = windowFrom m a n ++ windowFrom m (a + BitVec.ofNat 32 n) k := by
  induction n generalizing a with
  | zero => simp [windowFrom]
  | succ n ih =>
    rw [Nat.add_right_comm, windowFrom, windowFrom, ih, addr_succ, List.cons_append]

/-- The bytes given to the decoder hold the whole of an instruction that stands at the program counter. -/
theorem window_of_encoding {i : Instr} {s : State} {bs : List Byte}
    (h : windowFrom s.mem s.pc (encode i).length = bs) : ∃ rest, s.window = bs ++ rest := by
  refine ⟨windowFrom s.mem (s.pc + BitVec.ofNat 32 (encode i).length) (fetchWindow - (encode i).length), ?_⟩
  rw [← h, ← windowFrom_add, Nat.add_sub_cancel' (encode_length_le_fetchWindow i), State.window]

/-- Settles O5: the window starts with the instruction's bytes, its opcode is found under the first, and the rest is read
by its signature. -/
theorem stepRunsDecodedInstruction : Obligations.StepRunsDecodedInstruction := by
  unfold Obligations.StepRunsDecodedInstruction
  intro i op b s hop hw he hl hp hbytes
  obtain ⟨rest, hwin⟩ := window_of_encoding hbytes
  rw [encode_eq hop, List.tail_cons, List.cons_append, List.append_assoc] at hwin
  have hdec : decode s.params.opcodeMap s.window = .instr i := by
    rw [hwin, decode_cons_of_lookup he hl, decodeBody_encode hop hw]
  rw [step, if_neg hp, hdec]

/-- Settles O6: the end of the run is looked for before anything is decoded. -/
theorem stepAtEndStays : Obligations.StepAtEndStays := by
  unfold Obligations.StepAtEndStays
  intro s hp
  rw [step, if_pos hp]

end Sys2Proof.Machine
end

section
/-! PROOFS. `case`, the procedure calls and `ret`, refused by name as the other named instructions are (R74). -/

namespace Sys2Proof.Machine

open Sys2Proof Claims

/-- Settles O9: each of the six is executed as `unmodelled` and decoded from its opcode byte alone. -/
theorem caseAndProcedureRefused : Obligations.CaseAndProcedureRefused := by
  unfold Obligations.CaseAndProcedureRefused
  refine ⟨?caseb, ?casew, ?casel, ?calls, ?callg, ?ret⟩
  all_goals exact refusedByName_of_exec (fun _ => rfl) fun _ => rfl

end Sys2Proof.Machine
end

section
/-! PROOFS. The state at reset (R33, R290), as the launch that stands for it gives it (logs 1 and 2). -/

namespace Sys2Proof.Machine

open Sys2Proof

/-- The launch that stands for reset supplies every register, with 0. -/
theorem initReg_resetLaunch : ∀ n : Gpr, resetLaunch.initReg n = some 0 := by decide

theorem isWritten_reset {n : Reg} (hn : n ≠ pcReg) : State.reset.isWritten n = true := by
  cases n using Fin.lastCases with
  | last => exact absurd rfl hn
  | cast n => exact (isWritten_ofLaunch resetLaunch n).trans (by rw [initReg_resetLaunch]; rfl)

theorem reg_reset (n : Reg) : State.reset.reg n = 0 := by
  cases n using Fin.lastCases with
  | last => rfl
  | cast n => exact (reg_ofLaunch resetLaunch n).trans (by rw [initReg_resetLaunch]; rfl)

theorem allWritten_reset : State.reset.AllWritten :=
  ⟨fun _ => isWritten_reset, fun f => by cases f <;> rfl⟩

/-- No byte is code at reset, so there is none that would have to be readable. -/
theorem codeReadable_resetLaunch : resetLaunch.CodeReadable := fun _ h => absurd h Bool.false_ne_true

/-- Settles O12: memory lists nothing, and every register and flag is one the launch supplies. -/
theorem resetState : Obligations.ResetState := by
  unfold Obligations.ResetState
  exact ⟨rfl, allWritten_reset, codeReadable_resetLaunch, reg_reset, rfl, rfl, fun _ => rfl⟩

end Sys2Proof.Machine
end
